-- ==== Sys2Proof/Word.lean ====
section
/-! DEFINITION. The word types of the block: an operation request is 32 bits (R88), a byte of the
display bus is 8 bits (R102). -/

namespace Sys2Proof

/-- One byte: a display command or data byte, a glyph code, a cell of DDRAM (R64, R102). -/
abbrev Byte := BitVec 8

/-- One operation request word (R88). -/
abbrev Word := BitVec 32

/-- A handler identifier, 0 the null callback (R71). It has `HANDLER_W` bits, at most the 28 that the
request word leaves (R90), and is held in those 28 (log entry 17). -/
abbrev HandlerId := BitVec 28

end Sys2Proof
end

