-- ==== Sys2Proof/Syntax.lean ====
section
/-! DEFINITION. The operations of the block, one constructor for each row of
spec/opcode_table.json (R89), with the operand fields of R90. -/

namespace Sys2Proof

/-- One operation request with its operands (R89, R90). An operand is exactly as wide as its field,
so every operation has a request word; which operand values an operation accepts is R110. The two
operands whose width is a parameter of the run, `HANDLER_W` and `INT_W` (R9), are held in the 28 bits
below the opcode (log entry 17). -/
inductive Instr where
  /-- `ADC_CFG ref, clk, trig` (R119) -/
  | adcCfg (ref : BitVec 2) (clk : BitVec 3) (trig : BitVec 3)
  /-- `ADC_READ chan` (R121) -/
  | adcRead (chan : BitVec 8)
  /-- `ADC_TAKE` (R126) -/
  | adcTake
  /-- `TMR_CFG_PWM init, top, mode, clk` (R141) -/
  | tmrCfgPwm (init : BitVec 8) (top : BitVec 8) (mode : BitVec 2) (clk : BitVec 3)
  /-- `TMR_CFG_PER init, top, mode, clk` (R144) -/
  | tmrCfgPer (init : BitVec 8) (top : BitVec 8) (mode : BitVec 2) (clk : BitVec 3)
  /-- `TMR_DUTY duty` (R147) -/
  | tmrDuty (duty : BitVec 8)
  /-- `TMR_SETCB h` (R149), `h` of `HANDLER_W` bits -/
  | tmrSetcb (h : HandlerId)
  /-- `TMR_CLEAR` (R150) -/
  | tmrClear
  /-- `LCD_INIT` (R183) -/
  | lcdInit
  /-- `LCD_CMD code` (R185) -/
  | lcdCmd (code : BitVec 8)
  /-- `LCD_DATA byte` (R186) -/
  | lcdData (byte : BitVec 8)
  /-- `LCD_GOTO row, col` (R189) -/
  | lcdGoto (row : BitVec 8) (col : BitVec 8)
  /-- `LCD_INT val` (R195), `val` of `INT_W` bits, two's complement -/
  | lcdInt (val : BitVec 28)
deriving DecidableEq, Repr

end Sys2Proof
end

