-- ==== Sys2Proof/Config.lean ====
section
/-! DEFINITION. What is fixed for a run: the constants the source fixes (R8), the parameters it
leaves open (R9) with the constraints on them, the vocabulary in which the run's parameters are
written (pins, directions, turns, callback bodies), and the free values (log entries 7 and 10). -/

namespace Sys2Proof

/-- `BUSW`: the LCD bus is 4 or 8 lines wide (R9, R170). -/
inductive BusWidth where
  | four
  | eight
deriving DecidableEq, Repr

/-- The number of data lines. -/
def BusWidth.lines : BusWidth → Nat
  | .four => 4
  | .eight => 8

/-- `ADC_POLICY`: the channel-read policy (R9, R118). -/
inductive ReadPolicy where
  | blocking
  | latched
deriving DecidableEq, Repr

/-- A location of the GPIO space: a (port, pin) pair (R69). -/
structure Gpio where
  port : Nat
  pin : Nat
deriving DecidableEq, Repr

/-- Motor directions, numbered 0, 1, 2 in this order (R217). -/
inductive Direction where
  | stopped
  | forward
  | reverse
deriving DecidableEq, Repr

/-- A positive rational, as numerator and denominator (the sensor constants of R9). -/
structure Ratio where
  num : Nat
  den : Nat
deriving DecidableEq, Repr

/-- The pins the lines are wired to: `PIN_LCD_RS`, `PIN_LCD_E`, `PIN_LCD_B[0..7]` of which the first
`BUSW` are used, `PIN_OC`, `PIN_MOTOR_A`, `PIN_MOTOR_B` (R9, R254). -/
structure Pins where
  lcdRs : Gpio
  lcdE : Gpio
  lcdB : List Gpio
  oc : Gpio
  motorA : Gpio
  motorB : Gpio
deriving DecidableEq, Repr

/-- `MOTOR_LEVELS`: the levels of the pins A and B for each direction (R218). -/
structure MotorLevels where
  stopped : Bool × Bool
  forward : Bool × Bool
  reverse : Bool × Bool
deriving DecidableEq, Repr

/-- A cursor position of the display (R188). -/
structure Cursor where
  row : BitVec 8
  col : BitVec 8
deriving DecidableEq, Repr

/-- One of the fixed labels of R228: a position and the codes of its text. -/
structure Label where
  at_ : Cursor
  text : List Byte
deriving DecidableEq, Repr

/-- The durations of R9 and R292, in nanoseconds. No rule reads them (R291). -/
structure Delays where
  power : Nat
  regSelect : Nat
  pulse : Nat
  dataSetup : Nat
  hold : Nat
deriving DecidableEq, Repr

/-- Every parameter of R9. It is fixed for a run (R10). -/
structure Config where
  busw : BusWidth
  policy : ReadPolicy
  /-- `LCD_COLS` -/
  lcdCols : Nat
  cmdClear : Byte
  cmdCursorOff : Byte
  cmdModeFull : Byte
  cmdModeReduced : Byte
  /-- `CMD_HS[0]`, `CMD_HS[1]`, `CMD_HS[2]` -/
  cmdHs0 : Byte
  cmdHs1 : Byte
  cmdHs2 : Byte
  cmdSetCursor : Byte
  /-- `INT_W` -/
  intW : Nat
  glyphDigit0 : Byte
  glyphMinus : Byte
  glyphBlank : Byte
  delays : Delays
  /-- `HANDLER_W` -/
  handlerW : Nat
  /-- `OC_IDLE` -/
  ocIdle : Bool
  pins : Pins
  /-- `SENSOR_CHANNEL` -/
  sensorChannel : BitVec 3
  vRef : Ratio
  vSensorMax : Ratio
  tSensorMax : Ratio
  motorLevels : MotorLevels
  labels : List Label
  posTemp : Cursor
  posState : Cursor
  textOff : List Byte
  textOn : List Byte
deriving DecidableEq, Repr

/-- `T_POWER_MIN`: 15 ms, in nanoseconds (R8). -/
def powerMin : Nat := 15000000

/-- Every pin of the configuration that the run uses. -/
def Config.usedPins (c : Config) : List Gpio :=
  c.pins.lcdRs :: c.pins.lcdE :: c.pins.oc :: c.pins.motorA :: c.pins.motorB
    :: c.pins.lcdB.take c.busw.lines

/-- The command codes of R104 other than the set-cursor code. -/
def Config.otherCommands (c : Config) : List Byte :=
  [c.cmdClear, c.cmdCursorOff, c.cmdModeFull, c.cmdModeReduced, c.cmdHs0, c.cmdHs1, c.cmdHs2]

/-- The position lies inside the display geometry (R98). -/
def Config.onDisplay (c : Config) (p : Cursor) : Bool :=
  decide (p.row.toNat ≤ 3) && decide (p.col.toNat < c.lcdCols)

/-- The constraints on `INT_W` and `HANDLER_W`: those of R9, and that the operand leaves the opcode
free (R90). -/
def Config.widthsOk (c : Config) : Bool :=
  decide (2 ≤ c.intW ∧ c.intW ≤ 28) && decide (1 ≤ c.handlerW ∧ c.handlerW ≤ 28)

/-- The constraints of R9, R90 and R104 on a choice of the parameters. -/
def Config.legal (c : Config) : Bool :=
  decide (1 ≤ c.lcdCols ∧ c.lcdCols ≤ 16)
    && (c.otherCommands.tail.all fun x => x != c.cmdClear)
    && c.cmdSetCursor.extractLsb' 0 7 == 0
    && c.widthsOk
    && (c.otherCommands.all fun x => (x &&& 0x80#8) != c.cmdSetCursor)
    && decide (powerMin ≤ c.delays.power)
    && decide (0 < c.delays.regSelect ∧ 0 < c.delays.pulse ∧ 0 < c.delays.dataSetup ∧ 0 < c.delays.hold)
    && decide (c.busw.lines ≤ c.pins.lcdB.length)
    && decide c.usedPins.Nodup
    && decide (0 < c.vRef.num ∧ 0 < c.vRef.den ∧ 0 < c.vSensorMax.num ∧ 0 < c.vSensorMax.den
        ∧ 0 < c.tSensorMax.num ∧ 0 < c.tSensorMax.den)
    && decide [c.motorLevels.stopped, c.motorLevels.forward, c.motorLevels.reverse].Nodup
    && c.onDisplay c.posTemp && c.onDisplay c.posState

/-- The defaults of R9 for a bus width and a policy, which R9 gives no default. The parameters that
R9 leaves open have values of the model's own choice. DESIGN CHOICE, log entry 2; the codes of the
commands and the glyphs are the spec's defaults, from general knowledge, log entry 19. -/
def Config.defaults (busw : BusWidth) (policy : ReadPolicy) : Config where
  busw := busw
  policy := policy
  lcdCols := 16
  cmdClear := 0x01#8
  cmdCursorOff := 0x0C#8
  cmdModeFull := 0x38#8
  cmdModeReduced := 0x28#8
  cmdHs0 := 0x33#8
  cmdHs1 := 0x32#8
  cmdHs2 := 0x28#8
  cmdSetCursor := 0x80#8
  intW := 16
  glyphDigit0 := 0x30#8
  glyphMinus := 0x2D#8
  glyphBlank := 0x20#8
  delays := ⟨20000000, 1000, 1000, 1000, 1000⟩
  handlerW := 8
  ocIdle := false
  pins :=
    { lcdRs := ⟨0, 0⟩, lcdE := ⟨0, 1⟩
      lcdB := [⟨1, 0⟩, ⟨1, 1⟩, ⟨1, 2⟩, ⟨1, 3⟩, ⟨1, 4⟩, ⟨1, 5⟩, ⟨1, 6⟩, ⟨1, 7⟩]
      oc := ⟨0, 2⟩, motorA := ⟨0, 3⟩, motorB := ⟨0, 4⟩ }
  sensorChannel := 0
  vRef := ⟨256, 100⟩
  vSensorMax := ⟨15, 10⟩
  tSensorMax := ⟨150, 1⟩
  motorLevels := ⟨(false, false), (true, false), (false, true)⟩
  labels := []
  posTemp := ⟨0, 0⟩
  posState := ⟨1, 0⟩
  textOff := [0x4F#8, 0x46#8, 0x46#8]
  textOn := [0x4F#8, 0x4E#8]

/-- The configuration of `State.reset`: full bus, blocking policy. DESIGN CHOICE, log entry 1. -/
def Config.atReset : Config := Config.defaults .eight .blocking

/-- The host arithmetic of a callback body (R242), on integers: literals, the word of the last response
(R93), the host's own variables of the callbacks, sums, differences, products, quotients and
remainders, and a choice by a comparison. The language is the model's, log entry 10. -/
inductive HostExpr where
  | lit (n : Int)
  /-- the word on `RESP`; 0 for none (log entry 16) -/
  | resp
  /-- the callbacks' variable number `k` -/
  | var (k : Nat)
  | add (a b : HostExpr)
  | sub (a b : HostExpr)
  | mul (a b : HostExpr)
  /-- `a div b` (R11) -/
  | div (a b : HostExpr)
  /-- `a mod b` (R11) -/
  | mod (a b : HostExpr)
  /-- `if a < b then c else d` -/
  | ifLess (a b c d : HostExpr)
deriving DecidableEq, Repr

/-- One thing a callback body does: an operation of the block, a GPIO event, or host arithmetic between
them (R242). -/
inductive HandlerAct where
  /-- issue an operation with fixed operands -/
  | op (i : Instr)
  /-- issue the operation whose request word the host has computed: the low 32 bits of the integer, in
  two's complement (DESIGN CHOICE, log entry 10) -/
  | issue (word : HostExpr)
  /-- `set_direction` (R70) -/
  | gpioDir (pin : Gpio) (output : Bool)
  /-- `write_pin` (R70) -/
  | gpioPin (pin : Gpio) (level : Bool)
  /-- `write_pin` of a computed level: 0 is low, any other value high (DESIGN CHOICE, log entry 10) -/
  | gpioPinOf (pin : Gpio) (level : HostExpr)
  /-- assign a variable of the callbacks -/
  | assign (k : Nat) (value : HostExpr)
deriving DecidableEq, Repr

/-- Which agent takes the next step (R82). The sample that the converter draws at a completion
(R129) comes with the turn. -/
inductive Turn where
  | host
  | seq
  | tick
  | conv (sample : BitVec 10)
  | adcHandler
  | tmrDispatch
deriving DecidableEq, Repr, Inhabited

/-- The turn that is taken when the schedule names none, by the number of the turn: a free value
(log entry 7). -/
opaque Config.freeTurn : Nat → Turn

/-- The body of a handler that the run's table does not name, by its identifier and the number of
the turn: a free value (log entry 10). -/
opaque Config.freeBody : HandlerId → Nat → List HandlerAct

/-- A quotient by 0 in host arithmetic, by the dividend: a free value (log entry 10). -/
opaque Config.freeQuotient : Int → Int

/-- A remainder by 0 in host arithmetic, by the dividend: a free value (log entry 10). -/
opaque Config.freeRemainder : Int → Int

end Sys2Proof
end

