-- ==== Sys2Proof/Machine/State.lean ====
section
/-! DEFINITION. The state of the model: every piece of state of 10_state.md, the run bookkeeping of
R55 to R57, the host agent (R50, file 43), and the run's parameters (R60), as plain data; and the
state after reset (R59, R263 to R265). -/

namespace Sys2Proof.Machine

/-- `TMR_MODE` (R27, R139), numbered 0 to 3 in this order. -/
inductive WaveMode where
  | normal
  | phaseCorrect
  | ctc
  | fast
deriving DecidableEq, Repr

/-- `LCD_ST` (R39), encoded 0 to 3 in this order. -/
inductive LcdState where
  | uninitialized
  | powerSettling
  | busWidthNegotiation
  | ready
deriving DecidableEq, Repr

/-- `OBS_ST` (R48). -/
inductive ObsState where
  | unset
  | tracking
  | lost
deriving DecidableEq, Repr

/-- `CTX` (R51). -/
inductive Context where
  | foreground
  | interrupt
deriving DecidableEq, Repr

/-- The label of a wait (R273, R292): `T_POWER`, `T_AS`, `T_PW`, `T_DSW`, `T_H`. -/
inductive WaitLabel where
  | power
  | regSelect
  | pulse
  | dataSetup
  | hold
deriving DecidableEq, Repr

/-- The micro-steps of the LCD sequencer (R44, R174). A bus value is held in 8 bits (log entry 13). -/
inductive MicroStep where
  | setDirs
  | setSt (st : LcdState)
  | setRs (level : Bool)
  | setE (level : Bool)
  | setB (value : Byte)
  | wait (label : WaitLabel)
  | mark (rs : Bool) (byte : Byte)
deriving DecidableEq, Repr

/-- The events of `TRACE` (R55). -/
inductive Event where
  | dir (pin : Gpio) (output : Bool)
  | pin (pin : Gpio) (level : Bool)
  | bus (value : Byte)
  | tx (rs : Bool) (width : Nat) (value : Byte)
  | xfer (rs : Bool) (byte : Byte)
  | call (h : HandlerId)
  | adcStart (chan : BitVec 3)
  | adcComplete (chan : BitVec 3) (value : BitVec 10)
  | publish (value : BitVec 10)
  | ovf
  | compareMatch
deriving DecidableEq, Repr

/-- The reasons of `refuse`, every one (R234). -/
inductive RefuseReason where
  | reservedOpcode
  | reservedBits
  | reservedReference
  | dutyOutOfRange
  | modeNotPwm
  | modeNotPeriodic
  | cursorOutOfRange
  | readWhileBusy
  | lcdNotReady
  | handlerBlocking
deriving DecidableEq, Repr

/-- The block raises no synchronous exception and has no fault (R233, R251): no step of the model
faults, so the type has no constructor. -/
inductive Fault where
deriving DecidableEq, Repr

/-- Why there is no next state. -/
inductive Refusal where
  /-- Raised by `exec` for an operation that has no meaning yet; no arm raises it. Safe. -/
  | notModelled (mnemonic : String)
  /-- Raised by `step` in a state whose `REFUSED` is set: the run has gone wrong, is over and has no
  end state (R56, R234, R296). Safe: nothing follows from a run that stopped here. -/
  | gone (reason : RefuseReason)
deriving DecidableEq, Repr

/-- The ADC unit (R13 to R23). -/
structure AdcUnit where
  /-- `ADC_REF` (R14) -/
  ref : BitVec 2
  /-- `ADC_CLK` (R15) -/
  clk : BitVec 3
  /-- `ADC_TRIG` (R16) -/
  trig : BitVec 3
  /-- `ADC_EN` (R17) -/
  en : Bool
  /-- `ADC_IE` (R18) -/
  ie : Bool
  /-- `ADC_CHAN` (R19) -/
  chan : BitVec 3
  /-- `ADC_BUSY` (R20) -/
  busy : Bool
  /-- `ADC_DONE` (R21) -/
  done : Bool
  /-- `ADC_DATA` (R22) -/
  data : BitVec 10
  /-- `CELL_VALID` (R23) -/
  cellValid : Bool
  /-- `CELL` (R23) -/
  cell : BitVec 10
deriving DecidableEq, Repr

/-- The TMR unit (R24 to R36). -/
structure TmrUnit where
  /-- `TMR_CNT` (R25) -/
  cnt : BitVec 8
  /-- `TMR_CMP` (R26) -/
  cmp : BitVec 8
  /-- `TMR_MODE` (R27) -/
  mode : WaveMode
  /-- `TMR_CLK` (R28) -/
  clk : BitVec 3
  /-- `TMR_COM` (R29) -/
  com : Bool
  /-- `TMR_FOC` (R30) -/
  foc : Bool
  /-- `TMR_OVF_IE` (R31) -/
  ovfIe : Bool
  /-- `TMR_CMP_IE` (R32) -/
  cmpIe : Bool
  /-- `TMR_PEND` (R33) -/
  pend : Bool
  /-- `TMR_DIR` (R34): false is 0 (up), true is 1 (down) -/
  down : Bool
  /-- `TMR_CB` (R35), the bits above `HANDLER_W` held as 0 (log entry 17) -/
  cb : HandlerId
  /-- `OC_DIR` (R36) -/
  ocDir : Bool
deriving DecidableEq, Repr

/-- The LCD unit (R38 to R44). -/
structure LcdUnit where
  /-- `LCD_ST` (R39) -/
  st : LcdState
  /-- `LCD_RS` (R40) -/
  rs : Bool
  /-- `LCD_E` (R41) -/
  e : Bool
  /-- `LCD_B` (R42), the lines above `BUSW` held as 0 (log entry 13) -/
  b : Byte
  /-- `LCD_DIRS` (R43) -/
  dirs : Bool
  /-- `LCD_SEQ` (R44) -/
  seq : List MicroStep
deriving DecidableEq, Repr

/-- A memory: (address, byte) pairs with strictly rising addresses. An address that is not listed holds
`Memory.unlisted` (log entry 5). -/
abbrev Memory := List Host.Cell

/-- The display observer (R46 to R48), outside the block. -/
structure Observer where
  /-- `DD[0..127]` (R46) -/
  dd : Memory
  /-- `AC` (R47) -/
  ac : BitVec 7
  /-- `OBS_ST` (R48) -/
  st : ObsState
deriving DecidableEq, Repr

/-- The steps of the host (file 43): the parts into which a host step expands, and the host steps
themselves. -/
inductive HostAct where
  /-- issue one operation of the block -/
  | op (i : Instr)
  /-- `set_direction` (R70) -/
  | gpioDir (pin : Gpio) (output : Bool)
  /-- `write_pin` (R70) -/
  | gpioPin (pin : Gpio) (level : Bool)
  /-- the end of `SENSOR_READ`: `temp` from the response (R223); with `skip`, an iteration without a
  sample goes no further (R223, D32) -/
  | convert (skip : Bool)
  /-- step 2 of the control loop: `dir`, `duty` from `temp` (R225) -/
  | select
  /-- `MOTOR_SET dir, duty` (R218) -/
  | motorSet (dir : Direction) (duty : BitVec 8)
  /-- `MOTOR_SET` of the selected command -/
  | motorSelected
  /-- `SENSOR_READ` (R223) -/
  | sensorRead
  /-- `STATUS temp, dir` (R228) -/
  | status (temp : Nat) (dir : Direction)
  /-- `STATUS` of the host's variables -/
  | statusCurrent
  /-- one iteration of the control loop (R224) -/
  | iteration
deriving DecidableEq, Repr

/-- One entry of `HPROG` (R50): a request word, or a host step of file 43. -/
inductive HostItem where
  | request (w : Word)
  | act (a : HostAct)
deriving DecidableEq, Repr

/-- The host agent (R50, R215). -/
structure HostSide where
  /-- `HPC` (R50) -/
  hpc : Nat
  /-- the parts of the host step in progress that are not finished (log entry 15) -/
  queue : List HostAct
  /-- the host waits for the completion of its blocking `ADC_READ` (R122, log entry 11) -/
  waiting : Bool
  /-- the host's variable `temp` (R223) -/
  temp : Nat
  /-- the host's variable `dir` (R225) -/
  dir : Direction
  /-- the host's variable `duty` (R225) -/
  duty : BitVec 8
  /-- the callbacks' own variables, by number (R242, log entry 10); one beyond the list holds 0 -/
  vars : List Int
deriving DecidableEq, Repr

/-- The parameters of a run (R60), which no step writes. -/
structure RunParams where
  /-- the configuration (R9) -/
  cfg : Config
  /-- `HPROG` (R50) -/
  hprog : List HostItem
  /-- the bodies of the handlers the run names (R242) -/
  handlers : List (HandlerId × List HandlerAct)
deriving DecidableEq, Repr

/-- The state of the model. -/
structure State where
  adc : AdcUnit
  tmr : TmrUnit
  lcd : LcdUnit
  obs : Observer
  host : HostSide
  /-- `CTX` (R51) -/
  ctx : Context
  /-- `TRACE` (R55), oldest event first -/
  trace : List Event
  /-- `REFUSED` (R56) -/
  refused : Option RefuseReason
  /-- `RESP` (R57), as the word of R93 (log entry 12) -/
  resp : Option (BitVec 16)
  par : RunParams
  /-- the turns that the environment has fixed, next one first (R82, log entry 7) -/
  sched : List Turn
  /-- how many turns have been taken, the argument of the free values (log entries 7 and 10) -/
  turnNo : Nat
deriving DecidableEq, Repr

/-- The answer of a meaning or a step. -/
abbrev Answer := Host.Outcome State Fault Refusal

/-- The draws at reset: the five pieces of state whose reset value the spec leaves unspecified
(R265), and the host's variables, which are undefined before the host computes them (R223, R242). -/
structure ResetDraws where
  foc : Bool
  data : BitVec 10
  cell : BitVec 10
  dd : Memory
  ac : BitVec 7
  temp : Nat
  dir : Direction
  duty : BitVec 8
  vars : List Int
deriving DecidableEq, Repr

/-- The state at the start of a run (R59) for given parameters, schedule and draws. -/
def State.resetWith (par : RunParams) (sched : List Turn) (d : ResetDraws) : State where
  adc :=
    { ref := 0, clk := 0, trig := 0, en := false, ie := false, chan := 0, busy := false,
      done := false, data := d.data, cellValid := false, cell := d.cell }
  tmr :=
    { cnt := 0, cmp := 0, mode := .normal, clk := 0, com := false, foc := d.foc, ovfIe := false,
      cmpIe := false, pend := false, down := false, cb := 0, ocDir := false }
  lcd := { st := .uninitialized, rs := false, e := false, b := 0, dirs := false, seq := [] }
  obs := { dd := d.dd, ac := d.ac, st := .unset }
  host :=
    { hpc := 0, queue := [], waiting := false, temp := d.temp, dir := d.dir, duty := d.duty,
      vars := d.vars }
  ctx := .foreground
  trace := []
  refused := none
  resp := none
  par := par
  sched := sched
  turnNo := 0

/-- The draws of `State.reset`. DESIGN CHOICE, log entries 3 to 6, 10 and 16. -/
def ResetDraws.named : ResetDraws :=
  { foc := false, data := 0, cell := 0, dd := [], ac := 0, temp := 0, dir := .stopped, duty := 0,
    vars := [] }

/-- The machine right after reset (R59): the configuration of log entry 1, no program, no handler
and no turn fixed (log entries 7, 8, 10), the draws of log entries 3 to 6,
10 and 16. -/
def State.reset : State :=
  State.resetWith { cfg := Config.atReset, hprog := [], handlers := [] } [] ResetDraws.named

end Sys2Proof.Machine
end

