-- ==== Sys2Proof/Machine/Flags.lean ====
section
/-! DEFINITION. The conditions computed from the state: interrupt requests (R236, R239), the events
of a tick and what they pend (R151 to R156), the comparator (R37). -/

namespace Sys2Proof.Machine

/-- The request of the ADC completion interrupt: `ADC_DONE = 1 and ADC_IE = 1` (R236). -/
def adcRequest (a : AdcUnit) : Bool := a.done && a.ie

/-- The conversion agent may complete: `ADC_BUSY = 1 and ADC_EN = 1` (R130). -/
def conversionEnabled (a : AdcUnit) : Bool := a.busy && a.en

/-- A tick may happen: `TMR_CLK != 0` (R152). -/
def tickEnabled (t : TmrUnit) : Bool := t.clk != 0#3

/-- `match` of a tick: the counter equals the compare register before the update (R151). -/
def tickMatch (t : TmrUnit) : Bool := t.cnt == t.cmp

/-- The counting direction of a tick in the dual-slope mode: true is down (R154). -/
def slopeDown (t : TmrUnit) : Bool :=
  if t.cnt = 255#8 then true else if t.cnt = 0#8 then false else t.down

/-- The counter after a tick (R153 to R156). -/
def tickCount (t : TmrUnit) : BitVec 8 :=
  match t.mode with
  | .normal => t.cnt + 1#8
  | .fast => t.cnt + 1#8
  | .phaseCorrect => if slopeDown t then t.cnt - 1#8 else t.cnt + 1#8
  | .ctc => if tickMatch t || t.cnt == 255#8 then 0#8 else t.cnt + 1#8

/-- `TMR_DIR` after a tick: written by the rule of mode 1 only (R34, R154). -/
def tickDown (t : TmrUnit) : Bool :=
  match t.mode with
  | .phaseCorrect => slopeDown t
  | .normal => t.down
  | .ctc => t.down
  | .fast => t.down

/-- `ovf` of a tick: the counter stood at 255, or in the dual-slope mode has reached 0 (R153 to
R156). -/
def tickOvf (t : TmrUnit) : Bool :=
  match t.mode with
  | .normal => t.cnt == 255#8
  | .fast => t.cnt == 255#8
  | .ctc => t.cnt == 255#8
  | .phaseCorrect => tickCount t == 0#8

/-- `TMR_PEND` after a tick (R151, R239). -/
def tickPend (t : TmrUnit) : Bool :=
  t.pend || (tickOvf t && t.ovfIe) || (tickMatch t && t.cmpIe)

/-- The events of a tick, the overflow first (R151). -/
def tickEvents (t : TmrUnit) : List Event :=
  (if tickOvf t then [.ovf] else []) ++ (if tickMatch t then [.compareMatch] else [])

/-- The comparator drives the pin (R37, R159). -/
def pwmDriven (t : TmrUnit) : Bool :=
  decide (t.mode = .phaseCorrect ∨ t.mode = .fast) && t.com && !t.foc && t.ocDir

/-- `PWM_OUT`, the level of `PIN_OC` (R37). -/
def pwmOut (c : Config) (t : TmrUnit) : Bool :=
  if pwmDriven t then decide (t.cnt.toNat < t.cmp.toNat) else c.ocIdle

end Sys2Proof.Machine
end

