-- ==== Sys2Proof/Decode.lean ====
section
/-! DEFINITION. The decoder of request words (R88 to R92, R108, R109) and the encoder, both written
from the format tables of R90. -/

namespace Sys2Proof

/-- Why a word is no operation (R108, R109). -/
inductive DecodeError where
  /-- opcode 0x3, 0x9 or 0xF (R108) -/
  | reservedOpcode
  /-- a must-be-zero bit of the format is 1 (R109) -/
  | reservedBits
deriving DecidableEq, Repr

/-- The field `w[lo + n - 1 : lo]`. -/
def field (w : Word) (lo n : Nat) : BitVec n := w.extractLsb' lo n

/-- The number of low bits of the word that the format of an opcode uses for operands (R89, R90), by the
widths of the configuration; the bits from there up to bit 27 must be zero (R109). None for a reserved
opcode (R108). -/
def operandBits (c : Config) (opcode : BitVec 4) : Option Nat :=
  match opcode with
  | 0x0#4 => some 8
  | 0x1#4 => some 8
  | 0x2#4 => some 0
  | 0x4#4 => some 21
  | 0x5#4 => some 21
  | 0x6#4 => some 8
  | 0x7#4 => some c.handlerW
  | 0x8#4 => some 0
  | 0xA#4 => some 0
  | 0xB#4 => some 8
  | 0xC#4 => some 8
  | 0xD#4 => some 16
  | 0xE#4 => some c.intW
  | _ => none

/-- The field `w[n - 1 : 0]` of a width that is a parameter, zero-extended to the 28 bits it is held
in. -/
def lowField (w : Word) (n : Nat) : BitVec 28 := BitVec.ofNat 28 (w.toNat % 2 ^ n)

/-- The operand fields of R90, cut from a word whose opcode is the given one. -/
def cutFields (c : Config) (opcode : BitVec 4) (w : Word) : Option Instr :=
  match opcode with
  | 0x0#4 => some (.adcCfg (field w 6 2) (field w 3 3) (field w 0 3))
  | 0x1#4 => some (.adcRead (field w 0 8))
  | 0x2#4 => some .adcTake
  | 0x4#4 => some (.tmrCfgPwm (field w 13 8) (field w 5 8) (field w 3 2) (field w 0 3))
  | 0x5#4 => some (.tmrCfgPer (field w 13 8) (field w 5 8) (field w 3 2) (field w 0 3))
  | 0x6#4 => some (.tmrDuty (field w 0 8))
  | 0x7#4 => some (.tmrSetcb (lowField w c.handlerW))
  | 0x8#4 => some .tmrClear
  | 0xA#4 => some .lcdInit
  | 0xB#4 => some (.lcdCmd (field w 0 8))
  | 0xC#4 => some (.lcdData (field w 0 8))
  | 0xD#4 => some (.lcdGoto (field w 8 8) (field w 0 8))
  | 0xE#4 => some (.lcdInt (lowField w c.intW))
  | _ => none

/-- The decoder, total on 32-bit words (R91): the opcode first, then the must-be-zero bits, then the
fields. It checks no operand range. The widths `HANDLER_W` and `INT_W` are the configuration's. -/
def decode (c : Config) (w : Word) : Except DecodeError Instr :=
  match operandBits c (field w 28 4) with
  | none => .error .reservedOpcode
  | some n =>
    if field w 0 28 >>> n ≠ 0#28 then .error .reservedBits
    else match cutFields c (field w 28 4) w with
      | some i => .ok i
      | none => .error .reservedOpcode

/-- The request word of an operation, written from the format tables of R90, highest bits first.
An operand of `HANDLER_W` or `INT_W` bits fills the 28 bits with zeros. -/
def encode : Instr → Word
  | .adcCfg ref clk trig => 0x0#4 ++ 0#20 ++ ref ++ clk ++ trig
  | .adcRead chan => 0x1#4 ++ 0#20 ++ chan
  | .adcTake => 0x2#4 ++ 0#28
  | .tmrCfgPwm init top mode clk => 0x4#4 ++ 0#7 ++ init ++ top ++ mode ++ clk
  | .tmrCfgPer init top mode clk => 0x5#4 ++ 0#7 ++ init ++ top ++ mode ++ clk
  | .tmrDuty duty => 0x6#4 ++ 0#20 ++ duty
  | .tmrSetcb h => 0x7#4 ++ h
  | .tmrClear => 0x8#4 ++ 0#28
  | .lcdInit => 0xA#4 ++ 0#28
  | .lcdCmd code => 0xB#4 ++ 0#20 ++ code
  | .lcdData byte => 0xC#4 ++ 0#20 ++ byte
  | .lcdGoto row col => 0xD#4 ++ 0#12 ++ row ++ col
  | .lcdInt val => 0xE#4 ++ val

/-- The mask of a format whose operand is the low `n` bits. -/
def maskAbove (n : Nat) : Word := ~~~(BitVec.ofNat 32 (2 ^ n - 1))

/-- The `match` and `mask` of an operation's row in the table of R92, which is drawn for the default
widths; for other widths the mask leaves out the operand's bits (R90). -/
def matchMask (c : Config) : Instr → Word × Word
  | .adcCfg _ _ _ => (0x00000000#32, 0xFFFFFF00#32)
  | .adcRead _ => (0x10000000#32, 0xFFFFFF00#32)
  | .adcTake => (0x20000000#32, 0xFFFFFFFF#32)
  | .tmrCfgPwm _ _ _ _ => (0x40000000#32, 0xFFE00000#32)
  | .tmrCfgPer _ _ _ _ => (0x50000000#32, 0xFFE00000#32)
  | .tmrDuty _ => (0x60000000#32, 0xFFFFFF00#32)
  | .tmrSetcb _ => (0x70000000#32, maskAbove c.handlerW)
  | .tmrClear => (0x80000000#32, 0xFFFFFFFF#32)
  | .lcdInit => (0xA0000000#32, 0xFFFFFFFF#32)
  | .lcdCmd _ => (0xB0000000#32, 0xFFFFFF00#32)
  | .lcdData _ => (0xC0000000#32, 0xFFFFFF00#32)
  | .lcdGoto _ _ => (0xD0000000#32, 0xFFFF0000#32)
  | .lcdInt _ => (0xE0000000#32, maskAbove c.intW)

/-- The instruction the decoder reads from the word `w` of `nbits` bits; the bits above `nbits` are
zero. The table is drawn for the default widths. -/
def decodeTableWord (nbits w : Nat) : Option Instr :=
  match decode Config.atReset (BitVec.ofNat 32 (w % 2 ^ nbits)) with
  | .ok i => some i
  | .error _ => none

end Sys2Proof
end

