-- ==== Sys2Proof/Machine/Operands.lean ====
section
/-! DEFINITION. Every operand computation of the spec: masks, ranges, the threshold, the DDRAM
address and the set-cursor byte, the decimal text, the response word. -/

namespace Sys2Proof.Machine

/-- `chan & 0x07`, the effective channel (R68, R94). -/
def effectiveChannel (chan : BitVec 8) : BitVec 3 := chan.setWidth 3

/-- The reference selector is the reserved one (R111). -/
def refReserved (ref : BitVec 2) : Bool := ref == 2#2

/-- The duty is in the documented range (R95). -/
def dutyInRange (duty : BitVec 8) : Bool := decide (duty.toNat ≤ 100)

/-- `threshold(duty) = (duty * 255 + 50) div 100`, on mathematical integers (R145). -/
def threshold (duty : BitVec 8) : BitVec 8 := BitVec.ofNat 8 ((duty.toNat * 255 + 50) / 100)

/-- The mode that the operand of `TMR_CFG_PWM` names; none for a mode it does not accept (R141). -/
def pwmMode (mode : BitVec 2) : Option WaveMode :=
  match mode with
  | 1#2 => some .phaseCorrect
  | 3#2 => some .fast
  | _ => none

/-- The mode that the operand of `TMR_CFG_PER` names; none for a mode it does not accept (R144). -/
def periodicMode (mode : BitVec 2) : Option WaveMode :=
  match mode with
  | 0#2 => some .normal
  | 2#2 => some .ctc
  | _ => none

/-- A handler identifier in `HANDLER_W` bits (R35, R100). -/
def handlerId (c : Config) (h : HandlerId) : HandlerId := BitVec.ofNat 28 (h.toNat % 2 ^ c.handlerW)

/-- `sext(val)` of an operand of `INT_W` bits, as a mathematical integer (R99, R195). -/
def signedOperand (c : Config) (val : BitVec 28) : Int := (val.setWidth c.intW).toInt

/-- A natural number as an operand of `INT_W` bits, its low ones (log entry 16). -/
def intOperand (c : Config) (n : Nat) : BitVec 28 := BitVec.ofNat 28 (n % 2 ^ c.intW)

/-- `ROW_OFFSET` (R8, R65); none for an unmapped row. -/
def rowOffset (row : Nat) : Option Nat :=
  match row with
  | 0 => some 0x00
  | 1 => some 0x40
  | 2 => some 0x10
  | 3 => some 0x50
  | _ => none

/-- `ddram_addr(row, column)` for a position inside the geometry of `cols` columns; none outside it
(R65, R98). -/
def ddramAddr (cols : Nat) (row col : BitVec 8) : Option (BitVec 7) :=
  if col.toNat < cols then
    (rowOffset row.toNat).map fun off => BitVec.ofNat 7 (off + col.toNat)
  else none

/-- `CMD_SET_CURSOR | zext_8(addr[6:0])` (R105). -/
def setCursorByte (c : Config) (addr : BitVec 7) : Byte := c.cmdSetCursor ||| addr.setWidth 8

/-- The decimal digits of `n`, most significant first, with `fuel` steps allowed. -/
def digitsFrom : Nat → Nat → List Nat
  | 0, _ => []
  | fuel + 1, n => if n < 10 then [n] else digitsFrom fuel (n / 10) ++ [n % 10]

/-- `digits(n)` (R192); `n + 1` steps are always enough. -/
def digits (n : Nat) : List Nat := digitsFrom (n + 1) n

/-- The code of a digit, `GLYPH_DIGIT0 + d`, in 8 bits (R107, log entry 19). -/
def digitGlyph (c : Config) (d : Nat) : Byte := c.glyphDigit0 + BitVec.ofNat 8 d

/-- `text(v)` (R193). -/
def decimalText (c : Config) (v : Int) : List Byte :=
  if v < 0 then c.glyphMinus :: (digits v.natAbs).map (digitGlyph c)
  else (digits v.natAbs).map (digitGlyph c)

/-- The response of a blocking `ADC_READ`: `zext_16(result)` (R93, R122). -/
def resultWord (v : BitVec 10) : BitVec 16 := v.setWidth 16

/-- The response of `ADC_TAKE` when the cell holds a value: bit 15 set, the value in bits [9:0]
(R93, R126). -/
def takenWord (v : BitVec 10) : BitVec 16 := 0x8000#16 ||| v.setWidth 16

/-- The response as a word (R93); that none is the word 0 in every bit is the model's. DESIGN CHOICE, log
entry 16. -/
def responseWord (r : Option (BitVec 16)) : BitVec 16 := r.getD 0

/-- The bus values that carry a byte, in order: the whole byte on a full bus, the high nibble and
then the low one on a reduced bus (R72, R73, R103). -/
def busValues (w : BusWidth) (byte : Byte) : List Byte :=
  match w with
  | .eight => [byte]
  | .four => [(byte.extractLsb' 4 4).setWidth 8, (byte.extractLsb' 0 4).setWidth 8]

end Sys2Proof.Machine
end

