-- ==== Sys2Proof/Machine/Ops.lean ====
section
/-! DEFINITION. The named operations over the state: memory, events, refusal, the response, the
cell, taking an interrupt and returning from one, the micro-step lists, the schedule. -/

namespace Sys2Proof.Machine

/-- What an address that no entry lists reads as. DESIGN CHOICE, log entry 5. -/
def Memory.unlisted : Byte := 0x00#8

/-- The canonical form of a memory: addresses strictly rise and are DDRAM addresses, below 128 (R64),
and no entry holds what an unlisted address reads as. -/
abbrev Memory.wf (m : Memory) : Prop :=
  m.Pairwise (fun x y => x.1 < y.1) ∧ ∀ x ∈ m, x.1 < 128 ∧ x.2 ≠ Memory.unlisted

/-- The byte at an address. -/
def Memory.read (m : Memory) (a : BitVec 7) : Byte :=
  match m with
  | [] => Memory.unlisted
  | (k, v) :: rest => if k = a.toNat then v else Memory.read rest a

/-- The memory `m`, with an entry for `v` at `k` before it unless an unlisted address reads as `v`. -/
def Memory.entry (k : Nat) (v : Byte) (m : Memory) : Memory :=
  if v = Memory.unlisted then m else (k, v) :: m

/-- `MemWrite(DD + a, 1, v)` on the memory itself (R66). -/
def Memory.write (m : Memory) (a : BitVec 7) (v : Byte) : Memory :=
  match m with
  | [] => Memory.entry a.toNat v []
  | (k, u) :: rest =>
    if a.toNat < k then Memory.entry a.toNat v ((k, u) :: rest)
    else if a.toNat = k then Memory.entry a.toNat v rest
    else (k, u) :: Memory.write rest a v

/-- The memory with the same byte at every one of the 128 addresses (R208, R210). -/
def Memory.filled (v : Byte) : Memory :=
  if v = Memory.unlisted then [] else (List.range 128).map fun a => (a, v)

/-- `emit` of events in order (R55). -/
def State.emit (s : State) (es : List Event) : State := { s with trace := s.trace ++ es }

/-- `refuse r` (R11, R56, R234): the first reason stays; nothing else changes. -/
def State.refuse (s : State) (r : RefuseReason) : State :=
  { s with refused := some (s.refused.getD r) }

/-- The response port (R93). -/
def State.respond (s : State) (v : Option (BitVec 16)) : State := { s with resp := v }

/-- `MemRead(CELL, 2)`: the cell as an optional value, in one step (R76). -/
def cellRead (a : AdcUnit) : Option (BitVec 10) := if a.cellValid then some a.cell else none

/-- `MemWrite(CELL, 2, v)`: both halves in one step (R76). -/
def cellWrite (a : AdcUnit) (v : BitVec 10) : AdcUnit := { a with cellValid := true, cell := v }

/-- Taking an interrupt (R246): nothing is saved, no mode changes; `CTX` becomes `interrupt`. -/
def State.enterHandler (s : State) : State := { s with ctx := .interrupt }

/-- The return from an interrupt (R247): nothing is restored; `CTX` is `foreground` again. -/
def State.leaveHandler (s : State) : State := { s with ctx := .foreground }

/-- In interrupt context: the operations of R249 are refused there. -/
def State.inHandler (s : State) : Bool := decide (s.ctx = .interrupt)

/-- The run's read policy is the blocking one (R118). -/
def State.blocking (s : State) : Bool := decide (s.par.cfg.policy = .blocking)

/-- `strobe(v)` (R175). -/
def strobe (v : Byte) : List MicroStep :=
  [.setE true, .wait .pulse, .setB v, .wait .dataSetup, .setE false, .wait .hold]

/-- `xfer(rs, byte)` (R176, R177). -/
def xfer (w : BusWidth) (rs : Bool) (byte : Byte) : List MicroStep :=
  [.setRs rs, .wait .regSelect] ++ (busValues w byte).flatMap strobe ++ [.mark rs byte]

/-- The transfers of several data bytes, in order (R74, R195). -/
def xferData (w : BusWidth) (bytes : List Byte) : List MicroStep := bytes.flatMap (xfer w true)

/-- The command bytes that `LCD_INIT` sends before the clear (R183). -/
def modeCommands (c : Config) : List Byte :=
  match c.busw with
  | .four => [c.cmdHs0, c.cmdHs1, c.cmdHs2, c.cmdModeReduced]
  | .eight => [c.cmdModeFull]

/-- `seq(LCD_INIT)` (R183). -/
def initSeq (c : Config) : List MicroStep :=
  [.setSt .uninitialized, .setDirs, .setSt .powerSettling, .wait .power, .setSt .busWidthNegotiation]
    ++ (modeCommands c ++ [c.cmdClear, c.cmdCursorOff]).flatMap (xfer c.busw false)
    ++ [.setSt .ready]

/-- `LCD_SEQ <- seq` (R173). -/
def State.loadSeq (s : State) (seq : List MicroStep) : State :=
  { s with lcd := { s.lcd with seq := seq } }

/-- The issue of an LCD operation other than `LCD_INIT` (R173, R182): refused in a handler (R249),
refused before `Ready`, and otherwise the list is loaded. -/
def State.issueLcd (s : State) (seq : List MicroStep) : State :=
  if s.inHandler then s.refuse .handlerBlocking
  else if s.lcd.st ≠ .ready then s.refuse .lcdNotReady
  else s.loadSeq seq

/-- The turn that comes next: the schedule's, and after its end a free value (log entry 7). -/
def State.nextTurn (s : State) : Turn :=
  match s.sched with
  | t :: _ => t
  | [] => Config.freeTurn s.turnNo

/-- The state with that turn taken. -/
def State.takeTurn (s : State) : State :=
  { s with sched := s.sched.tail, turnNo := s.turnNo + 1 }

/-- The list with `x` at index `n`, padded before it with `pad` where it is too short. -/
def placeAt {α : Type} (pad : α) : List α → Nat → α → List α
  | [], 0, x => [x]
  | _ :: rest, 0, x => x :: rest
  | [], n + 1, x => pad :: placeAt pad [] n x
  | y :: rest, n + 1, x => y :: placeAt pad rest n x

end Sys2Proof.Machine
end

