-- ==== Sys2Proof/Machine/Converter.lean ====
section
/-! DEFINITION. The conversion agent (R129, R130). -/

namespace Sys2Proof.Machine

/-- The completion of a conversion with the drawn sample `v`; nothing while no conversion is in
flight or the converter is not enabled (R130). -/
def convAgent (v : BitVec 10) (s : State) : State :=
  if conversionEnabled s.adc then
    { s with adc := { s.adc with data := v, done := true, busy := false } }.emit
      [.adcComplete s.adc.chan v]
  else s

end Sys2Proof.Machine
end

