-- ==== Sys2Proof/Machine/Adc.lean ====
section
/-! DEFINITION. The meanings of the ADC operations (40_converter_adc.md). -/

namespace Sys2Proof.Machine

/-- `ADC_CFG ref, clk, trig` (R119). -/
def execAdcCfg (ref : BitVec 2) (clk trig : BitVec 3) (s : State) : Answer :=
  if refReserved ref then .next (s.refuse .reservedReference)
  else .next
    { s with adc :=
      { s.adc with
        ref := ref, clk := clk, trig := trig, en := true
        ie := !s.blocking } }

/-- `ADC_READ chan`: the start step (R121), after which a host under the blocking policy waits (R122);
refused in a handler under the blocking policy (R249) and while a conversion is in flight (R125). -/
def execAdcRead (chan : BitVec 8) (s : State) : Answer :=
  if s.inHandler && s.blocking then .next (s.refuse .handlerBlocking)
  else if s.adc.busy then .next (s.refuse .readWhileBusy)
  else .next
    ({ s with
        adc := { s.adc with chan := effectiveChannel chan, busy := true }
        host := { s.host with waiting := s.host.waiting || s.blocking } }.emit
      [.adcStart (effectiveChannel chan)])

/-- The finish step of a blocking `ADC_READ` (R122): the response, and the condition cleared. -/
def finishRead (s : State) : State :=
  { s with
    adc := { s.adc with done := false }
    host := { s.host with waiting := false } }.respond (some (resultWord s.adc.data))

/-- `ADC_TAKE` (R126). -/
def execAdcTake (s : State) : Answer := .next (s.respond ((cellRead s.adc).map takenWord))

end Sys2Proof.Machine
end

