-- ==== Sys2Proof/Machine/Lcd.lean ====
section
/-! DEFINITION. The meanings of the LCD operations (42_display_lcd.md): the issue step of each, which
loads the micro-steps that the sequencer then performs (R172, R173). That `LCD_SEQ` is empty when an
operation is issued is the host agent's part (R80, log entry 21). -/

namespace Sys2Proof.Machine

/-- `LCD_INIT` (R183): accepted in every state of the protocol; refused in a handler (R249). -/
def execLcdInit (s : State) : Answer :=
  if s.inHandler then .next (s.refuse .handlerBlocking)
  else .next (s.loadSeq (initSeq s.par.cfg))

/-- `LCD_CMD code` (R185). -/
def execLcdCmd (code : BitVec 8) (s : State) : Answer :=
  .next (s.issueLcd (xfer s.par.cfg.busw false code))

/-- `LCD_DATA byte` (R186). -/
def execLcdData (byte : BitVec 8) (s : State) : Answer :=
  .next (s.issueLcd (xfer s.par.cfg.busw true byte))

/-- `LCD_GOTO row, col` (R189): the range is checked after the guard of R173. -/
def execLcdGoto (row col : BitVec 8) (s : State) : Answer :=
  if s.inHandler then .next (s.refuse .handlerBlocking)
  else if s.lcd.st ≠ .ready then .next (s.refuse .lcdNotReady)
  else match ddramAddr s.par.cfg.lcdCols row col with
    | none => .next (s.refuse .cursorOutOfRange)
    | some addr => .next (s.loadSeq (xfer s.par.cfg.busw false (setCursorByte s.par.cfg addr)))

/-- `LCD_INT val` (R195). -/
def execLcdInt (val : BitVec 28) (s : State) : Answer :=
  .next (s.issueLcd
    (xferData s.par.cfg.busw (decimalText s.par.cfg (signedOperand s.par.cfg val))))

end Sys2Proof.Machine
end

