-- ==== Sys2Proof/Machine/Tmr.lean ====
section
/-! DEFINITION. The meanings of the TMR operations (41_pwm_timer.md). -/

namespace Sys2Proof.Machine

/-- `TMR_CFG_PWM init, top, mode, clk` (R141); `top` is ignored. -/
def execTmrCfgPwm (init _top : BitVec 8) (mode : BitVec 2) (clk : BitVec 3) (s : State) : Answer :=
  match pwmMode mode with
  | none => .next (s.refuse .modeNotPwm)
  | some m => .next
      ({ s with tmr :=
          { s.tmr with
            cnt := init, mode := m, com := true, clk := clk, foc := false, down := false
            ocDir := true } }.emit
        [.dir s.par.cfg.pins.oc true])

/-- `TMR_CFG_PER init, top, mode, clk` (R144): one enable is set and the other left alone; the
compare register is programmed in CTC mode only. -/
def execTmrCfgPer (init top : BitVec 8) (mode : BitVec 2) (clk : BitVec 3) (s : State) : Answer :=
  match periodicMode mode with
  | none => .next (s.refuse .modeNotPeriodic)
  | some m => .next
      { s with tmr :=
        { s.tmr with
          cnt := init, mode := m, clk := clk, down := false
          ovfIe := s.tmr.ovfIe || decide (m = .normal)
          cmpIe := s.tmr.cmpIe || decide (m = .ctc)
          cmp := if m = .ctc then top else s.tmr.cmp } }

/-- `TMR_DUTY duty` (R147). -/
def execTmrDuty (duty : BitVec 8) (s : State) : Answer :=
  if dutyInRange duty then .next { s with tmr := { s.tmr with cmp := threshold duty } }
  else .next (s.refuse .dutyOutOfRange)

/-- `TMR_SETCB h` (R149). -/
def execTmrSetcb (h : HandlerId) (s : State) : Answer :=
  .next { s with tmr := { s.tmr with cb := handlerId s.par.cfg h } }

/-- `TMR_CLEAR` (R150): `TMR_CMP`, `TMR_FOC` and `OC_DIR` stay. -/
def execTmrClear (s : State) : Answer :=
  .next
    { s with tmr :=
      { s.tmr with
        cb := 0, cnt := 0, mode := .normal, clk := 0, com := false, down := false, ovfIe := false
        cmpIe := false, pend := false } }

end Sys2Proof.Machine
end

