-- ==== Sys2Proof/Machine/Dispatch.lean ====
section
/-! DEFINITION. One arm per operation of the opcode table: the issue step of the operation (R80). -/

namespace Sys2Proof.Machine

def exec (i : Instr) (s : State) : Host.Outcome State Fault Refusal :=
  match i with
  | .adcCfg ref clk trig => Sys2Proof.Machine.execAdcCfg ref clk trig s
  | .adcRead chan => Sys2Proof.Machine.execAdcRead chan s
  | .adcTake => Sys2Proof.Machine.execAdcTake s
  | .tmrCfgPwm init top mode clk => Sys2Proof.Machine.execTmrCfgPwm init top mode clk s
  | .tmrCfgPer init top mode clk => Sys2Proof.Machine.execTmrCfgPer init top mode clk s
  | .tmrDuty duty => Sys2Proof.Machine.execTmrDuty duty s
  | .tmrSetcb h => Sys2Proof.Machine.execTmrSetcb h s
  | .tmrClear => Sys2Proof.Machine.execTmrClear s
  | .lcdInit => Sys2Proof.Machine.execLcdInit s
  | .lcdCmd code => Sys2Proof.Machine.execLcdCmd code s
  | .lcdData byte => Sys2Proof.Machine.execLcdData byte s
  | .lcdGoto row col => Sys2Proof.Machine.execLcdGoto row col s
  | .lcdInt val => Sys2Proof.Machine.execLcdInt val s

end Sys2Proof.Machine
end

