-- ==== Sys2Proof/Machine/Issue.lean ====
section
/-! DEFINITION. The issue of a request word: decoding, then the operation (R50, R80, R91). -/

namespace Sys2Proof.Machine

/-- The state's refusal reason for a word that does not decode (R108, R109). -/
def decodeReason (e : DecodeError) : RefuseReason :=
  match e with
  | .reservedOpcode => .reservedOpcode
  | .reservedBits => .reservedBits

/-- The issue of a request word: decode, then the operation (R91, R108, R109). -/
def issueWord (w : Word) (s : State) : Answer :=
  match decode s.par.cfg w with
  | .ok i => exec i s
  | .error e => .next (s.refuse (decodeReason e))

end Sys2Proof.Machine
end

