-- ==== Sys2Proof/Machine/HostAgent.lean ====
section
/-! DEFINITION. The host agent (R50, R80, R215): it issues the entries of `HPROG` one at a time, and
performs the host steps of 43_host_software.md part by part. -/

namespace Sys2Proof.Machine

/-- `temperature(sample)`: the floor of the exact quotient, by the constants of the configuration
(R221). -/
def temperature (c : Config) (sample : BitVec 10) : Nat :=
  sample.toNat * c.vRef.num * c.tSensorMax.num * c.vSensorMax.den
    / (c.vSensorMax.num * 1023 * c.vRef.den * c.tSensorMax.den)

/-- `band(temp)` (R225). -/
def band (temp : Nat) : Direction × BitVec 8 :=
  if temp < 30 then (.stopped, 0#8)
  else if temp < 60 then (.forward, 25#8)
  else if temp < 90 then (.forward, 50#8)
  else if temp < 120 then (.forward, 75#8)
  else (.forward, 100#8)

/-- `MOTOR_LEVELS[dir]` (R218). -/
def motorLevels (c : Config) (d : Direction) : Bool × Bool :=
  match d with
  | .stopped => c.motorLevels.stopped
  | .forward => c.motorLevels.forward
  | .reverse => c.motorLevels.reverse

/-- The parts of `MOTOR_SET dir, duty`: pin A, pin B, the duty write (R218). -/
def motorParts (c : Config) (d : Direction) (duty : BitVec 8) : List HostAct :=
  [.gpioPin c.pins.motorA (motorLevels c d).1, .gpioPin c.pins.motorB (motorLevels c d).2,
    .op (.tmrDuty duty)]

/-- The parts of `SENSOR_READ` under the configured policy (R223). -/
def sensorParts (c : Config) (skip : Bool) : List HostAct :=
  match c.policy with
  | .blocking => [.op (.adcRead (c.sensorChannel.setWidth 8)), .convert skip]
  | .latched => [.op (.adcRead (c.sensorChannel.setWidth 8)), .op .adcTake, .convert skip]

/-- `LCD_STR` of a text: one `LCD_DATA` for each character, in order (R115, R190). -/
def lcdStr (text : List Byte) : List HostAct := text.map fun ch => .op (.lcdData ch)

/-- `LCD_GOTO` of a position. -/
def goto (p : Cursor) : HostAct := .op (.lcdGoto p.row p.col)

/-- The parts of `STATUS temp, dir`: the labels, the number with one blank below 100, the state word
(R228, R229). -/
def statusParts (c : Config) (temp : Nat) (d : Direction) : List HostAct :=
  (c.labels.flatMap fun l => goto l.at_ :: lcdStr l.text)
    ++ [goto c.posTemp, .op (.lcdInt (intOperand c temp))]
    ++ (if temp < 100 then [.op (.lcdData c.glyphBlank)] else [])
    ++ [goto c.posState]
    ++ lcdStr (if d = .stopped then c.textOff else c.textOn)

/-- The parts of one iteration of the control loop (R224). -/
def iterationParts (c : Config) : List HostAct :=
  sensorParts c true ++ [.select, .motorSelected, .statusCurrent]

/-- The host goes on with the parts `rest` of its current entry; with none left the entry is finished
and `HPC` advances (R50, log entry 11). -/
def State.finishPart (s : State) (rest : List HostAct) : State :=
  { s with host :=
    { s.host with queue := rest, hpc := if rest = [] then s.host.hpc + 1 else s.host.hpc } }

/-- What follows the issue of an operation: nothing after a refusal; while the host waits for a
blocking read the part is not finished; otherwise it is (R80, R122, R234). -/
def afterIssue (rest : List HostAct) (a : Answer) : Answer :=
  match a with
  | .next t => if t.refused.isSome || t.host.waiting then .next t else .next (t.finishPart rest)
  | .fault r => .fault r
  | .refused r => .refused r

/-- `temp <- temperature(RESP[9:0])` (R223). -/
def State.takeSample (s : State) : State :=
  { s with host :=
    { s.host with temp := temperature s.par.cfg ((responseWord s.resp).setWidth 10) } }

/-- The end of `SENSOR_READ` (R223). Under the blocking policy bits [9:0] of the response are the sample,
whatever `RESP` holds, and none is the word 0 (the model's, log entry 16). Under the latched policy it is one when its bit 15 is set; without one, `temp` keeps its value, and an
iteration goes no further (D32; log entries 15, 16). -/
def convertPart (skip : Bool) (rest : List HostAct) (s : State) : State :=
  match s.par.cfg.policy with
  | .blocking => s.takeSample.finishPart rest
  | .latched =>
    if (responseWord s.resp).getLsbD 15 then s.takeSample.finishPart rest
    else s.finishPart (if skip then [] else rest)

/-- One part of a host step, `rest` being the parts after it. A host step that has parts is replaced
by them. -/
def hostPart (a : HostAct) (rest : List HostAct) (s : State) : Answer :=
  match a with
  | .op i => afterIssue rest (exec i s)
  | .gpioDir pin o => .next ((s.emit [.dir pin o]).finishPart rest)
  | .gpioPin pin l => .next ((s.emit [.pin pin l]).finishPart rest)
  | .convert skip => .next (convertPart skip rest s)
  | .select =>
    .next
      ({ s with host :=
          { s.host with dir := (band s.host.temp).1, duty := (band s.host.temp).2 } }.finishPart rest)
  | .motorSet d duty => .next (s.finishPart (motorParts s.par.cfg d duty ++ rest))
  | .motorSelected => .next (s.finishPart (motorParts s.par.cfg s.host.dir s.host.duty ++ rest))
  | .sensorRead => .next (s.finishPart (sensorParts s.par.cfg false ++ rest))
  | .status temp d => .next (s.finishPart (statusParts s.par.cfg temp d ++ rest))
  | .statusCurrent => .next (s.finishPart (statusParts s.par.cfg s.host.temp s.host.dir ++ rest))
  | .iteration => .next (s.finishPart (iterationParts s.par.cfg ++ rest))

/-- The host's step when it neither waits nor has an LCD operation in progress: the next part of the
host step in progress, or the next entry of `HPROG`; nothing after the last entry (R50). -/
def hostNext (s : State) : Answer :=
  match s.host.queue with
  | a :: rest => hostPart a rest s
  | [] =>
    match s.par.hprog[s.host.hpc]? with
    | some (.request w) => afterIssue [] (issueWord w s)
    | some (.act a) => hostPart a [] s
    | none => .next s

/-- The host's step: none while `LCD_SEQ` is not empty (R80, R173); while it waits, the finish step
of the blocking read once `ADC_DONE = 1` and no step before (R122). -/
def hostAgent (s : State) : Answer :=
  if s.lcd.seq ≠ [] then .next s
  else if s.host.waiting then
    if s.adc.done then .next ((finishRead s).finishPart s.host.queue.tail) else .next s
  else hostNext s

end Sys2Proof.Machine
end

