-- ==== Sys2Proof/Machine/Interrupt.lean ====
section
/-! DEFINITION. The two handlers: the ADC completion handler (R240) and the TMR dispatch with the
registered callback (R241, R242). Each is one step. -/

namespace Sys2Proof.Machine

/-- `publish(value)`: the body of the completion handler (R128, R240). -/
def publish (s : State) : State :=
  { s with adc := { cellWrite s.adc s.adc.data with done := false } }.emit [.publish s.adc.data]

/-- The completion handler's step; nothing while its request is down (R236, R240). -/
def adcHandlerAgent (s : State) : State :=
  if adcRequest s.adc then (publish s.enterHandler).leaveHandler else s

/-- The body of the handler in the slot: the run's, or a free value where the run names none (R242,
log entry 10). -/
def handlerBody (s : State) : List HandlerAct :=
  match s.par.handlers.lookup s.tmr.cb with
  | some body => body
  | none => Config.freeBody s.tmr.cb s.turnNo

/-- The value of a host expression (R242), from the response and the callbacks' variables; a quotient
or remainder by 0 is a free value (log entry 10). -/
def hostValue (resp : Option (BitVec 16)) (vars : List Int) : HostExpr → Int
  | .lit n => n
  | .resp => (responseWord resp).toNat
  | .var k => vars.getD k 0
  | .add a b => hostValue resp vars a + hostValue resp vars b
  | .sub a b => hostValue resp vars a - hostValue resp vars b
  | .mul a b => hostValue resp vars a * hostValue resp vars b
  | .div a b =>
    if hostValue resp vars b = 0 then Config.freeQuotient (hostValue resp vars a)
    else (hostValue resp vars a).fdiv (hostValue resp vars b)
  | .mod a b =>
    if hostValue resp vars b = 0 then Config.freeRemainder (hostValue resp vars a)
    else (hostValue resp vars a).fmod (hostValue resp vars b)
  | .ifLess a b c d =>
    if hostValue resp vars a < hostValue resp vars b then hostValue resp vars c
    else hostValue resp vars d

/-- The value of a host expression in a state. -/
def State.value (s : State) (e : HostExpr) : Int := hostValue s.resp s.host.vars e

/-- Assign the callbacks' variable number `k` (R242). -/
def State.assign (s : State) (k : Nat) (v : Int) : State :=
  { s with host := { s.host with vars := placeAt 0 s.host.vars k v } }

/-- One act of a callback body (R242). R242 says nothing of a request word computed outside 0 to
2^32 - 1: the model issues its low 32 bits, in two's complement. A computed level is high for every
integer but 0. Both are the model's: DESIGN CHOICE, log entry 10. -/
def handlerAct (a : HandlerAct) (s : State) : Answer :=
  match a with
  | .op i => exec i s
  | .issue word => issueWord (BitVec.ofInt 32 (s.value word)) s
  | .gpioDir pin o => .next (s.emit [.dir pin o])
  | .gpioPin pin l => .next (s.emit [.pin pin l])
  | .gpioPinOf pin level => .next (s.emit [.pin pin (decide (s.value level ≠ 0))])
  | .assign k value => .next (s.assign k (s.value value))

/-- A callback body, act by act; a refusal ends it (R242, log entry 10). -/
def runBody : List HandlerAct → State → Answer
  | [], s => .next s
  | a :: rest, s =>
    match handlerAct a s with
    | .next t => if t.refused.isSome then .next t else runBody rest t
    | .fault r => .fault r
    | .refused r => .refused r

/-- The dispatch with a callback registered: entry, `Call`, body, return (R241). -/
def runCallback (s : State) : Answer :=
  match runBody (handlerBody s) (s.enterHandler.emit [.call s.tmr.cb]) with
  | .next t => .next t.leaveHandler
  | .fault r => .fault r
  | .refused r => .refused r

/-- The dispatch's step; nothing while no interrupt of the TMR unit is pending (R239, R241). -/
def tmrDispatchAgent (s : State) : Answer :=
  if s.tmr.pend then
    if s.tmr.cb = 0#28 then .next { s with tmr := { s.tmr with pend := false } }
    else runCallback { s with tmr := { s.tmr with pend := false } }
  else .next s

end Sys2Proof.Machine
end

