-- ==== Sys2Proof/Machine/Observer.lean ====
section
/-! DEFINITION. The display observer (R207 to R212), outside the block: what the display shows, read
from the whole-byte transfers. -/

namespace Sys2Proof.Machine

/-- The address lies in one of the four visible rows of `cols` columns (R67, R209). -/
def visible (cols : Nat) (a : BitVec 7) : Bool :=
  [0x00, 0x40, 0x10, 0x50].any fun off => decide (off ≤ a.toNat ∧ a.toNat < off + cols)

/-- Clear: every cell blank, the address 0 (R208, R210). -/
def Observer.clear (c : Config) (o : Observer) : Observer :=
  { o with dd := Memory.filled c.glyphBlank, ac := 0 }

/-- A data byte while tracking (R209). -/
def observeData (c : Config) (d : Byte) (o : Observer) : Observer :=
  if visible c.lcdCols o.ac then { o with dd := o.dd.write o.ac d, ac := o.ac + 1#7 }
  else { o with st := .lost }

/-- The commands that the observer knows and that change nothing (R210). -/
def quietCommands (c : Config) : List Byte :=
  [c.cmdCursorOff, c.cmdModeFull, c.cmdModeReduced, c.cmdHs0, c.cmdHs1, c.cmdHs2]

/-- A command byte while tracking, first match wins (R210, R211). -/
def observeCommand (c : Config) (b : Byte) (o : Observer) : Observer :=
  if b = c.cmdClear then o.clear c
  else if b &&& 0x80#8 = c.cmdSetCursor then { o with ac := b.extractLsb' 0 7 }
  else if b ∈ quietCommands c then o
  else { o with st := .lost }

/-- One `Xfer(rs, byte)` event as the observer takes it (R208 to R211). -/
def observe (c : Config) (rs : Bool) (byte : Byte) (o : Observer) : Observer :=
  match o.st with
  | .lost => o
  | .unset => if !rs && byte == c.cmdClear then { o.clear c with st := .tracking } else o
  | .tracking => if rs then observeData c byte o else observeCommand c byte o

/-- The glyph shown at a row and column (R212): none outside the geometry or while the observer does
not track. -/
def shownGlyph (c : Config) (o : Observer) (row col : BitVec 8) : Option Byte :=
  if o.st = .tracking then (ddramAddr c.lcdCols row col).map o.dd.read else none

end Sys2Proof.Machine
end

