-- ==== Sys2Proof/Machine/Sequencer.lean ====
section
/-! DEFINITION. The LCD sequencer agent: one micro-step a step (R172, R174). -/

namespace Sys2Proof.Machine

/-- The events of `SetDirs` (R174). -/
def dirEvents (c : Config) : List Event :=
  .dir c.pins.lcdRs true :: .dir c.pins.lcdE true
    :: (c.pins.lcdB.take c.busw.lines).map fun p => .dir p true

/-- The events of `SetE(0)`: `Tx` with what the display latches when the enable line falls, and the
pin (R103, R174; that the display latches there is general knowledge, log entry 19). -/
def fallEvents (s : State) : List Event :=
  (if s.lcd.e then [.tx s.lcd.rs s.par.cfg.busw.lines s.lcd.b] else [])
    ++ [.pin s.par.cfg.pins.lcdE false]

/-- The effect of one micro-step (R174). The observer takes the `Xfer` event of `Mark` in the same
step (log entry 14). -/
def microStep (m : MicroStep) (s : State) : State :=
  match m with
  | .setDirs => { s with lcd := { s.lcd with dirs := true } }.emit (dirEvents s.par.cfg)
  | .setSt st => { s with lcd := { s.lcd with st := st } }
  | .setRs l => { s with lcd := { s.lcd with rs := l } }.emit [.pin s.par.cfg.pins.lcdRs l]
  | .setE true => { s with lcd := { s.lcd with e := true } }.emit [.pin s.par.cfg.pins.lcdE true]
  | .setE false => { s with lcd := { s.lcd with e := false } }.emit (fallEvents s)
  | .setB v => { s with lcd := { s.lcd with b := v } }.emit [.bus v]
  | .wait _ => s
  | .mark rs byte =>
    { s with obs := observe s.par.cfg rs byte s.obs }.emit [.xfer rs byte]

/-- The sequencer's step: remove the head of `LCD_SEQ` and perform it; nothing while `LCD_SEQ` is
empty (R172). -/
def seqAgent (s : State) : State :=
  match s.lcd.seq with
  | [] => s
  | m :: rest => microStep m (s.loadSeq rest)

end Sys2Proof.Machine
end

