-- ==== Sys2Proof/Machine/Tick.lean ====
section
/-! DEFINITION. The tick agent of the TMR unit (R151 to R156). -/

namespace Sys2Proof.Machine

/-- The timer after one tick (R151 to R156). -/
def tickUnit (t : TmrUnit) : TmrUnit :=
  { t with cnt := tickCount t, down := tickDown t, pend := tickPend t }

/-- The tick agent's step; nothing while the counter is stopped (R152). -/
def tickAgent (s : State) : State :=
  if tickEnabled s.tmr then { s with tmr := tickUnit s.tmr }.emit (tickEvents s.tmr) else s

end Sys2Proof.Machine
end

