-- ==== Sys2Proof/Machine/Step.lean ====
section
/-! DEFINITION. The step of the machine: one turn of one agent (R82). -/

namespace Sys2Proof.Machine

/-- The step of the agent whose turn it is. -/
def agentStep (t : Turn) (s : State) : Answer :=
  match t with
  | .host => hostAgent s
  | .seq => .next (seqAgent s)
  | .tick => .next (tickAgent s)
  | .conv v => .next (convAgent v s)
  | .adcHandler => .next (adcHandlerAgent s)
  | .tmrDispatch => tmrDispatchAgent s

/-- One step. A run that has gone wrong has none (R234, R296). -/
def step (s : State) : Host.Outcome State Fault Refusal :=
  match s.refused with
  | some r => .refused (.gone r)
  | none => agentStep s.nextTurn s.takeTurn

/-- The state with the word `w` of `nbits` bits as the entry of `HPROG` that the host issues next,
and the next turn the host's (log entry 8). The host issues it only when `LCD_SEQ` is empty, no
blocking read is awaited, no host step is in progress and `REFUSED` is not set, so these are set
too. -/
def State.withFetchWord (s : State) (nbits w : Nat) : State :=
  { s with
    par :=
      { s.par with
        hprog := placeAt (.request 0#32) s.par.hprog s.host.hpc
          (.request (BitVec.ofNat 32 (w % 2 ^ nbits))) }
    sched := .host :: s.sched
    lcd := { s.lcd with seq := [] }
    host := { s.host with queue := [], waiting := false }
    refused := none }

end Sys2Proof.Machine
end

