-- ==== Sys2Proof/Safety.lean ====
section
/-! DEFINITION. What counts as a safe run and the end of one, in the terms the statements use. -/

namespace Sys2Proof.Machine

/-- The run is over (R296): `HPC` has passed the last entry, `LCD_SEQ` is empty, no conversion is in
flight, neither interrupt request is up; or `REFUSED` is set. -/
def State.runOver (s : State) : Bool :=
  s.refused.isSome
    || (decide (s.par.hprog.length ≤ s.host.hpc) && decide (s.lcd.seq = []) && !s.adc.busy
        && !adcRequest s.adc && !s.tmr.pend)

/-- The run has not gone wrong (R56). -/
abbrev State.safe (s : State) : Prop := s.refused = none

/-- It is the host's turn and the host is free to issue: the run has not gone wrong, `LCD_SEQ` is
empty, no blocking read is awaited and no host step is in progress (R80, R173). -/
abbrev State.hostFree (s : State) : Prop :=
  s.refused = none ∧ s.nextTurn = .host ∧ s.lcd.seq = [] ∧ s.host.waiting = false ∧ s.host.queue = []

/-- The host's next step issues the request word `w`. -/
abbrev State.issues (s : State) (w : Word) : Prop :=
  s.hostFree ∧ s.par.hprog[s.host.hpc]? = some (.request w)

/-- `n` steps lead from one state to another. -/
def reaches : Nat → State → State → Prop
  | 0, s, t => s = t
  | n + 1, s, t => ∃ u, step s = .next u ∧ reaches n u t

/-- `n` steps of the sequencer, with no other agent between. -/
def seqSteps : Nat → State → State
  | 0, s => s
  | n + 1, s => seqSteps n (seqAgent s)

/-- `n` ticks, with no other agent between. -/
def tickSteps : Nat → State → State
  | 0, s => s
  | n + 1, s => tickSteps n (tickAgent s)

/-- A list of micro-steps respects the enable line, which starts at level `e` (R178): each `SetE`
changes the level, `SetRS` comes while it is low, `SetB` while it is high, and it ends low. -/
def lineOk : Bool → List MicroStep → Bool
  | e, [] => !e
  | e, .setE l :: rest => (e != l) && lineOk l rest
  | e, .setRs _ :: rest => !e && lineOk e rest
  | e, .setB _ :: rest => e && lineOk e rest
  | e, .setDirs :: rest => lineOk e rest
  | e, .setSt _ :: rest => lineOk e rest
  | e, .wait _ :: rest => lineOk e rest
  | e, .mark _ _ :: rest => lineOk e rest

/-- The invariant of the LCD lines (R178 (a) to (c)). -/
abbrev State.linesOk (s : State) : Prop := lineOk s.lcd.e s.lcd.seq = true

/-- The bus lines that do not exist hold 0, now and after every micro-step to come (R42, R174). -/
abbrev State.busFits (s : State) : Prop :=
  s.lcd.b.toNat < 2 ^ s.par.cfg.busw.lines
    ∧ ∀ m ∈ s.lcd.seq, ∀ v, m = .setB v → v.toNat < 2 ^ s.par.cfg.busw.lines

/-- The `Tx` event, or nothing, as (register-select level, width, value). -/
def Event.asTx : Event → Option (Bool × Nat × Byte)
  | .tx rs w v => some (rs, w, v)
  | _ => none

/-- The `Xfer` event, or nothing, as (register-select level, byte). -/
def Event.asXfer : Event → Option (Bool × Byte)
  | .xfer rs b => some (rs, b)
  | _ => none

/-- The `Tx` events of a trace, in order. -/
def txsOf (tr : List Event) : List (Bool × Nat × Byte) := tr.filterMap Event.asTx

/-- The `Xfer` events of a trace, in order. -/
def xfersOf (tr : List Event) : List (Bool × Byte) := tr.filterMap Event.asXfer

/-- The falling edges of the enable line still to come. -/
def fallsLeft (seq : List MicroStep) : Nat := seq.countP fun m => decide (m = .setE false)

/-- The `Mark` steps still to come. -/
def marksLeft (seq : List MicroStep) : Nat :=
  seq.countP fun m => match m with
    | .mark _ _ => true
    | _ => false

/-- The lines are right, and strobes count eight bits to a transfer (R178 (d)): those of the trace
with those still to come. -/
abbrev State.strobesBalance (s : State) : Prop :=
  s.linesOk
    ∧ s.par.cfg.busw.lines * ((txsOf s.trace).length + fallsLeft s.lcd.seq)
      = 8 * ((xfersOf s.trace).length + marksLeft s.lcd.seq)

/-- Under the blocking policy nothing publishes, a conversion is in flight or complete only while the
host waits for it, and no read is refused for being early (R119, R124 to R126). -/
abbrev State.blockingOk (s : State) : Prop :=
  s.par.cfg.policy = .blocking →
    s.adc.ie = false ∧ s.adc.cellValid = false
      ∧ (s.host.waiting = false → s.adc.busy = false ∧ s.adc.done = false)
      ∧ (s.adc.busy = true → s.adc.done = false)
      ∧ s.refused ≠ some .readWhileBusy

/-- The callback slot holds an identifier of `HANDLER_W` bits (R35). -/
abbrev State.slotFits (s : State) : Prop := s.tmr.cb.toNat < 2 ^ s.par.cfg.handlerW

/-- An endless run: each state's step leads to the next state. -/
def endlessRun (r : Nat → State) : Prop := ∀ n, step (r n) = .next (r (n + 1))

/-- Weak fairness of the conversion agent (R85, R131): if from some point on a conversion is in flight
on an enabled converter, the agent eventually takes a turn. -/
def fairConversion (r : Nat → State) : Prop :=
  ∀ n, (∀ m, n ≤ m → conversionEnabled (r m).adc = true) → ∃ m v, n ≤ m ∧ (r m).nextTurn = .conv v

/-- The host has the finish step of its blocking read (R122). -/
abbrev State.canFinish (s : State) : Prop :=
  s.lcd.seq = [] ∧ s.host.waiting = true ∧ s.adc.done = true

/-- Weak fairness of the host in its finish step. R131 assumes none; log entry 20. -/
def fairFinish (r : Nat → State) : Prop :=
  ∀ n, (∀ m, n ≤ m → (r m).canFinish) → ∃ m, n ≤ m ∧ (r m).nextTurn = .host

/-- How many of the first `n` states of a free-running counter show the output high. -/
def highStates (n : Nat) (s : State) : Nat :=
  ((List.range n).filter fun k => pwmOut s.par.cfg (tickSteps k s).tmr).length

end Sys2Proof.Machine
end

