-- ==== Sys2Proof/WellFormed.lean ====
section
/-! DEFINITION. When the operands of an operation are in the range the spec documents (R94 to R101,
R110, R111). The decoder checks none of this (R91); an operation outside it decodes and is then
refused by its own rule. -/

namespace Sys2Proof

/-- The two operands held in 28 bits fit their widths, `HANDLER_W` (R100) and `INT_W` (R99). -/
def Instr.fits (c : Config) : Instr → Bool
  | .adcCfg _ _ _ => true
  | .adcRead _ => true
  | .adcTake => true
  | .tmrCfgPwm _ _ _ _ => true
  | .tmrCfgPer _ _ _ _ => true
  | .tmrDuty _ => true
  | .tmrSetcb h => decide (h.toNat < 2 ^ c.handlerW)
  | .tmrClear => true
  | .lcdInit => true
  | .lcdCmd _ => true
  | .lcdData _ => true
  | .lcdGoto _ _ => true
  | .lcdInt val => decide (val.toNat < 2 ^ c.intW)

/-- The operands of an operation are in range for the configuration `c` (R99, R100, R110). Operands
that no rule restricts take any value of their field. -/
def Instr.wellFormed (c : Config) : Instr → Bool
  | .adcCfg ref _ _ => decide (ref ≠ 2#2)
  | .adcRead _ => true
  | .adcTake => true
  | .tmrCfgPwm _ _ mode _ => decide (mode = 1#2 ∨ mode = 3#2)
  | .tmrCfgPer _ _ mode _ => decide (mode = 0#2 ∨ mode = 2#2)
  | .tmrDuty duty => decide (duty.toNat ≤ 100)
  | .tmrSetcb h => (Instr.tmrSetcb h).fits c
  | .tmrClear => true
  | .lcdInit => true
  | .lcdCmd _ => true
  | .lcdData _ => true
  | .lcdGoto row col => decide (row.toNat ≤ 3 ∧ col.toNat < c.lcdCols)
  | .lcdInt val => (Instr.lcdInt val).fits c

end Sys2Proof
end

