-- ==== Sys2Proof/Certificates/Slice0/Obligations.lean ====
section
/-! DEFINITION. The statements for the provers. Each docstring names the rules of spec/ it
formalises. -/

open Sys2Proof Sys2Proof.Machine

/-! Encoding -/

/-- One word of each operation, written out from R90, decodes to the operation (95_test_vectors.md
2.1), by the default widths; and a callback identifier of 12 bits and an integer of 20 bits, by those
widths. -/
def Obligations.SampleWordsDecode : Prop :=
  ((decode Config.atReset 0x000000F8#32 = .ok (.adcCfg 3 7 0)
      ∧ decode Config.atReset 0x10000009#32 = .ok (.adcRead 9)
      ∧ decode Config.atReset 0x20000000#32 = .ok .adcTake
      ∧ decode Config.atReset 0x4000001A#32 = .ok (.tmrCfgPwm 0 0 3 2)
      ∧ decode Config.atReset 0x50001F33#32 = .ok (.tmrCfgPer 0 249 2 3)
      ∧ decode Config.atReset 0x5000C005#32 = .ok (.tmrCfgPer 6 0 0 5)
      ∧ decode Config.atReset 0x60000032#32 = .ok (.tmrDuty 50))
    ∧ decode Config.atReset 0x70000001#32 = .ok (.tmrSetcb 1)
      ∧ decode Config.atReset 0x80000000#32 = .ok .tmrClear
      ∧ decode Config.atReset 0xA0000000#32 = .ok .lcdInit
      ∧ decode Config.atReset 0xB0000001#32 = .ok (.lcdCmd 1)
      ∧ decode Config.atReset 0xC000004F#32 = .ok (.lcdData 0x4F)
      ∧ decode Config.atReset 0xD0000105#32 = .ok (.lcdGoto 1 5)
      ∧ decode Config.atReset 0xE000FFD6#32 = .ok (.lcdInt 0xFFD6))
    ∧ decode { Config.atReset with handlerW := 12 } 0x70000FFF#32 = .ok (.tmrSetcb 0xFFF)
    ∧ decode { Config.atReset with intW := 20 } 0xE00FFFD6#32 = .ok (.lcdInt 0xFFFD6)

/-- Decoding the word of an operation gives the operation back, with every operand, for every choice of
the widths that the operands fit (R90, R91). -/
def Obligations.DecodeOfEncode : Prop :=
  ∀ (c : Config) (i : Instr), i.fits c = true → decode c (encode i) = .ok i

/-- A word that decodes is the word of the operation it decodes to, and that operation's operands fit
their widths: no two words are one operation (R90, R91, R109). -/
def Obligations.EncodeOfDecode : Prop :=
  ∀ (c : Config) (w : Word) (i : Instr), decode c w = .ok i → encode i = w ∧ i.fits c = true

/-- A word is decoded as an operation of a row of the table exactly when it meets the row's match and
mask (R92), with the table's thirteen rows at the default widths. The matches of the rows are pairwise
different. R92 gives the masks for the default widths only; that for other widths the mask of
`TMR_SETCB` and of `LCD_INT` leaves out the operand's bits is the model's, from the fields of R90 (log
entry 17). -/
def Obligations.MatchMaskSelects : Prop :=
  (∀ (c : Config) (w : Word) (i : Instr), c.widthsOk = true → decode c w = .ok i →
      w &&& (matchMask c i).2 = (matchMask c i).1)
    ∧ (∀ (c : Config) (w : Word) (i : Instr), c.widthsOk = true →
      w &&& (matchMask c i).2 = (matchMask c i).1 →
        ∃ j, decode c w = .ok j ∧ matchMask c j = matchMask c i)
    ∧ (∀ c : Config, ([.adcCfg 0 0 0, .adcRead 0, .adcTake, .tmrCfgPwm 0 0 0 0, .tmrCfgPer 0 0 0 0,
        .tmrDuty 0, .tmrSetcb 0, .tmrClear, .lcdInit, .lcdCmd 0, .lcdData 0, .lcdGoto 0 0,
        .lcdInt 0].map (fun i : Instr => (matchMask c i).1)).Nodup)
    ∧ ∀ (c : Config) (i : Instr), c.handlerW = 8 → c.intW = 16 → matchMask c i = match i with
        | .adcCfg _ _ _ => (0x00000000#32, 0xFFFFFF00#32)
        | .adcRead _ => (0x10000000#32, 0xFFFFFF00#32)
        | .adcTake => (0x20000000#32, 0xFFFFFFFF#32)
        | .tmrCfgPwm _ _ _ _ => (0x40000000#32, 0xFFE00000#32)
        | .tmrCfgPer _ _ _ _ => (0x50000000#32, 0xFFE00000#32)
        | .tmrDuty _ => (0x60000000#32, 0xFFFFFF00#32)
        | .tmrSetcb _ => (0x70000000#32, 0xFFFFFF00#32)
        | .tmrClear => (0x80000000#32, 0xFFFFFFFF#32)
        | .lcdInit => (0xA0000000#32, 0xFFFFFFFF#32)
        | .lcdCmd _ => (0xB0000000#32, 0xFFFFFF00#32)
        | .lcdData _ => (0xC0000000#32, 0xFFFFFF00#32)
        | .lcdGoto _ _ => (0xD0000000#32, 0xFFFF0000#32)
        | .lcdInt _ => (0xE0000000#32, 0xFFFF0000#32)

/-- The issue of a word with a reserved opcode, or of a word with another opcode and a must-be-zero
bit set, sets `REFUSED` and changes nothing else but that the turn is taken (R108, R109; the
must-be-zero bits are those of the formats of R90; the taken turn is the model's, log entry 7). -/
def Obligations.ReservedEncodingsRefused : Prop :=
  ∀ (s : State) (w : Word), s.issues w →
    ((w.extractLsb' 28 4 ∈ [0x3#4, 0x9#4, 0xF#4] →
        step s = .next { s.takeTurn with refused := some .reservedOpcode })
      ∧ ((w.extractLsb' 28 4 ∈ [0x2#4, 0x8#4, 0xA#4] ∧ w.extractLsb' 0 28 ≠ 0
            ∨ w.extractLsb' 28 4 ∈ [0x0#4, 0x1#4, 0x6#4, 0xB#4, 0xC#4] ∧ w.extractLsb' 8 20 ≠ 0
            ∨ w.extractLsb' 28 4 = 0x7#4 ∧ 2 ^ s.par.cfg.handlerW ≤ (w.extractLsb' 0 28).toNat
            ∨ w.extractLsb' 28 4 ∈ [0x4#4, 0x5#4] ∧ w.extractLsb' 21 7 ≠ 0
            ∨ w.extractLsb' 28 4 = 0xD#4 ∧ w.extractLsb' 16 12 ≠ 0
            ∨ w.extractLsb' 28 4 = 0xE#4 ∧ 2 ^ s.par.cfg.intW ≤ (w.extractLsb' 0 28).toNat) →
        step s = .next { s.takeTurn with refused := some .reservedBits }))

/-! The step -/

/-- The host's step at a request word that decodes is `exec` of the operation, after the turn is
taken; `HPC` then advances, unless the operation was refused or is a blocking read that is not
finished (R50, R80, R122, R234). That `HPC` stands still then, and advances with the issue otherwise,
is the model's reading (log entries 9 and 11). -/
def Obligations.StepRunsDecodedRequest : Prop :=
  ∀ (s t : State) (w : Word) (i : Instr), s.issues w → decode s.par.cfg w = .ok i →
    exec i s.takeTurn = .next t →
    step s = .next
      (if t.refused.isSome || t.host.waiting then t
        else { t with host := { t.host with queue := [], hpc := t.host.hpc + 1 } })

/-- A run that has not gone wrong always has a next step, and one that has gone wrong has none, with
the reason. That a state with no enabled agent, such as a host that holds (R122, R279) or a finished run
(R296), has a next step at all is the model's idle turn, log entry 7; how a refusal (R234) shows in
`step` is the model's, log entry 9. No step faults (R233). -/
def Obligations.StepAnswersUnlessRefused : Prop :=
  (∀ s : State, s.refused = none → ∃ t, step s = .next t)
    ∧ ∀ (s : State) (r : RefuseReason), s.refused = some r → step s = .refused (.gone r)

/-- No step changes the configuration, the program or the handler bodies (R10, R50, R60, R242). -/
def Obligations.StepKeepsRunParameters : Prop :=
  ∀ s t : State, step s = .next t → t.par = s.par

/-- `CTX` is `foreground` in every state between steps (R51): a step from such a state keeps it. -/
def Obligations.ContextStaysForeground : Prop :=
  ∀ s t : State, s.ctx = .foreground → step s = .next t → t.ctx = .foreground

/-- `TRACE` is append-only (R55). -/
def Obligations.TraceOnlyGrows : Prop :=
  ∀ s t : State, step s = .next t → ∃ es, t.trace = s.trace ++ es

/-! Invariants of every step -/

/-- The LCD lines: `LCD_E` is 0 whenever `LCD_SEQ` is empty, each `SetE` still to come changes the
level, `SetRS` comes while it is low and `SetB` while it is high (R178 (a) to (c)); the bus holds a
value of `BUSW` bits (R42). R178 is the spec's own inference; the 8-bit bus field is the model's, log
entry 13. -/
def Obligations.LcdLinesInvariant : Prop :=
  ∀ s t : State, s.linesOk ∧ s.busFits → step s = .next t → t.linesOk ∧ t.busFits

/-- The number of `Tx` events times `BUSW` is the number of `Xfer` events times 8, counting those
still to come (R178 (d), the spec's own inference); so it holds of the trace whenever `LCD_SEQ` is
empty. -/
def Obligations.StrobesBalanceInvariant : Prop :=
  (∀ s t : State, s.strobesBalance → step s = .next t → t.strobesBalance)
    ∧ ∀ s : State, s.strobesBalance → s.lcd.seq = [] →
        s.par.cfg.busw.lines * (txsOf s.trace).length = 8 * (xfersOf s.trace).length

/-- The observer's memory keeps its canonical form, and `TMR_CB` stays an identifier of `HANDLER_W`
bits (R35). Both forms are the model's, log entries 5 and 17. -/
def Obligations.DdramStaysCanonical : Prop :=
  (∀ s t : State, Memory.wf s.obs.dd → step s = .next t → Memory.wf t.obs.dd)
    ∧ ∀ s t : State, s.slotFits → step s = .next t → t.slotFits

/-- Under the blocking policy nothing is ever published, a conversion is in flight or complete only
while the host waits for it, and no `ADC_READ` is refused for a conversion in flight (R119, R124,
R125, R126; the spec's own inference in the last two). -/
def Obligations.BlockingPolicyInvariant : Prop :=
  ∀ s t : State, s.blockingOk → step s = .next t → t.blockingOk

/-- The state at reset meets every invariant stated here, whatever the run's parameters, the schedule
and the draws (R59, R265), the display memory being in canonical form. -/
def Obligations.ResetMeetsInvariants : Prop :=
  ∀ (par : RunParams) (sched : List Turn) (d : ResetDraws), Memory.wf d.dd →
    (State.resetWith par sched d).linesOk ∧ (State.resetWith par sched d).busFits
      ∧ (State.resetWith par sched d).strobesBalance
      ∧ Memory.wf (State.resetWith par sched d).obs.dd
      ∧ (State.resetWith par sched d).blockingOk ∧ (State.resetWith par sched d).slotFits
      ∧ (State.resetWith par sched d).ctx = .foreground

/-- `LCD_RS` changes only while `LCD_E = 0`, and `LCD_B` only while `LCD_E = 1` (R178 (c), the spec's
own inference). -/
def Obligations.LineLevelsChangeInPhase : Prop :=
  ∀ s t : State, s.linesOk → step s = .next t →
    (t.lcd.rs ≠ s.lcd.rs → s.lcd.e = false) ∧ (t.lcd.b ≠ s.lcd.b → s.lcd.e = true)

/-- Only the sequencer writes the LCD lines (R81); no agent but the host and the sequencer touches the
LCD unit at all (R172); and the sequencer touches nothing but the LCD unit, the observer and the
trace (R174). R81 is the spec's own inference; turns are the model's, log entry 7. -/
def Obligations.OnlySequencerDrivesLines : Prop :=
  ∀ s t : State, step s = .next t →
    (s.nextTurn ≠ .seq → t.lcd = { s.lcd with seq := t.lcd.seq })
      ∧ (s.nextTurn ≠ .seq → s.nextTurn ≠ .host → t.lcd = s.lcd)
      ∧ (s.nextTurn = .seq →
          t = { s.takeTurn with lcd := t.lcd, obs := t.obs, trace := t.trace })

/-- Turns that the schedule grants to the sequencer, or to the tick, are that many steps of it and
nothing else (R82, R172; the schedule is the model's, log entry 7). -/
def Obligations.GrantedTurnsRunTheAgent : Prop :=
  (∀ (n : Nat) (s : State) (rest : List Turn), s.refused = none →
      s.sched = List.replicate n .seq ++ rest →
      reaches n s { seqSteps n s with sched := rest, turnNo := s.turnNo + n })
    ∧ ∀ (n : Nat) (s : State) (rest : List Turn), s.refused = none →
        s.sched = List.replicate n .tick ++ rest →
        reaches n s { tickSteps n s with sched := rest, turnNo := s.turnNo + n }

/-- A run that is over changes no more but by ticks: in a state that meets R296 and in which the host
has no step in progress, every turn but a tick only takes the turn. That a turn of an agent that is
not enabled does so is the model's choice, log entry 7. -/
def Obligations.FinishedRunOnlyTicks : Prop :=
  ∀ s : State, s.refused = none → s.runOver = true → s.host.queue = [] → s.host.waiting = false →
    s.nextTurn ≠ .tick → step s = .next s.takeTurn

/-! ADC unit -/

/-- `ADC_CFG` (R119): the reserved reference is refused; otherwise the three selectors are copied, the
converter is enabled and its notification follows the policy; nothing else changes. -/
def Obligations.AdcCfgWritesSelectors : Prop :=
  ∀ (ref : BitVec 2) (clk trig : BitVec 3) (s : State), s.refused = none →
    exec (.adcCfg ref clk trig) s = .next
      (if ref = 2#2 then { s with refused := some .reservedReference }
        else
          { s with adc :=
            { s.adc with
              ref := ref, clk := clk, trig := trig, en := true
              ie := decide (s.par.cfg.policy = .latched) } })

/-- `ADC_READ`, the start step (R121, R125), outside the case that R249 refuses: refused while a
conversion is in flight; otherwise the channel is the low three bits of the operand, `ADC_BUSY` is
set and the start is recorded; nothing else changes. The clause that under the blocking policy the
host's field `waiting` is set is the model's form of the hold of R122, log entry 11. -/
def Obligations.AdcReadStartsConversion : Prop :=
  ∀ (chan : BitVec 8) (s : State), s.refused = none →
    (s.ctx = .foreground ∨ s.par.cfg.policy = .latched) →
    exec (.adcRead chan) s = .next
      (if s.adc.busy then { s with refused := some .readWhileBusy }
        else
          { s with
            adc := { s.adc with chan := (chan &&& 0x07#8).setWidth 3, busy := true }
            host :=
              { s.host with
                waiting := if s.par.cfg.policy = .blocking then true else s.host.waiting }
            trace := s.trace ++ [.adcStart ((chan &&& 0x07#8).setWidth 3)] })

/-- While the host waits for its blocking `ADC_READ`, its turn changes nothing as long as
`ADC_DONE = 0`; with `ADC_DONE = 1` it answers the result on `RESP`, clears `ADC_DONE` and goes on
(R122). A held turn that changes nothing is the model's choice, log entries 7 and 11. On the fairness
of the conversion agent (R85, R131), with `ADC_EN = 1`, every blocking read ends; that the host takes
its finish step is a premise of the model's, log entry 20. -/
def Obligations.BlockingReadWaitsAndFinishes : Prop :=
  (∀ s : State, s.refused = none → s.nextTurn = .host → s.lcd.seq = [] → s.host.waiting = true →
    step s = .next
      (if s.adc.done then
          { s.takeTurn with
            adc := { s.adc with done := false }
            resp := some (s.adc.data.setWidth 16)
            host :=
              { s.host with
                waiting := false
                queue := s.host.queue.tail
                hpc := if s.host.queue.tail = [] then s.host.hpc + 1 else s.host.hpc } }
        else s.takeTurn))
    ∧ ∀ (r : Nat → State) (n : Nat), endlessRun r → fairConversion r → fairFinish r →
        (r n).par.cfg.policy = .blocking → (r n).blockingOk → (r n).lcd.seq = [] →
        (r n).host.waiting = true → (r n).adc.en = true →
        (r n).adc.busy = true ∨ (r n).adc.done = true →
        ∃ m, n < m ∧ (r m).host.waiting = false

/-- A blocking read from its issue to its end, when the converter completes in between with sample
`v` (R121, R122, R130): the response is `v`, zero-extended, from channel `chan & 7`, and nothing is
left in flight. The order of the turns is a premise (log entry 7). -/
def Obligations.BlockingReadReturnsSample : Prop :=
  ∀ (s : State) (w : Word) (chan : BitVec 8) (v : BitVec 10) (rest : List Turn), s.issues w →
    decode s.par.cfg w = .ok (.adcRead chan) → s.ctx = .foreground → s.par.cfg.policy = .blocking →
    s.adc.en = true → s.adc.busy = false → s.sched = .host :: .conv v :: .host :: rest →
    reaches 3 s
      { s with
        adc :=
          { s.adc with
            chan := (chan &&& 0x07#8).setWidth 3, busy := false, done := false, data := v }
        resp := some (v.setWidth 16)
        host := { s.host with hpc := s.host.hpc + 1 }
        trace := s.trace
          ++ [.adcStart ((chan &&& 0x07#8).setWidth 3),
            .adcComplete ((chan &&& 0x07#8).setWidth 3) v]
        sched := rest
        turnNo := s.turnNo + 3 }

/-- `ADC_TAKE` (R126, R93): the cell with the valid bit, or none; no other state changes, so it can be
taken again. -/
def Obligations.AdcTakeReadsCell : Prop :=
  ∀ s : State, exec .adcTake s = .next
    { s with resp := if s.adc.cellValid then some (0x8000#16 ||| s.adc.cell.setWidth 16) else none }

/-- The conversion agent (R130): with a conversion in flight on an enabled converter its turn completes
it with the drawn sample; otherwise its turn changes nothing, the model's choice (log entry 7). -/
def Obligations.ConversionCompletes : Prop :=
  ∀ (s : State) (v : BitVec 10), s.refused = none → s.nextTurn = .conv v →
    step s = .next
      (if s.adc.busy = true ∧ s.adc.en = true then
          { s.takeTurn with
            adc := { s.adc with data := v, done := true, busy := false }
            trace := s.trace ++ [.adcComplete s.adc.chan v] }
        else s.takeTurn)

/-- The completion handler (R236, R240): with the request up its turn publishes the result, clears the
condition and returns to the foreground; otherwise its turn changes nothing, the model's choice (log
entry 7). -/
def Obligations.CompletionHandlerPublishes : Prop :=
  ∀ s : State, s.refused = none → s.nextTurn = .adcHandler →
    step s = .next
      (if s.adc.done = true ∧ s.adc.ie = true then
          { s.takeTurn with
            adc := { s.adc with cellValid := true, cell := s.adc.data, done := false }
            ctx := .foreground
            trace := s.trace ++ [.publish s.adc.data] }
        else s.takeTurn)

/-- A latched read, its completion with sample `v` and the handler (R123, R130, R240): the read itself
gives no response and does not wait; afterwards the cell holds `v`, and `ADC_TAKE` gives it. The order
of the turns is a premise (log entry 7). -/
def Obligations.LatchedReadReachesCell : Prop :=
  ∀ (s : State) (w : Word) (chan : BitVec 8) (v : BitVec 10) (rest : List Turn), s.issues w →
    decode s.par.cfg w = .ok (.adcRead chan) → s.ctx = .foreground → s.par.cfg.policy = .latched →
    s.adc.en = true → s.adc.ie = true → s.adc.busy = false →
    s.sched = .host :: .conv v :: .adcHandler :: rest →
    ∃ t, reaches 3 s t
      ∧ t =
        { s with
          adc :=
            { s.adc with
              chan := (chan &&& 0x07#8).setWidth 3, busy := false, done := false, data := v
              cellValid := true, cell := v }
          host := { s.host with hpc := s.host.hpc + 1 }
          trace := s.trace
            ++ [.adcStart ((chan &&& 0x07#8).setWidth 3),
              .adcComplete ((chan &&& 0x07#8).setWidth 3) v, .publish v]
          sched := rest
          turnNo := s.turnNo + 3 }
      ∧ exec .adcTake t = .next { t with resp := some (0x8000#16 ||| v.setWidth 16) }

/-! TMR unit -/

/-- `TMR_CFG_PWM` (R141): a mode that is no PWM mode is refused; otherwise exactly the named fields
are written, the pin is made an output, and `top` is ignored. -/
def Obligations.TmrCfgPwmWrites : Prop :=
  ∀ (init top : BitVec 8) (mode : BitVec 2) (clk : BitVec 3) (s : State), s.refused = none →
    exec (.tmrCfgPwm init top mode clk) s = .next
      (if mode = 0#2 ∨ mode = 2#2 then { s with refused := some .modeNotPwm }
        else
          { s with
            tmr :=
              { s.tmr with
                cnt := init, mode := if mode = 1#2 then .phaseCorrect else .fast, com := true
                clk := clk, foc := false, down := false, ocDir := true }
            trace := s.trace ++ [.dir s.par.cfg.pins.oc true] })

/-- `TMR_CFG_PER` (R144): a mode that is no periodic mode is refused; otherwise counter, mode, clock
and direction are written, the enable of the mode is set and the other left alone, and in CTC mode the
compare register is programmed. -/
def Obligations.TmrCfgPerWrites : Prop :=
  ∀ (init top : BitVec 8) (mode : BitVec 2) (clk : BitVec 3) (s : State), s.refused = none →
    exec (.tmrCfgPer init top mode clk) s = .next
      (if mode = 1#2 ∨ mode = 3#2 then { s with refused := some .modeNotPeriodic }
        else if mode = 0#2 then
          { s with tmr :=
            { s.tmr with cnt := init, mode := .normal, clk := clk, down := false, ovfIe := true } }
        else
          { s with tmr :=
            { s.tmr with
              cnt := init, mode := .ctc, clk := clk, down := false, cmpIe := true, cmp := top } })

/-- `TMR_DUTY` (R147): a duty above 100 is refused; otherwise the compare register is the threshold of
R145, halves rounded up, and nothing else changes. -/
def Obligations.TmrDutyWritesThreshold : Prop :=
  ∀ (duty : BitVec 8) (s : State), s.refused = none →
    exec (.tmrDuty duty) s = .next
      (if 100 < duty.toNat then { s with refused := some .dutyOutOfRange }
        else { s with tmr :=
          { s.tmr with cmp := BitVec.ofNat 8 ((duty.toNat * 255 + 50) / 100) } })

/-- The laws of the threshold (R148): (T0), (T100), (TM) and (TR). -/
def Obligations.ThresholdLaws : Prop :=
  threshold 0#8 = 0#8 ∧ threshold 100#8 = 255#8
    ∧ (∀ d e : BitVec 8, d.toNat ≤ e.toNat → e.toNat ≤ 100 →
        (threshold d).toNat ≤ (threshold e).toNat)
    ∧ ∀ d : BitVec 8, d.toNat ≤ 100 →
        (threshold d).toNat * 100 ≤ d.toNat * 255 + 50
          ∧ d.toNat * 255 ≤ (threshold d).toNat * 100 + 50

/-- `TMR_SETCB` (R149): the slot is the operand, in `HANDLER_W` bits, 0 included; nothing else changes. An
operand that fits is written as it is, and one that does not (no request word has one) by its low
`HANDLER_W` bits, log entry 17. -/
def Obligations.TmrSetcbWritesSlot : Prop :=
  ∀ (h : HandlerId) (s : State),
    exec (.tmrSetcb h) s = .next
        { s with tmr := { s.tmr with cb := BitVec.ofNat 28 (h.toNat % 2 ^ s.par.cfg.handlerW) } }
      ∧ (h.toNat < 2 ^ s.par.cfg.handlerW →
          exec (.tmrSetcb h) s = .next { s with tmr := { s.tmr with cb := h } })

/-- `TMR_CLEAR` (R150): the nine fields are 0; `TMR_CMP`, `TMR_FOC` and `OC_DIR` keep their values, and
nothing else changes. -/
def Obligations.TmrClearSwitchesOff : Prop :=
  ∀ s : State, exec .tmrClear s = .next
    { s with tmr :=
      { cnt := 0, cmp := s.tmr.cmp, mode := .normal, clk := 0, com := false, foc := s.tmr.foc
        ovfIe := false, cmpIe := false, pend := false, down := false, cb := 0
        ocDir := s.tmr.ocDir } }

/-- A configuration issued twice with the same operands leaves what it left once: `ADC_CFG` (R120) and
`TMR_CLEAR` (R150) the same state, `TMR_CFG_PWM` (R142) the same timer and the same output level. The
spec's own inference from the operations' rules. -/
def Obligations.ConfigurationsIdempotent : Prop :=
  (∀ (ref : BitVec 2) (clk trig : BitVec 3) (s t : State), ref ≠ 2#2 →
      exec (.adcCfg ref clk trig) s = .next t → exec (.adcCfg ref clk trig) t = .next t)
    ∧ (∀ s t : State, exec .tmrClear s = .next t → exec .tmrClear t = .next t)
    ∧ ∀ (init top : BitVec 8) (mode : BitVec 2) (clk : BitVec 3) (s t : State),
        mode = 1#2 ∨ mode = 3#2 → exec (.tmrCfgPwm init top mode clk) s = .next t →
        ∃ u, exec (.tmrCfgPwm init top mode clk) t = .next u ∧ u.tmr = t.tmr
          ∧ pwmOut u.par.cfg u.tmr = pwmOut t.par.cfg t.tmr

/-- A tick in normal mode (R153) and in fast PWM (R156), with the events and the pending bit of R151
and the stopped counter of R152, on which a tick's turn changes nothing (log entry 7). -/
def Obligations.TickCountsUp : Prop :=
  ∀ s : State, s.refused = none → s.nextTurn = .tick → s.tmr.mode = .normal ∨ s.tmr.mode = .fast →
    step s = .next
      (if s.tmr.clk = 0 then s.takeTurn
        else
          { s.takeTurn with
            tmr :=
              { s.tmr with
                cnt := BitVec.ofNat 8 ((s.tmr.cnt.toNat + 1) % 256)
                pend := s.tmr.pend || (decide (s.tmr.cnt = 255) && s.tmr.ovfIe)
                  || (decide (s.tmr.cnt = s.tmr.cmp) && s.tmr.cmpIe) }
            trace := s.trace ++ (if s.tmr.cnt = 255 then [.ovf] else [])
              ++ (if s.tmr.cnt = s.tmr.cmp then [.compareMatch] else []) })

/-- A tick in phase-correct mode (R154): the direction turns at the two ends, and the overflow is the
arrival at 0. With the counter stopped the turn changes nothing (log entry 7). -/
def Obligations.TickDualSlope : Prop :=
  ∀ (s : State) (d : Bool) (n : BitVec 8), s.refused = none → s.nextTurn = .tick →
    s.tmr.mode = .phaseCorrect →
    d = (if s.tmr.cnt = 255 then true else if s.tmr.cnt = 0 then false else s.tmr.down) →
    n = (if d then s.tmr.cnt - 1 else s.tmr.cnt + 1) →
    step s = .next
      (if s.tmr.clk = 0 then s.takeTurn
        else
          { s.takeTurn with
            tmr :=
              { s.tmr with
                cnt := n, down := d
                pend := s.tmr.pend || (decide (n = 0) && s.tmr.ovfIe)
                  || (decide (s.tmr.cnt = s.tmr.cmp) && s.tmr.cmpIe) }
            trace := s.trace ++ (if n = 0 then [.ovf] else [])
              ++ (if s.tmr.cnt = s.tmr.cmp then [.compareMatch] else []) })

/-- A tick in CTC mode (R155): back to 0 after the match, or after 255. With the counter stopped the
turn changes nothing (log entry 7). -/
def Obligations.TickCompareReset : Prop :=
  ∀ s : State, s.refused = none → s.nextTurn = .tick → s.tmr.mode = .ctc →
    step s = .next
      (if s.tmr.clk = 0 then s.takeTurn
        else
          { s.takeTurn with
            tmr :=
              { s.tmr with
                cnt := if s.tmr.cnt = s.tmr.cmp ∨ s.tmr.cnt = 255 then 0 else s.tmr.cnt + 1
                pend := s.tmr.pend || (decide (s.tmr.cnt = 255) && s.tmr.ovfIe)
                  || (decide (s.tmr.cnt = s.tmr.cmp) && s.tmr.cmpIe) }
            trace := s.trace ++ (if s.tmr.cnt = 255 then [.ovf] else [])
              ++ (if s.tmr.cnt = s.tmr.cmp then [.compareMatch] else []) })

/-- The output of the comparator (R37). -/
def Obligations.PwmOutputRule : Prop :=
  ∀ (c : Config) (t : TmrUnit),
    pwmOut c t =
      if (t.mode = .phaseCorrect ∨ t.mode = .fast) ∧ t.com = true ∧ t.foc = false ∧ t.ocDir = true
      then decide (t.cnt.toNat < t.cmp.toNat) else c.ocIdle

/-- Fast PWM, running freely (R157, the spec's own inference): from 0, the output is high in `TMR_CMP`
of the 256 states of a period, the period ends at 0, and it has one overflow. -/
def Obligations.FastPwmDutyFraction : Prop :=
  ∀ s : State, s.tmr.mode = .fast → s.tmr.com = true → s.tmr.foc = false → s.tmr.ocDir = true →
    s.tmr.clk ≠ 0 → s.tmr.cnt = 0 →
    highStates 256 s = s.tmr.cmp.toNat
      ∧ (tickSteps 256 s).tmr.cnt = 0
      ∧ (tickSteps 256 s).trace.count .ovf = s.trace.count .ovf + 1

/-- Phase-correct PWM, running freely (R157, the spec's own inference; R154): from 0, the output is high
in `2 * TMR_CMP - 1` of the 510 states of a period (none for `TMR_CMP = 0`), the period ends at 0, and
it has one overflow. -/
def Obligations.PhaseCorrectDutyFraction : Prop :=
  ∀ s : State, s.tmr.mode = .phaseCorrect → s.tmr.com = true → s.tmr.foc = false →
    s.tmr.ocDir = true → s.tmr.clk ≠ 0 → s.tmr.cnt = 0 →
    highStates 510 s = (if s.tmr.cmp = 0 then 0 else 2 * s.tmr.cmp.toNat - 1)
      ∧ (tickSteps 510 s).tmr.cnt = 0
      ∧ (tickSteps 510 s).trace.count .ovf = s.trace.count .ovf + 1

/-- CTC mode, running freely (R155, R143): from 0 the counter climbs to `TMR_CMP` with no event, and
the tick after returns it to 0 with the one match of the `TMR_CMP + 1` ticks. -/
def Obligations.CtcPeriod : Prop :=
  ∀ s : State, s.tmr.mode = .ctc → s.tmr.clk ≠ 0 → s.tmr.cnt = 0 →
    (∀ k, k ≤ s.tmr.cmp.toNat →
        (tickSteps k s).tmr.cnt.toNat = k ∧ (tickSteps k s).trace = s.trace)
      ∧ (tickSteps (s.tmr.cmp.toNat + 1) s).tmr.cnt = 0
      ∧ (tickSteps (s.tmr.cmp.toNat + 1) s).trace
          = s.trace ++ (if s.tmr.cmp = 255 then [.ovf] else []) ++ [.compareMatch]

/-! Interrupts -/

/-- The TMR dispatch (R241): nothing while `TMR_PEND = 0`; with a null callback the bit is cleared and
no more; with a callback the bit is cleared, `CTX` is `interrupt` for the body, `Call` is recorded
first, and the step ends in the foreground. The body is the one the run gives to the identifier that
`TMR_CB` holds at the dispatch (R242; the table of bodies is the model's, log entry 10). -/
def Obligations.TmrDispatchRunsCallback : Prop :=
  ∀ s : State, s.refused = none → s.nextTurn = .tmrDispatch →
    (s.tmr.pend = false → step s = .next s.takeTurn)
      ∧ (s.tmr.pend = true → s.tmr.cb = 0 →
          step s = .next { s.takeTurn with tmr := { s.tmr with pend := false } })
      ∧ ∀ (body : List HandlerAct) (t : State), s.tmr.pend = true → s.tmr.cb ≠ 0 →
          s.par.handlers.lookup s.tmr.cb = some body →
          runBody body
            { s.takeTurn with
              tmr := { s.tmr with pend := false }
              ctx := .interrupt
              trace := s.trace ++ [.call s.tmr.cb] } = .next t →
          step s = .next { t with ctx := .foreground }

/-- A callback body is applied act by act, each operation by its usual rule, in one step, with host
arithmetic between the operations: the word of an operation, the level of a pin and the value of a
variable may be computed, from the response of an earlier `ADC_TAKE` of the body among others (R242).
The language of that arithmetic, the low 32 bits of a computed request word, the high level of every
integer but 0, and that a refusal ends the body, are the model's, log entry 10; so is the word 0 of no
response, log entry 16. -/
def Obligations.CallbackBodyInOrder : Prop :=
  (∀ s : State, runBody [] s = .next s)
    ∧ (∀ (i : Instr) (rest : List HandlerAct) (s t : State), exec i s = .next t →
        runBody (.op i :: rest) s = if t.refused.isSome then .next t else runBody rest t)
    ∧ (∀ (p : Gpio) (l : Bool) (rest : List HandlerAct) (s : State), s.refused = none →
        runBody (.gpioPin p l :: rest) s
          = runBody rest { s with trace := s.trace ++ [.pin p l] })
    ∧ (∀ (p : Gpio) (o : Bool) (rest : List HandlerAct) (s : State), s.refused = none →
        runBody (.gpioDir p o :: rest) s = runBody rest { s with trace := s.trace ++ [.dir p o] })
    ∧ (∀ (e : HostExpr) (i : Instr) (rest : List HandlerAct) (s : State),
        decode s.par.cfg (BitVec.ofInt 32 (s.value e)) = .ok i →
        runBody (.issue e :: rest) s = runBody (.op i :: rest) s)
    ∧ (∀ (e : HostExpr) (d : DecodeError) (rest : List HandlerAct) (s : State), s.refused = none →
        decode s.par.cfg (BitVec.ofInt 32 (s.value e)) = .error d →
        runBody (.issue e :: rest) s = .next { s with refused := some (decodeReason d) })
    ∧ (∀ (p : Gpio) (e : HostExpr) (rest : List HandlerAct) (s : State),
        runBody (.gpioPinOf p e :: rest) s = runBody (.gpioPin p (decide (s.value e ≠ 0)) :: rest) s)
    ∧ (∀ (k : Nat) (e : HostExpr) (rest : List HandlerAct) (s : State), s.refused = none →
        runBody (.assign k e :: rest) s = runBody rest (s.assign k (s.value e))
          ∧ ∀ j, (s.assign k (s.value e)).value (.var j)
              = if j = k then s.value e else s.value (.var j))
    ∧ ∀ s : State,
        s.value .resp = ((match s.resp with | some r => r.toNat | none => 0 : Nat) : Int)

/-- While `CTX = interrupt`, an `ADC_READ` under the blocking policy and every LCD operation sets
`REFUSED` to HandlerBlocking and changes nothing else (R249). That HandlerBlocking is the reason also
where the converter is busy, the unit is not `Ready` or the cursor is out of range, for which R125, R182
and R189 name others, is the model's reading, log entry 18. -/
def Obligations.BlockingRefusedInHandler : Prop :=
  ∀ s : State, s.refused = none → s.ctx = .interrupt →
    (s.par.cfg.policy = .blocking →
        ∀ chan, exec (.adcRead chan) s = .next { s with refused := some .handlerBlocking })
      ∧ exec .lcdInit s = .next { s with refused := some .handlerBlocking }
      ∧ (∀ b, exec (.lcdCmd b) s = .next { s with refused := some .handlerBlocking })
      ∧ (∀ b, exec (.lcdData b) s = .next { s with refused := some .handlerBlocking })
      ∧ (∀ r c, exec (.lcdGoto r c) s = .next { s with refused := some .handlerBlocking })
      ∧ ∀ v, exec (.lcdInt v) s = .next { s with refused := some .handlerBlocking }

/-! LCD unit -/

/-- One transfer, micro-step by micro-step: nine on a full bus (R176), fifteen on a reduced bus, high
nibble first (R177), with the strobe of R175. -/
def Obligations.TransferMicroSteps : Prop :=
  ∀ (rs : Bool) (b : Byte),
    xfer .eight rs b =
        [.setRs rs, .wait .regSelect, .setE true, .wait .pulse, .setB b, .wait .dataSetup,
          .setE false, .wait .hold, .mark rs b]
      ∧ xfer .four rs b =
        [.setRs rs, .wait .regSelect,
          .setE true, .wait .pulse, .setB (b >>> 4), .wait .dataSetup, .setE false, .wait .hold,
          .setE true, .wait .pulse, .setB (b &&& 0x0F#8), .wait .dataSetup, .setE false, .wait .hold,
          .mark rs b]

/-- The events of one transfer in order, the lines after it and the observer's reading of it, on a
full bus (R176) and on a reduced bus (R177), with what each falling edge latches (R103, R174). The
latch at the falling edge is the spec's by general knowledge (log entry 19). The clause about the
observer (R207) in the state after `Mark` is the model's inference: it takes the `Xfer` in the step of
the `Mark`, to which R174 gives no effect on the block's state (log entry 14). -/
def Obligations.TransferEvents : Prop :=
  ∀ (s : State) (rs : Bool) (b : Byte) (rest : List MicroStep), s.lcd.e = false →
    s.lcd.seq = xfer s.par.cfg.busw rs b ++ rest →
    (s.par.cfg.busw = .eight → seqSteps 9 s =
        { s with
          lcd := { s.lcd with rs := rs, b := b, seq := rest }
          obs := observe s.par.cfg rs b s.obs
          trace := s.trace ++
            [.pin s.par.cfg.pins.lcdRs rs, .pin s.par.cfg.pins.lcdE true, .bus b, .tx rs 8 b,
              .pin s.par.cfg.pins.lcdE false, .xfer rs b] })
      ∧ (s.par.cfg.busw = .four → seqSteps 15 s =
        { s with
          lcd := { s.lcd with rs := rs, b := b &&& 0x0F#8, seq := rest }
          obs := observe s.par.cfg rs b s.obs
          trace := s.trace ++
            [.pin s.par.cfg.pins.lcdRs rs, .pin s.par.cfg.pins.lcdE true, .bus (b >>> 4),
              .tx rs 4 (b >>> 4), .pin s.par.cfg.pins.lcdE false, .pin s.par.cfg.pins.lcdE true,
              .bus (b &&& 0x0F#8), .tx rs 4 (b &&& 0x0F#8), .pin s.par.cfg.pins.lcdE false,
              .xfer rs b] })

/-- Several bytes in the sequence are transferred each exactly once and in order, with two strobes a
byte on a reduced bus and one on a full bus (R176, R177; R81 and R197 are the spec's own inference).
The observer has then read the same bytes in the same order (R207 to R211); that it takes each in the
step of its `Mark` is the model's inference (log entry 14). -/
def Obligations.TransfersInOrder : Prop :=
  ∀ (s : State) (rs : Bool) (bs : List Byte) (rest : List MicroStep), s.lcd.e = false →
    s.lcd.seq = bs.flatMap (xfer s.par.cfg.busw rs) ++ rest →
    ∃ u, seqSteps (bs.flatMap (xfer s.par.cfg.busw rs)).length s = u
      ∧ u.lcd.seq = rest ∧ u.lcd.e = false ∧ u.lcd.st = s.lcd.st ∧ u.lcd.dirs = s.lcd.dirs
      ∧ xfersOf u.trace = xfersOf s.trace ++ bs.map (fun b => (rs, b))
      ∧ (txsOf u.trace).length = (txsOf s.trace).length + bs.length * (8 / s.par.cfg.busw.lines)
      ∧ u.obs = bs.foldl (fun o b => observe s.par.cfg rs b o) s.obs

/-- `LCD_INIT` (R183): issued in the foreground it is accepted in every protocol state and loads its
sequence; nothing else changes. The sequence has 33 micro-steps on a full bus and 96 on a reduced
one. -/
def Obligations.LcdInitLoadsSequence : Prop :=
  ∀ s : State, s.ctx = .foreground →
    exec .lcdInit s = .next
      { s with lcd :=
        { s.lcd with
          seq :=
            [.setSt .uninitialized, .setDirs, .setSt .powerSettling, .wait .power,
                .setSt .busWidthNegotiation]
              ++ (match s.par.cfg.busw with
                | .four =>
                  xfer .four false s.par.cfg.cmdHs0 ++ xfer .four false s.par.cfg.cmdHs1
                    ++ xfer .four false s.par.cfg.cmdHs2 ++ xfer .four false s.par.cfg.cmdModeReduced
                | .eight => xfer .eight false s.par.cfg.cmdModeFull)
              ++ xfer s.par.cfg.busw false s.par.cfg.cmdClear
              ++ xfer s.par.cfg.busw false s.par.cfg.cmdCursorOff
              ++ [.setSt .ready] } }
      ∧ (initSeq s.par.cfg).length = (match s.par.cfg.busw with | .four => 96 | .eight => 33)

/-- `LCD_CMD` (R185) and `LCD_DATA` (R186), in the foreground and in `Ready`: one transfer is loaded,
with the register-select level low for the command and high for the data; nothing else changes. -/
def Obligations.LcdCmdAndDataLoadTransfer : Prop :=
  ∀ (s : State) (b : Byte), s.ctx = .foreground → s.lcd.st = .ready →
    exec (.lcdCmd b) s
        = .next { s with lcd := { s.lcd with seq := xfer s.par.cfg.busw false b } }
      ∧ exec (.lcdData b) s
        = .next { s with lcd := { s.lcd with seq := xfer s.par.cfg.busw true b } }

/-- `LCD_GOTO` (R189, R65, R105), in the foreground and in `Ready`: inside the geometry the set-cursor
transfer of the address is loaded; outside it the operation is refused; nothing else changes. -/
def Obligations.LcdGotoSetsAddress : Prop :=
  ∀ (s : State) (row col : BitVec 8), s.refused = none → s.ctx = .foreground → s.lcd.st = .ready →
    (∀ off : Nat, (row.toNat, off) ∈ [(0, 0x00), (1, 0x40), (2, 0x10), (3, 0x50)] →
        col.toNat < s.par.cfg.lcdCols →
        exec (.lcdGoto row col) s = .next
          { s with lcd :=
            { s.lcd with
              seq := xfer s.par.cfg.busw false
                (s.par.cfg.cmdSetCursor ||| (BitVec.ofNat 7 (off + col.toNat)).setWidth 8) } })
      ∧ (3 < row.toNat ∨ s.par.cfg.lcdCols ≤ col.toNat →
        exec (.lcdGoto row col) s = .next { s with refused := some .cursorOutOfRange })

/-- `LCD_INT` (R195, R193, R99), in the foreground and in `Ready`: the operand is the two's complement of
`INT_W` bits; the transfers of the minus sign, if any, and of the digits of the absolute value, most
significant first; nothing else changes. The model's: an operand that does not fit is read by its low
`INT_W` bits (log entry 17), and a digit's code is a sum in 8 bits (log entry 19). -/
def Obligations.LcdIntLoadsText : Prop :=
  ∀ (s : State) (val : BitVec 28) (v : Int), s.ctx = .foreground → s.lcd.st = .ready →
    v = (val.setWidth s.par.cfg.intW).toInt →
    exec (.lcdInt val) s = .next
      { s with lcd :=
        { s.lcd with
          seq :=
            ((if v < 0 then [s.par.cfg.glyphMinus] else [])
                ++ (digits v.natAbs).map
                  (fun d => s.par.cfg.glyphDigit0 + BitVec.ofNat 8 d)).flatMap
              (xfer s.par.cfg.busw true) } }

/-- Before `Ready`, in the foreground, `LCD_CMD`, `LCD_DATA`, `LCD_GOTO` and `LCD_INT` are refused,
whatever their operands (R182). -/
def Obligations.LcdRefusedBeforeReady : Prop :=
  ∀ s : State, s.refused = none → s.ctx = .foreground → s.lcd.st ≠ .ready →
    (∀ b, exec (.lcdCmd b) s = .next { s with refused := some .lcdNotReady })
      ∧ (∀ b, exec (.lcdData b) s = .next { s with refused := some .lcdNotReady })
      ∧ (∀ r c, exec (.lcdGoto r c) s = .next { s with refused := some .lcdNotReady })
      ∧ ∀ v, exec (.lcdInt v) s = .next { s with refused := some .lcdNotReady }

/-- `LCD_INIT` run to its end (R183, R208): the unit is `Ready` with its lines as outputs, the commands
were sent in order, and an observer that is not lost tracks a blank display at address 0. What the
clear does to the display is the spec's by general knowledge (log entry 19); the clause about the
observer is for a legal configuration (R9, R104), and that the observer has read each transfer by the
end of the sequence is the model's inference (log entry 14). -/
def Obligations.LcdInitBringsUpDisplay : Prop :=
  ∀ s : State, s.ctx = .foreground → s.lcd.e = false →
    ∃ t u, exec .lcdInit s = .next t ∧ seqSteps t.lcd.seq.length t = u
      ∧ u.lcd =
        { st := .ready, rs := false, e := false, dirs := true, seq := []
          b := match s.par.cfg.busw with
            | .four => s.par.cfg.cmdCursorOff &&& 0x0F#8
            | .eight => s.par.cfg.cmdCursorOff }
      ∧ xfersOf u.trace = xfersOf s.trace ++
          (match s.par.cfg.busw with
            | .four =>
              [(false, s.par.cfg.cmdHs0), (false, s.par.cfg.cmdHs1), (false, s.par.cfg.cmdHs2),
                (false, s.par.cfg.cmdModeReduced), (false, s.par.cfg.cmdClear),
                (false, s.par.cfg.cmdCursorOff)]
            | .eight =>
              [(false, s.par.cfg.cmdModeFull), (false, s.par.cfg.cmdClear),
                (false, s.par.cfg.cmdCursorOff)])
      ∧ u.adc = s.adc ∧ u.tmr = s.tmr ∧ u.host = s.host ∧ u.refused = s.refused
      ∧ (s.par.cfg.legal = true → s.obs.st ≠ .lost →
          u.obs.st = .tracking ∧ u.obs.ac = 0
            ∧ ∀ a, Memory.read u.obs.dd a = s.par.cfg.glyphBlank)

/-- The round trip of the source (R196): an integer written where it fits in one visible row is read
back from the display as its text, the address counter stands after it, and no other cell changes.
R196 is the spec's own inference; the advance by one is general knowledge (log entry 19). That the
observer has read each transfer by the end of the sequence is the model's inference (log entry 14), and
so are the low `INT_W` bits of the operand (log entry 17). -/
def Obligations.IntegerReadsBack : Prop :=
  ∀ (s : State) (val : BitVec 28) (off : Nat) (tx : List Byte), s.ctx = .foreground →
    s.lcd.st = .ready → s.lcd.e = false → s.obs.st = .tracking → Memory.wf s.obs.dd →
    s.par.cfg.lcdCols ≤ 16 → off ∈ [0x00, 0x40, 0x10, 0x50] → off ≤ s.obs.ac.toNat →
    tx = decimalText s.par.cfg (val.setWidth s.par.cfg.intW).toInt →
    s.obs.ac.toNat + tx.length ≤ off + s.par.cfg.lcdCols →
    ∃ t u, exec (.lcdInt val) s = .next t ∧ seqSteps t.lcd.seq.length t = u
      ∧ u.lcd.seq = [] ∧ u.obs.st = .tracking ∧ u.obs.ac.toNat = s.obs.ac.toNat + tx.length
      ∧ (∀ k g, tx[k]? = some g →
          Memory.read u.obs.dd (BitVec.ofNat 7 (s.obs.ac.toNat + k)) = g)
      ∧ ∀ a : BitVec 7, a.toNat < s.obs.ac.toNat ∨ s.obs.ac.toNat + tx.length ≤ a.toNat →
          Memory.read u.obs.dd a = Memory.read s.obs.dd a

/-- The decimal digits (R192): the recursion of the rule; and what it means: digits below 10 that give
the number back, with no leading zero but for 0 itself. -/
def Obligations.DigitsOfANumber : Prop :=
  ∀ n : Nat,
    digits n = (if n < 10 then [n] else digits (n / 10) ++ [n % 10])
      ∧ (digits n).foldl (fun acc d => acc * 10 + d) 0 = n
      ∧ (∀ d ∈ digits n, d < 10)
      ∧ ((digits n).head? = some 0 → n = 0)

/-- The function from integers to texts is one-to-one (R196), for glyph codes in which the minus sign
is no digit, and the text of every operand of `LCD_INT` has at least 1 and at most `1 + k` codes, `k` the
least number with `2 ^ INT_W ≤ 10 ^ k` (R194, which writes `k` as `ceil(INT_W * log10(2))`); for
`INT_W = 16`, at most 6. Both are the spec's own inference. -/
def Obligations.DecimalTextIsFaithful : Prop :=
  (∀ (c : Config) (v w : Int), (∀ d, d < 10 → c.glyphMinus ≠ c.glyphDigit0 + BitVec.ofNat 8 d) →
      decimalText c v = decimalText c w → v = w)
    ∧ ∀ (c : Config) (val : BitVec 28) (tx : List Byte),
        tx = decimalText c (val.setWidth c.intW).toInt →
        1 ≤ tx.length ∧ (∀ k, 2 ^ c.intW ≤ 10 ^ k → tx.length ≤ 1 + k)
          ∧ (c.intW = 16 → tx.length ≤ 6)

/-- The observer's rules: the start at the clear (R208), data (R209), commands (R210, R211), and
`lost` for good (R208). The clear's effect and the advance are the spec's by general knowledge, and the
sum is taken in 7 bits (log entry 19). The last clauses say what the two memory operations mean. -/
def Obligations.ObserverRules : Prop :=
  ∀ (c : Config) (o : Observer) (b : Byte),
    (o.st = .lost → ∀ rs, observe c rs b o = o)
      ∧ (o.st = .unset → observe c true b o = o
          ∧ observe c false b o =
            if b = c.cmdClear then
              { dd := Memory.filled c.glyphBlank, ac := 0, st := .tracking }
            else o)
      ∧ (o.st = .tracking → observe c true b o =
            if o.ac.toNat < c.lcdCols ∨ 0x40 ≤ o.ac.toNat ∧ o.ac.toNat < 0x40 + c.lcdCols
                ∨ 0x10 ≤ o.ac.toNat ∧ o.ac.toNat < 0x10 + c.lcdCols
                ∨ 0x50 ≤ o.ac.toNat ∧ o.ac.toNat < 0x50 + c.lcdCols then
              { o with dd := Memory.write o.dd o.ac b, ac := BitVec.ofNat 7 ((o.ac.toNat + 1) % 128) }
            else { o with st := .lost })
      ∧ (o.st = .tracking → observe c false b o =
            if b = c.cmdClear then
              { o with dd := Memory.filled c.glyphBlank, ac := 0 }
            else if b &&& 0x80#8 = c.cmdSetCursor then { o with ac := b.extractLsb' 0 7 }
            else if b ∈ [c.cmdCursorOff, c.cmdModeFull, c.cmdModeReduced, c.cmdHs0, c.cmdHs1, c.cmdHs2]
            then o
            else { o with st := .lost })
      ∧ (∀ a, Memory.read (Memory.filled c.glyphBlank) a = c.glyphBlank)
      ∧ (Memory.wf o.dd → Memory.read (Memory.write o.dd o.ac b) o.ac = b
          ∧ ∀ a, a ≠ o.ac → Memory.read (Memory.write o.dd o.ac b) a = Memory.read o.dd a)

/-! The host agent -/

/-- `MOTOR_SET dir, duty` (R218): the two pin writes in the order A, B, then the duty write, for every
direction; after the host's step that takes up the entry, one host step each. That taking up the entry
is a step of its own is the model's choice, log entry 15. -/
def Obligations.MotorSetPinsThenDuty : Prop :=
  ∀ (s : State) (d : Direction) (duty : BitVec 8) (a b : Bool) (rest : List Turn), s.hostFree →
    s.par.hprog[s.host.hpc]? = some (.act (.motorSet d duty)) → duty.toNat ≤ 100 →
    (a, b) = (match d with
      | .stopped => s.par.cfg.motorLevels.stopped
      | .forward => s.par.cfg.motorLevels.forward
      | .reverse => s.par.cfg.motorLevels.reverse) →
    s.sched = List.replicate 4 .host ++ rest →
    reaches 4 s
      { s with
        tmr := { s.tmr with cmp := BitVec.ofNat 8 ((duty.toNat * 255 + 50) / 100) }
        host := { s.host with hpc := s.host.hpc + 1 }
        trace := s.trace
          ++ [.pin s.par.cfg.pins.motorA a, .pin s.par.cfg.pins.motorB b]
        sched := rest
        turnNo := s.turnNo + 4 }

/-- From a sample to the fan (R221, R223, R225; R227, the spec's own inference): with the default
constants, and the sample as the response that the policy gives (a blocking `ADC_READ`'s word, or
`ADC_TAKE`'s with the valid bit), the conversion, the band and `MOTOR_SET` of one iteration take a
sample to the temperature `sample * 256 div 1023` and to the direction, the duty and the compare value
of the table of R227. Under the latched policy, without the valid bit, `temp` keeps its value and the
iteration goes no further (R223). That under the blocking policy the conversion happens whatever `RESP`
holds, with none read as the word 0, is the model's choice, log entry 16; how many steps all this takes
is the model's choice, log entry 15. -/
def Obligations.SampleSetsFanSpeed : Prop :=
  (∀ (s : State) (w : BusWidth) (p : ReadPolicy) (sample : BitVec 10) (q : List HostAct)
    (rest : List Turn), s.refused = none → s.lcd.seq = [] → s.host.waiting = false →
    s.par.cfg = Config.defaults w p →
    s.resp = (match p with
      | .blocking => some (sample.setWidth 16)
      | .latched => some (0x8000#16 ||| sample.setWidth 16)) →
    s.host.queue = [.convert true, .select, .motorSelected] ++ q →
    s.sched = List.replicate 6 .host ++ rest →
    ∃ t, reaches 6 s t
      ∧ t.host.temp = sample.toNat * 256 / 1023
      ∧ t.host.dir = (if sample.toNat < 120 then .stopped else .forward)
      ∧ t.host.duty = (if sample.toNat < 120 then 0 else if sample.toNat < 240 then 25
          else if sample.toNat < 360 then 50 else if sample.toNat < 480 then 75 else 100)
      ∧ t.tmr = { s.tmr with cmp :=
          if sample.toNat < 120 then 0 else if sample.toNat < 240 then 64
          else if sample.toNat < 360 then 128 else if sample.toNat < 480 then 191 else 255 }
      ∧ t.host.queue = q ∧ t.adc = s.adc ∧ t.lcd = s.lcd ∧ t.refused = none)
    ∧ ∀ (s : State) (word : BitVec 16) (skip : Bool) (q : List HostAct), s.refused = none →
        s.nextTurn = .host → s.lcd.seq = [] → s.host.waiting = false →
        s.host.queue = .convert skip :: q →
        word = (match s.resp with | some v => v | none => 0) →
        (s.par.cfg.policy = .blocking ∨ word.getLsbD 15 = true →
          step s = .next
            { s.takeTurn with host :=
              { s.host with
                temp := temperature s.par.cfg (word.setWidth 10)
                queue := q
                hpc := if q = [] then s.host.hpc + 1 else s.host.hpc } })
          ∧ (s.par.cfg.policy = .latched → word.getLsbD 15 = false →
            step s = .next
              { s.takeTurn with host :=
                { s.host with
                  queue := if skip then [] else q
                  hpc := if skip = true ∨ q = [] then s.host.hpc + 1 else s.host.hpc } })

/-! Reset -/

/-- The reset values of R59, with the five unspecified ones as any draw (R265). -/
def Obligations.ResetValues : Prop :=
  ∀ (par : RunParams) (sched : List Turn) (d : ResetDraws) (s : State),
    s = State.resetWith par sched d →
    s.adc =
        { ref := 0, clk := 0, trig := 0, en := false, ie := false, chan := 0, busy := false
          done := false, data := d.data, cellValid := false, cell := d.cell }
      ∧ s.tmr =
        { cnt := 0, cmp := 0, mode := .normal, clk := 0, com := false, foc := d.foc, ovfIe := false
          cmpIe := false, pend := false, down := false, cb := 0, ocDir := false }
      ∧ s.lcd = { st := .uninitialized, rs := false, e := false, b := 0, dirs := false, seq := [] }
      ∧ s.obs = { dd := d.dd, ac := d.ac, st := .unset }
      ∧ s.host.hpc = 0 ∧ s.ctx = .foreground ∧ s.trace = [] ∧ s.refused = none ∧ s.resp = none
end

