-- ==== Sys2Proof/Laws/Memory.lean ====
section
/-! SUPPORT. The laws of the memory operations: reading after writing, and that the canonical form
is kept. -/

namespace Sys2Proof.Machine

/-- An address below every key reads as unlisted. -/
theorem Memory.read_of_lt (m : Memory) (a : BitVec 7) (h : ∀ x ∈ m, a.toNat < x.1) :
    Memory.read m a = Memory.unlisted := by
  induction m with
  | nil => rfl
  | cons x rest ih =>
    obtain ⟨k, u⟩ := x
    have hk : a.toNat < k := h (k, u) List.mem_cons_self
    have hne : ¬k = a.toNat := by omega
    simp only [Memory.read, hne, if_false]
    exact ih fun y hy => h y (List.mem_cons_of_mem _ hy)

/-- What `Memory.entry` reads as at its own address, before a memory of greater addresses. -/
theorem Memory.read_entry_same (m : Memory) (a : BitVec 7) (v : Byte) (h : ∀ x ∈ m, a.toNat < x.1) :
    Memory.read (Memory.entry a.toNat v m) a = v := by
  unfold Memory.entry
  split
  · rename_i hv
    rw [hv]
    exact Memory.read_of_lt m a h
  · simp [Memory.read]

theorem Memory.read_entry_other (m : Memory) (a b : BitVec 7) (v : Byte) (h : b ≠ a) :
    Memory.read (Memory.entry a.toNat v m) b = Memory.read m b := by
  have hn : ¬a.toNat = b.toNat := fun e => h (BitVec.eq_of_toNat_eq e.symm)
  unfold Memory.entry
  split
  · rfl
  · simp [Memory.read, hn]

theorem Memory.read_write_same (m : Memory) (a : BitVec 7) (v : Byte)
    (h : m.Pairwise (fun x y => x.1 < y.1)) : Memory.read (Memory.write m a v) a = v := by
  induction m with
  | nil => exact Memory.read_entry_same [] a v (by simp)
  | cons x rest ih =>
    obtain ⟨k, u⟩ := x
    obtain ⟨hk, hr⟩ := List.pairwise_cons.1 h
    unfold Memory.write
    split
    · rename_i hlt
      refine Memory.read_entry_same _ a v fun y hy => ?_
      rcases List.mem_cons.1 hy with rfl | hy
      · exact hlt
      · exact Nat.lt_trans hlt (hk y hy)
    · split
      · rename_i heq
        exact Memory.read_entry_same _ a v fun y hy => heq ▸ hk y hy
      · have : ¬k = a.toNat := by omega
        simp [Memory.read, this, ih hr]

theorem Memory.read_write_other (m : Memory) (a b : BitVec 7) (v : Byte) (h : b ≠ a) :
    Memory.read (Memory.write m a v) b = Memory.read m b := by
  have hn : ¬a.toNat = b.toNat := fun e => h (BitVec.eq_of_toNat_eq e.symm)
  induction m with
  | nil => exact Memory.read_entry_other [] a b v h
  | cons x rest ih =>
    obtain ⟨k, u⟩ := x
    unfold Memory.write
    split
    · exact Memory.read_entry_other _ a b v h
    · split
      · rename_i hk
        rw [Memory.read_entry_other _ a b v h]
        simp [Memory.read, ← hk, hn]
      · simp [Memory.read, ih]

theorem Memory.mem_entry (m : Memory) (k : Nat) (v : Byte) (x : Host.Cell)
    (hx : x ∈ Memory.entry k v m) : (x = (k, v) ∧ v ≠ Memory.unlisted) ∨ x ∈ m := by
  unfold Memory.entry at hx
  split at hx
  · exact .inr hx
  · rename_i hv
    exact (List.mem_cons.1 hx).imp_left fun e => ⟨e, hv⟩

/-- The entries of a memory after a write are old ones and the one written. -/
theorem Memory.mem_write (m : Memory) (a : BitVec 7) (v : Byte) (x : Host.Cell)
    (hx : x ∈ Memory.write m a v) : (x = (a.toNat, v) ∧ v ≠ Memory.unlisted) ∨ x ∈ m := by
  induction m with
  | nil => exact Memory.mem_entry [] a.toNat v x hx
  | cons y rest ih =>
    obtain ⟨k, u⟩ := y
    unfold Memory.write at hx
    split at hx
    · exact Memory.mem_entry _ a.toNat v x hx
    · split at hx
      · exact (Memory.mem_entry _ a.toNat v x hx).imp_right (List.mem_cons_of_mem _)
      · rcases List.mem_cons.1 hx with h | h
        · exact .inr (h ▸ List.mem_cons_self)
        · exact (ih h).imp_right (List.mem_cons_of_mem _)

theorem Memory.entry_rising (m : Memory) (k : Nat) (v : Byte) (hk : ∀ x ∈ m, k < x.1)
    (h : m.Pairwise (fun x y => x.1 < y.1)) :
    (Memory.entry k v m).Pairwise (fun x y => x.1 < y.1) := by
  unfold Memory.entry
  split
  · exact h
  · exact List.pairwise_cons.2 ⟨hk, h⟩

theorem Memory.write_rising (m : Memory) (a : BitVec 7) (v : Byte)
    (h : m.Pairwise (fun x y => x.1 < y.1)) :
    (Memory.write m a v).Pairwise (fun x y => x.1 < y.1) := by
  induction m with
  | nil => exact Memory.entry_rising [] a.toNat v (by simp) h
  | cons y rest ih =>
    obtain ⟨k, u⟩ := y
    obtain ⟨hk, hr⟩ := List.pairwise_cons.1 h
    unfold Memory.write
    split
    · rename_i hlt
      refine Memory.entry_rising _ a.toNat v (fun x hx => ?_) h
      rcases List.mem_cons.1 hx with rfl | hx
      · exact hlt
      · exact Nat.lt_trans hlt (hk x hx)
    · split
      · rename_i heq
        exact Memory.entry_rising _ a.toNat v (fun x hx => heq ▸ hk x hx) hr
      · refine List.pairwise_cons.2 ⟨fun x hx => ?_, ih hr⟩
        rcases Memory.mem_write rest a v x hx with ⟨rfl, -⟩ | hx
        · change k < a.toNat
          omega
        · exact hk x hx

theorem Memory.write_wf (m : Memory) (a : BitVec 7) (v : Byte) (h : Memory.wf m) :
    Memory.wf (Memory.write m a v) := by
  refine ⟨Memory.write_rising m a v h.1, fun x hx => ?_⟩
  rcases Memory.mem_write m a v x hx with ⟨rfl, hv⟩ | hx
  · exact ⟨a.isLt, hv⟩
  · exact h.2 x hx

theorem Memory.read_eq_of_mem (m : Memory) (h : m.Pairwise (fun x y => x.1 < y.1)) (a : BitVec 7)
    (v : Byte) (hx : (a.toNat, v) ∈ m) : Memory.read m a = v := by
  induction m with
  | nil => simp at hx
  | cons y rest ih =>
    obtain ⟨k, u⟩ := y
    obtain ⟨hk, hr⟩ := List.pairwise_cons.1 h
    rcases List.mem_cons.1 hx with e | hx
    · cases e
      simp [Memory.read]
    · have := hk _ hx
      have hne : ¬k = a.toNat := by
        change k < a.toNat at this
        omega
      simp [Memory.read, hne, ih hr hx]

theorem Memory.empty_wf : Memory.wf [] := ⟨List.Pairwise.nil, fun _ h => by simp at h⟩

theorem Memory.filled_wf (v : Byte) : Memory.wf (Memory.filled v) := by
  unfold Memory.filled
  split
  · exact Memory.empty_wf
  · rename_i hv
    refine ⟨List.pairwise_map.2 (List.pairwise_lt_range.imp fun h => h), fun x hx => ?_⟩
    obtain ⟨a, ha, rfl⟩ := List.mem_map.1 hx
    exact ⟨List.mem_range.1 ha, hv⟩

theorem Memory.read_filled (v : Byte) (a : BitVec 7) : Memory.read (Memory.filled v) a = v := by
  by_cases hv : v = Memory.unlisted
  · simp [Memory.filled, hv, Memory.read]
  · refine Memory.read_eq_of_mem _ (Memory.filled_wf v).1 a v ?_
    simp only [Memory.filled, hv, if_false]
    exact List.mem_map.2 ⟨a.toNat, List.mem_range.2 a.isLt, rfl⟩

/-- The observer keeps its memory in canonical form, whatever byte it takes. -/
theorem observe_dd_wf (c : Config) (rs : Bool) (b : Byte) (o : Observer) (h : Memory.wf o.dd) :
    Memory.wf (observe c rs b o).dd := by
  unfold observe
  split
  · exact h
  · split
    · exact Memory.filled_wf _
    · exact h
  · split
    · unfold observeData
      split
      · exact Memory.write_wf _ _ _ h
      · exact h
    · unfold observeCommand
      split
      · exact Memory.filled_wf _
      · split
        · exact h
        · split <;> exact h

end Sys2Proof.Machine
end

