-- ==== Sys2Proof/Laws/State.lean ====
section
/-! SUPPORT. One lemma per field per update of the state, each true by definition, so that no proof
unfolds a record update. -/

namespace Sys2Proof.Machine

variable (s : State)

@[simp] theorem State.emit_adc (es : List Event) :
    (s.emit es).adc = s.adc := rfl
@[simp] theorem State.emit_tmr (es : List Event) :
    (s.emit es).tmr = s.tmr := rfl
@[simp] theorem State.emit_lcd (es : List Event) :
    (s.emit es).lcd = s.lcd := rfl
@[simp] theorem State.emit_obs (es : List Event) :
    (s.emit es).obs = s.obs := rfl
@[simp] theorem State.emit_host (es : List Event) :
    (s.emit es).host = s.host := rfl
@[simp] theorem State.emit_ctx (es : List Event) :
    (s.emit es).ctx = s.ctx := rfl
@[simp] theorem State.emit_trace (es : List Event) :
    (s.emit es).trace = s.trace ++ es := rfl
@[simp] theorem State.emit_refused (es : List Event) :
    (s.emit es).refused = s.refused := rfl
@[simp] theorem State.emit_resp (es : List Event) :
    (s.emit es).resp = s.resp := rfl
@[simp] theorem State.emit_par (es : List Event) :
    (s.emit es).par = s.par := rfl
@[simp] theorem State.emit_sched (es : List Event) :
    (s.emit es).sched = s.sched := rfl
@[simp] theorem State.emit_turnNo (es : List Event) :
    (s.emit es).turnNo = s.turnNo := rfl

@[simp] theorem State.refuse_adc (r : RefuseReason) :
    (s.refuse r).adc = s.adc := rfl
@[simp] theorem State.refuse_tmr (r : RefuseReason) :
    (s.refuse r).tmr = s.tmr := rfl
@[simp] theorem State.refuse_lcd (r : RefuseReason) :
    (s.refuse r).lcd = s.lcd := rfl
@[simp] theorem State.refuse_obs (r : RefuseReason) :
    (s.refuse r).obs = s.obs := rfl
@[simp] theorem State.refuse_host (r : RefuseReason) :
    (s.refuse r).host = s.host := rfl
@[simp] theorem State.refuse_ctx (r : RefuseReason) :
    (s.refuse r).ctx = s.ctx := rfl
@[simp] theorem State.refuse_trace (r : RefuseReason) :
    (s.refuse r).trace = s.trace := rfl
@[simp] theorem State.refuse_refused (r : RefuseReason) :
    (s.refuse r).refused = some (s.refused.getD r) := rfl
@[simp] theorem State.refuse_resp (r : RefuseReason) :
    (s.refuse r).resp = s.resp := rfl
@[simp] theorem State.refuse_par (r : RefuseReason) :
    (s.refuse r).par = s.par := rfl
@[simp] theorem State.refuse_sched (r : RefuseReason) :
    (s.refuse r).sched = s.sched := rfl
@[simp] theorem State.refuse_turnNo (r : RefuseReason) :
    (s.refuse r).turnNo = s.turnNo := rfl

@[simp] theorem State.respond_adc (v : Option (BitVec 16)) :
    (s.respond v).adc = s.adc := rfl
@[simp] theorem State.respond_tmr (v : Option (BitVec 16)) :
    (s.respond v).tmr = s.tmr := rfl
@[simp] theorem State.respond_lcd (v : Option (BitVec 16)) :
    (s.respond v).lcd = s.lcd := rfl
@[simp] theorem State.respond_obs (v : Option (BitVec 16)) :
    (s.respond v).obs = s.obs := rfl
@[simp] theorem State.respond_host (v : Option (BitVec 16)) :
    (s.respond v).host = s.host := rfl
@[simp] theorem State.respond_ctx (v : Option (BitVec 16)) :
    (s.respond v).ctx = s.ctx := rfl
@[simp] theorem State.respond_trace (v : Option (BitVec 16)) :
    (s.respond v).trace = s.trace := rfl
@[simp] theorem State.respond_refused (v : Option (BitVec 16)) :
    (s.respond v).refused = s.refused := rfl
@[simp] theorem State.respond_resp (v : Option (BitVec 16)) :
    (s.respond v).resp = v := rfl
@[simp] theorem State.respond_par (v : Option (BitVec 16)) :
    (s.respond v).par = s.par := rfl
@[simp] theorem State.respond_sched (v : Option (BitVec 16)) :
    (s.respond v).sched = s.sched := rfl
@[simp] theorem State.respond_turnNo (v : Option (BitVec 16)) :
    (s.respond v).turnNo = s.turnNo := rfl

@[simp] theorem State.enterHandler_adc :
    s.enterHandler.adc = s.adc := rfl
@[simp] theorem State.enterHandler_tmr :
    s.enterHandler.tmr = s.tmr := rfl
@[simp] theorem State.enterHandler_lcd :
    s.enterHandler.lcd = s.lcd := rfl
@[simp] theorem State.enterHandler_obs :
    s.enterHandler.obs = s.obs := rfl
@[simp] theorem State.enterHandler_host :
    s.enterHandler.host = s.host := rfl
@[simp] theorem State.enterHandler_ctx :
    s.enterHandler.ctx = .interrupt := rfl
@[simp] theorem State.enterHandler_trace :
    s.enterHandler.trace = s.trace := rfl
@[simp] theorem State.enterHandler_refused :
    s.enterHandler.refused = s.refused := rfl
@[simp] theorem State.enterHandler_resp :
    s.enterHandler.resp = s.resp := rfl
@[simp] theorem State.enterHandler_par :
    s.enterHandler.par = s.par := rfl
@[simp] theorem State.enterHandler_sched :
    s.enterHandler.sched = s.sched := rfl
@[simp] theorem State.enterHandler_turnNo :
    s.enterHandler.turnNo = s.turnNo := rfl

@[simp] theorem State.leaveHandler_adc :
    s.leaveHandler.adc = s.adc := rfl
@[simp] theorem State.leaveHandler_tmr :
    s.leaveHandler.tmr = s.tmr := rfl
@[simp] theorem State.leaveHandler_lcd :
    s.leaveHandler.lcd = s.lcd := rfl
@[simp] theorem State.leaveHandler_obs :
    s.leaveHandler.obs = s.obs := rfl
@[simp] theorem State.leaveHandler_host :
    s.leaveHandler.host = s.host := rfl
@[simp] theorem State.leaveHandler_ctx :
    s.leaveHandler.ctx = .foreground := rfl
@[simp] theorem State.leaveHandler_trace :
    s.leaveHandler.trace = s.trace := rfl
@[simp] theorem State.leaveHandler_refused :
    s.leaveHandler.refused = s.refused := rfl
@[simp] theorem State.leaveHandler_resp :
    s.leaveHandler.resp = s.resp := rfl
@[simp] theorem State.leaveHandler_par :
    s.leaveHandler.par = s.par := rfl
@[simp] theorem State.leaveHandler_sched :
    s.leaveHandler.sched = s.sched := rfl
@[simp] theorem State.leaveHandler_turnNo :
    s.leaveHandler.turnNo = s.turnNo := rfl

@[simp] theorem State.loadSeq_adc (q : List MicroStep) :
    (s.loadSeq q).adc = s.adc := rfl
@[simp] theorem State.loadSeq_tmr (q : List MicroStep) :
    (s.loadSeq q).tmr = s.tmr := rfl
@[simp] theorem State.loadSeq_lcd (q : List MicroStep) :
    (s.loadSeq q).lcd = { s.lcd with seq := q } := rfl
@[simp] theorem State.loadSeq_obs (q : List MicroStep) :
    (s.loadSeq q).obs = s.obs := rfl
@[simp] theorem State.loadSeq_host (q : List MicroStep) :
    (s.loadSeq q).host = s.host := rfl
@[simp] theorem State.loadSeq_ctx (q : List MicroStep) :
    (s.loadSeq q).ctx = s.ctx := rfl
@[simp] theorem State.loadSeq_trace (q : List MicroStep) :
    (s.loadSeq q).trace = s.trace := rfl
@[simp] theorem State.loadSeq_refused (q : List MicroStep) :
    (s.loadSeq q).refused = s.refused := rfl
@[simp] theorem State.loadSeq_resp (q : List MicroStep) :
    (s.loadSeq q).resp = s.resp := rfl
@[simp] theorem State.loadSeq_par (q : List MicroStep) :
    (s.loadSeq q).par = s.par := rfl
@[simp] theorem State.loadSeq_sched (q : List MicroStep) :
    (s.loadSeq q).sched = s.sched := rfl
@[simp] theorem State.loadSeq_turnNo (q : List MicroStep) :
    (s.loadSeq q).turnNo = s.turnNo := rfl

@[simp] theorem State.takeTurn_adc :
    s.takeTurn.adc = s.adc := rfl
@[simp] theorem State.takeTurn_tmr :
    s.takeTurn.tmr = s.tmr := rfl
@[simp] theorem State.takeTurn_lcd :
    s.takeTurn.lcd = s.lcd := rfl
@[simp] theorem State.takeTurn_obs :
    s.takeTurn.obs = s.obs := rfl
@[simp] theorem State.takeTurn_host :
    s.takeTurn.host = s.host := rfl
@[simp] theorem State.takeTurn_ctx :
    s.takeTurn.ctx = s.ctx := rfl
@[simp] theorem State.takeTurn_trace :
    s.takeTurn.trace = s.trace := rfl
@[simp] theorem State.takeTurn_refused :
    s.takeTurn.refused = s.refused := rfl
@[simp] theorem State.takeTurn_resp :
    s.takeTurn.resp = s.resp := rfl
@[simp] theorem State.takeTurn_par :
    s.takeTurn.par = s.par := rfl
@[simp] theorem State.takeTurn_sched :
    s.takeTurn.sched = s.sched.tail := rfl
@[simp] theorem State.takeTurn_turnNo :
    s.takeTurn.turnNo = s.turnNo + 1 := rfl

@[simp] theorem State.finishPart_adc (q : List HostAct) :
    (s.finishPart q).adc = s.adc := rfl
@[simp] theorem State.finishPart_tmr (q : List HostAct) :
    (s.finishPart q).tmr = s.tmr := rfl
@[simp] theorem State.finishPart_lcd (q : List HostAct) :
    (s.finishPart q).lcd = s.lcd := rfl
@[simp] theorem State.finishPart_obs (q : List HostAct) :
    (s.finishPart q).obs = s.obs := rfl
@[simp] theorem State.finishPart_host (q : List HostAct) :
    (s.finishPart q).host = { s.host with queue := q, hpc := if q = [] then s.host.hpc + 1 else s.host.hpc } := rfl
@[simp] theorem State.finishPart_ctx (q : List HostAct) :
    (s.finishPart q).ctx = s.ctx := rfl
@[simp] theorem State.finishPart_trace (q : List HostAct) :
    (s.finishPart q).trace = s.trace := rfl
@[simp] theorem State.finishPart_refused (q : List HostAct) :
    (s.finishPart q).refused = s.refused := rfl
@[simp] theorem State.finishPart_resp (q : List HostAct) :
    (s.finishPart q).resp = s.resp := rfl
@[simp] theorem State.finishPart_par (q : List HostAct) :
    (s.finishPart q).par = s.par := rfl
@[simp] theorem State.finishPart_sched (q : List HostAct) :
    (s.finishPart q).sched = s.sched := rfl
@[simp] theorem State.finishPart_turnNo (q : List HostAct) :
    (s.finishPart q).turnNo = s.turnNo := rfl

@[simp] theorem State.assign_adc (k : Nat) (v : Int) :
    (s.assign k v).adc = s.adc := rfl
@[simp] theorem State.assign_tmr (k : Nat) (v : Int) :
    (s.assign k v).tmr = s.tmr := rfl
@[simp] theorem State.assign_lcd (k : Nat) (v : Int) :
    (s.assign k v).lcd = s.lcd := rfl
@[simp] theorem State.assign_obs (k : Nat) (v : Int) :
    (s.assign k v).obs = s.obs := rfl
@[simp] theorem State.assign_ctx (k : Nat) (v : Int) :
    (s.assign k v).ctx = s.ctx := rfl
@[simp] theorem State.assign_trace (k : Nat) (v : Int) :
    (s.assign k v).trace = s.trace := rfl
@[simp] theorem State.assign_refused (k : Nat) (v : Int) :
    (s.assign k v).refused = s.refused := rfl
@[simp] theorem State.assign_resp (k : Nat) (v : Int) :
    (s.assign k v).resp = s.resp := rfl
@[simp] theorem State.assign_par (k : Nat) (v : Int) :
    (s.assign k v).par = s.par := rfl
@[simp] theorem State.assign_sched (k : Nat) (v : Int) :
    (s.assign k v).sched = s.sched := rfl
@[simp] theorem State.assign_turnNo (k : Nat) (v : Int) :
    (s.assign k v).turnNo = s.turnNo := rfl

@[simp] theorem State.takeSample_adc :
    s.takeSample.adc = s.adc := rfl
@[simp] theorem State.takeSample_tmr :
    s.takeSample.tmr = s.tmr := rfl
@[simp] theorem State.takeSample_lcd :
    s.takeSample.lcd = s.lcd := rfl
@[simp] theorem State.takeSample_obs :
    s.takeSample.obs = s.obs := rfl
@[simp] theorem State.takeSample_ctx :
    s.takeSample.ctx = s.ctx := rfl
@[simp] theorem State.takeSample_trace :
    s.takeSample.trace = s.trace := rfl
@[simp] theorem State.takeSample_refused :
    s.takeSample.refused = s.refused := rfl
@[simp] theorem State.takeSample_resp :
    s.takeSample.resp = s.resp := rfl
@[simp] theorem State.takeSample_par :
    s.takeSample.par = s.par := rfl
@[simp] theorem State.takeSample_sched :
    s.takeSample.sched = s.sched := rfl
@[simp] theorem State.takeSample_turnNo :
    s.takeSample.turnNo = s.turnNo := rfl

@[simp] theorem State.assign_vars (k : Nat) (v : Int) :
    (s.assign k v).host = { s.host with vars := placeAt 0 s.host.vars k v } := rfl
@[simp] theorem State.takeSample_temp :
    s.takeSample.host.temp = temperature s.par.cfg ((responseWord s.resp).setWidth 10) := rfl

end Sys2Proof.Machine
end

