-- ==== Sys2Proof/Laws/Ops.lean ====
section
/-! SUPPORT. What the shared operations can do, said once for each. -/

namespace Sys2Proof.Machine

theorem reset_dd_wf : Memory.wf State.reset.obs.dd := Memory.empty_wf

theorem inHandler_eq (s : State) : s.inHandler = decide (s.ctx = .interrupt) := rfl

theorem blocking_eq (s : State) : s.blocking = decide (s.par.cfg.policy = .blocking) := rfl

/-- The issue of an LCD operation either refuses, for one of two reasons, or loads the list. -/
theorem issueLcd_cases (s : State) (q : List MicroStep) :
    (s.ctx = .interrupt ∧ s.issueLcd q = s.refuse .handlerBlocking)
      ∨ (s.ctx ≠ .interrupt ∧ s.lcd.st ≠ .ready ∧ s.issueLcd q = s.refuse .lcdNotReady)
      ∨ (s.ctx ≠ .interrupt ∧ s.lcd.st = .ready ∧ s.issueLcd q = s.loadSeq q) := by
  unfold State.issueLcd State.inHandler
  by_cases h : s.ctx = .interrupt
  · simp [h]
  · by_cases h' : s.lcd.st = .ready <;> simp [h, h']

/-- An identifier written to the slot fits `HANDLER_W`. -/
theorem handlerId_fits (c : Config) (h : HandlerId) : (handlerId c h).toNat < 2 ^ c.handlerW := by
  rw [handlerId, BitVec.toNat_ofNat]
  exact Nat.lt_of_le_of_lt (Nat.mod_le _ _) (Nat.mod_lt _ (Nat.two_pow_pos _))

/-- An identifier that fits is written as it is. -/
theorem handlerId_eq (c : Config) (h : HandlerId) (hf : h.toNat < 2 ^ c.handlerW) :
    handlerId c h = h := by
  rw [handlerId, Nat.mod_eq_of_lt hf, BitVec.ofNat_toNat, BitVec.setWidth_eq]

/-- What a list with one element placed reads as, beyond its end as the padding. -/
theorem getD_placeAt {α : Type} (pad x : α) (l : List α) (k j : Nat) :
    (placeAt pad l k x).getD j pad = if j = k then x else l.getD j pad := by
  induction k generalizing l j with
  | zero => cases l <;> cases j <;> simp [placeAt]
  | succ k ih => cases l <;> cases j <;> simp_all [placeAt]

theorem nextTurn_cons (s : State) (t : Turn) (ts : List Turn) (h : s.sched = t :: ts) :
    s.nextTurn = t := by
  simp [State.nextTurn, h]

/-- A step is the turn of one agent, in a run that has not gone wrong. -/
theorem step_eq (s : State) (h : s.refused = none) : step s = agentStep s.nextTurn s.takeTurn := by
  simp [step, h]

theorem busValues_fit (w : BusWidth) (byte v : Byte) (h : v ∈ busValues w byte) :
    v.toNat < 2 ^ w.lines := by
  cases w with
  | eight =>
    exact v.isLt
  | four =>
    simp only [busValues, List.mem_cons, List.not_mem_nil, or_false] at h
    rcases h with rfl | rfl
    · simp only [BitVec.toNat_setWidth, BusWidth.lines]
      exact Nat.lt_of_le_of_lt (Nat.mod_le _ _) (BitVec.isLt _)
    · simp only [BitVec.toNat_setWidth, BusWidth.lines]
      exact Nat.lt_of_le_of_lt (Nat.mod_le _ _) (BitVec.isLt _)

/-- A strobe leaves the enable line as it found it, low. -/
theorem lineOk_strobe (v : Byte) (rest : List MicroStep) :
    lineOk false (strobe v ++ rest) = lineOk false rest := by
  simp [strobe, lineOk]

theorem lineOk_strobes (vs : List Byte) (rest : List MicroStep) :
    lineOk false (vs.flatMap strobe ++ rest) = lineOk false rest := by
  induction vs with
  | nil => rfl
  | cons v vs ih => rw [List.flatMap_cons, List.append_assoc, lineOk_strobe, ih]

/-- A transfer leaves the enable line low. -/
theorem lineOk_xfer (w : BusWidth) (rs : Bool) (b : Byte) (rest : List MicroStep) :
    lineOk false (xfer w rs b ++ rest) = lineOk false rest := by
  have h := lineOk_strobes (busValues w b) (.mark rs b :: rest)
  simp only [xfer, List.append_assoc, List.cons_append, List.nil_append]
  simpa [lineOk] using h

theorem lineOk_xfers (w : BusWidth) (rs : Bool) (bs : List Byte) (rest : List MicroStep) :
    lineOk false (bs.flatMap (xfer w rs) ++ rest) = lineOk false rest := by
  induction bs with
  | nil => rfl
  | cons b bs ih => rw [List.flatMap_cons, List.append_assoc, lineOk_xfer, ih]

theorem lineOk_initSeq (c : Config) : lineOk false (initSeq c) = true := by
  have h := lineOk_xfers c.busw false (modeCommands c ++ [c.cmdClear, c.cmdCursorOff])
    [.setSt .ready]
  simp only [initSeq, List.cons_append, List.nil_append] at h ⊢
  simpa [lineOk] using h

@[simp] theorem txsOf_append (a b : List Event) : txsOf (a ++ b) = txsOf a ++ txsOf b := by
  simp [txsOf]

@[simp] theorem xfersOf_append (a b : List Event) : xfersOf (a ++ b) = xfersOf a ++ xfersOf b := by
  simp [xfersOf]

end Sys2Proof.Machine
end

