-- ==== Sys2Proof/Laws/Exec.lean ====
section
/-! SUPPORT. What the issue of an operation, a callback body and the agents other than the sequencer
leave alone, said once. -/

namespace Sys2Proof.Machine

/-- From `s` to `t` the display side, the LCD lines, the run's parameters and the schedule are as
they were, the trace only grew by events that are no transfers, and in interrupt context `LCD_SEQ` is
as it was too. -/
structure Quiet (s t : State) : Prop where
  par : t.par = s.par
  ctx : t.ctx = s.ctx
  obs : t.obs = s.obs
  sched : t.sched = s.sched
  turnNo : t.turnNo = s.turnNo
  trace : ∃ es, t.trace = s.trace ++ es ∧ txsOf es = [] ∧ xfersOf es = []
  lines : t.lcd = { s.lcd with seq := t.lcd.seq }
  seq : s.ctx = .interrupt → t.lcd.seq = s.lcd.seq

theorem Quiet.refl (s : State) : Quiet s s :=
  ⟨rfl, rfl, rfl, rfl, rfl, ⟨[], (List.append_nil _).symm, rfl, rfl⟩, rfl, fun _ => rfl⟩

theorem Quiet.trans {s t u : State} (h : Quiet s t) (k : Quiet t u) : Quiet s u := by
  obtain ⟨es, he, he1, he2⟩ := h.trace
  obtain ⟨fs, hf, hf1, hf2⟩ := k.trace
  refine ⟨k.par.trans h.par, k.ctx.trans h.ctx, k.obs.trans h.obs, k.sched.trans h.sched,
    k.turnNo.trans h.turnNo, ⟨es ++ fs, ?_, ?_, ?_⟩, ?_, fun hc => ?_⟩
  · rw [hf, he, List.append_assoc]
  · rw [txsOf_append, he1, hf1]; rfl
  · rw [xfersOf_append, he2, hf2]; rfl
  · rw [k.lines, h.lines]
  · exact (k.seq (h.ctx.trans hc)).trans (h.seq hc)

theorem Quiet.refuse (s : State) (r : RefuseReason) : Quiet s (s.refuse r) :=
  ⟨rfl, rfl, rfl, rfl, rfl, ⟨[], (List.append_nil _).symm, rfl, rfl⟩, rfl, fun _ => rfl⟩

theorem Quiet.loadSeq (s : State) (q : List MicroStep) (h : s.ctx ≠ .interrupt) :
    Quiet s (s.loadSeq q) :=
  ⟨rfl, rfl, rfl, rfl, rfl, ⟨[], (List.append_nil _).symm, rfl, rfl⟩, rfl, fun hc => absurd hc h⟩

theorem Quiet.emit_dir (s : State) (p : Gpio) (o : Bool) : Quiet s (s.emit [.dir p o]) :=
  ⟨rfl, rfl, rfl, rfl, rfl, ⟨[.dir p o], rfl, rfl, rfl⟩, rfl, fun _ => rfl⟩

theorem Quiet.emit_pin (s : State) (p : Gpio) (l : Bool) : Quiet s (s.emit [.pin p l]) :=
  ⟨rfl, rfl, rfl, rfl, rfl, ⟨[.pin p l], rfl, rfl, rfl⟩, rfl, fun _ => rfl⟩

theorem Quiet.issueLcd (s : State) (q : List MicroStep) : Quiet s (s.issueLcd q) := by
  rcases issueLcd_cases s q with ⟨-, h⟩ | ⟨-, -, h⟩ | ⟨hc, -, h⟩ <;> rw [h]
  · exact Quiet.refuse _ _
  · exact Quiet.refuse _ _
  · exact Quiet.loadSeq _ _ hc

/-- Every operation answers a next state, quietly. -/
theorem exec_quiet (i : Instr) (s : State) : ∃ t, exec i s = .next t ∧ Quiet s t := by
  cases i with
  | adcCfg ref clk trig =>
    simp only [exec, execAdcCfg]
    split
    · exact ⟨_, rfl, Quiet.refuse _ _⟩
    · exact ⟨_, rfl, ⟨rfl, rfl, rfl, rfl, rfl, ⟨[], (List.append_nil _).symm, rfl, rfl⟩, rfl, fun _ => rfl⟩⟩
  | adcRead chan =>
    simp only [exec, execAdcRead]
    split
    · exact ⟨_, rfl, Quiet.refuse _ _⟩
    · split
      · exact ⟨_, rfl, Quiet.refuse _ _⟩
      · exact ⟨_, rfl,
          ⟨rfl, rfl, rfl, rfl, rfl, ⟨[.adcStart (effectiveChannel chan)], rfl, rfl, rfl⟩, rfl,
            fun _ => rfl⟩⟩
  | adcTake =>
    exact ⟨_, rfl, ⟨rfl, rfl, rfl, rfl, rfl, ⟨[], (List.append_nil _).symm, rfl, rfl⟩, rfl, fun _ => rfl⟩⟩
  | tmrCfgPwm init top mode clk =>
    simp only [exec, execTmrCfgPwm]
    split
    · exact ⟨_, rfl, Quiet.refuse _ _⟩
    · exact ⟨_, rfl,
        ⟨rfl, rfl, rfl, rfl, rfl, ⟨[.dir s.par.cfg.pins.oc true], rfl, rfl, rfl⟩, rfl, fun _ => rfl⟩⟩
  | tmrCfgPer init top mode clk =>
    simp only [exec, execTmrCfgPer]
    split
    · exact ⟨_, rfl, Quiet.refuse _ _⟩
    · exact ⟨_, rfl, ⟨rfl, rfl, rfl, rfl, rfl, ⟨[], (List.append_nil _).symm, rfl, rfl⟩, rfl, fun _ => rfl⟩⟩
  | tmrDuty duty =>
    simp only [exec, execTmrDuty]
    split
    · exact ⟨_, rfl, ⟨rfl, rfl, rfl, rfl, rfl, ⟨[], (List.append_nil _).symm, rfl, rfl⟩, rfl, fun _ => rfl⟩⟩
    · exact ⟨_, rfl, Quiet.refuse _ _⟩
  | tmrSetcb h =>
    exact ⟨_, rfl, ⟨rfl, rfl, rfl, rfl, rfl, ⟨[], (List.append_nil _).symm, rfl, rfl⟩, rfl, fun _ => rfl⟩⟩
  | tmrClear =>
    exact ⟨_, rfl, ⟨rfl, rfl, rfl, rfl, rfl, ⟨[], (List.append_nil _).symm, rfl, rfl⟩, rfl, fun _ => rfl⟩⟩
  | lcdInit =>
    simp only [exec, execLcdInit]
    split
    · exact ⟨_, rfl, Quiet.refuse _ _⟩
    · rename_i h
      exact ⟨_, rfl, Quiet.loadSeq _ _ (by simpa [State.inHandler] using h)⟩
  | lcdCmd code => exact ⟨_, rfl, Quiet.issueLcd _ _⟩
  | lcdData byte => exact ⟨_, rfl, Quiet.issueLcd _ _⟩
  | lcdGoto row col =>
    simp only [exec, execLcdGoto]
    split
    · exact ⟨_, rfl, Quiet.refuse _ _⟩
    · rename_i h
      split
      · exact ⟨_, rfl, Quiet.refuse _ _⟩
      · split
        · exact ⟨_, rfl, Quiet.refuse _ _⟩
        · exact ⟨_, rfl, Quiet.loadSeq _ _ (by simpa [State.inHandler] using h)⟩
  | lcdInt val => exact ⟨_, rfl, Quiet.issueLcd _ _⟩

/-- The issue of a request word answers a next state, quietly. -/
theorem issueWord_quiet (w : Word) (s : State) : ∃ t, issueWord w s = .next t ∧ Quiet s t := by
  unfold issueWord
  split
  · exact exec_quiet _ s
  · exact ⟨_, rfl, Quiet.refuse _ _⟩

theorem Quiet.assign (s : State) (k : Nat) (v : Int) : Quiet s (s.assign k v) :=
  ⟨rfl, rfl, rfl, rfl, rfl, ⟨[], (List.append_nil _).symm, rfl, rfl⟩, rfl, fun _ => rfl⟩

theorem Quiet.takeSample (s : State) : Quiet s s.takeSample :=
  ⟨rfl, rfl, rfl, rfl, rfl, ⟨[], (List.append_nil _).symm, rfl, rfl⟩, rfl, fun _ => rfl⟩

theorem handlerAct_quiet (a : HandlerAct) (s : State) :
    ∃ t, handlerAct a s = .next t ∧ Quiet s t := by
  cases a with
  | op i => exact exec_quiet i s
  | issue w => exact issueWord_quiet _ s
  | gpioDir p o => exact ⟨_, rfl, Quiet.emit_dir s p o⟩
  | gpioPin p l => exact ⟨_, rfl, Quiet.emit_pin s p l⟩
  | gpioPinOf p e => exact ⟨_, rfl, Quiet.emit_pin s p _⟩
  | assign k e => exact ⟨_, rfl, Quiet.assign s k _⟩

/-- Every callback body answers a next state, quietly. -/
theorem runBody_quiet (b : List HandlerAct) (s : State) :
    ∃ t, runBody b s = .next t ∧ Quiet s t := by
  induction b generalizing s with
  | nil => exact ⟨s, rfl, Quiet.refl s⟩
  | cons a rest ih =>
    obtain ⟨t, ht, hq⟩ := handlerAct_quiet a s
    simp only [runBody, ht]
    split
    · exact ⟨t, rfl, hq⟩
    · obtain ⟨u, hu, hk⟩ := ih t
      exact ⟨u, hu, hq.trans hk⟩

theorem Quiet.finishPart (s : State) (q : List HostAct) : Quiet s (s.finishPart q) :=
  ⟨rfl, rfl, rfl, rfl, rfl, ⟨[], (List.append_nil _).symm, rfl, rfl⟩, rfl, fun _ => rfl⟩

/-- The host after an issue: the issued state itself, or that state with the part finished. -/
theorem afterIssue_next (rest : List HostAct) (t : State) :
    afterIssue rest (.next t)
      = .next (if t.refused.isSome || t.host.waiting then t else t.finishPart rest) := by
  simp only [afterIssue]
  split <;> rfl

theorem afterIssue_quiet (rest : List HostAct) (s t : State) (h : Quiet s t) :
    ∃ u, afterIssue rest (.next t) = .next u ∧ Quiet s u := by
  rw [afterIssue_next]
  split
  · exact ⟨t, rfl, h⟩
  · exact ⟨_, rfl, h.trans (Quiet.finishPart t rest)⟩

theorem hostPart_quiet (a : HostAct) (rest : List HostAct) (s : State) :
    ∃ t, hostPart a rest s = .next t ∧ Quiet s t := by
  cases a with
  | op i =>
    obtain ⟨t, ht, hq⟩ := exec_quiet i s
    simp only [hostPart, ht]
    exact afterIssue_quiet rest s t hq
  | gpioDir p o => exact ⟨_, rfl, (Quiet.emit_dir s p o).trans (Quiet.finishPart _ rest)⟩
  | gpioPin p l => exact ⟨_, rfl, (Quiet.emit_pin s p l).trans (Quiet.finishPart _ rest)⟩
  | convert skip =>
    refine ⟨_, rfl, ?_⟩
    unfold convertPart
    split
    · exact (Quiet.takeSample s).trans (Quiet.finishPart _ rest)
    · split
      · exact (Quiet.takeSample s).trans (Quiet.finishPart _ rest)
      · exact Quiet.finishPart _ _
  | select =>
    exact ⟨_, rfl, ⟨rfl, rfl, rfl, rfl, rfl, ⟨[], (List.append_nil _).symm, rfl, rfl⟩, rfl, fun _ => rfl⟩⟩
  | motorSet d duty => exact ⟨_, rfl, Quiet.finishPart _ _⟩
  | motorSelected => exact ⟨_, rfl, Quiet.finishPart _ _⟩
  | sensorRead => exact ⟨_, rfl, Quiet.finishPart _ _⟩
  | status temp d => exact ⟨_, rfl, Quiet.finishPart _ _⟩
  | statusCurrent => exact ⟨_, rfl, Quiet.finishPart _ _⟩
  | iteration => exact ⟨_, rfl, Quiet.finishPart _ _⟩

theorem hostNext_quiet (s : State) : ∃ t, hostNext s = .next t ∧ Quiet s t := by
  unfold hostNext
  split
  · exact hostPart_quiet _ _ s
  · split
    · obtain ⟨t, ht, hq⟩ := issueWord_quiet ‹_› s
      rw [ht]
      exact afterIssue_quiet [] s t hq
    · exact hostPart_quiet _ _ s
    · exact ⟨s, rfl, Quiet.refl s⟩

/-- The host's step answers a next state, quietly. -/
theorem hostAgent_quiet (s : State) : ∃ t, hostAgent s = .next t ∧ Quiet s t := by
  unfold hostAgent
  split
  · exact ⟨s, rfl, Quiet.refl s⟩
  · split
    · split
      · exact ⟨_, rfl,
          ⟨rfl, rfl, rfl, rfl, rfl, ⟨[], (List.append_nil _).symm, rfl, rfl⟩, rfl, fun _ => rfl⟩⟩
      · exact ⟨s, rfl, Quiet.refl s⟩
    · exact hostNext_quiet s

end Sys2Proof.Machine
end

