-- ==== Sys2Proof/Laws/Agents.lean ====
section
/-! SUPPORT. What the agents other than the host can do, said once for each. -/

namespace Sys2Proof.Machine

/-- The dispatch: nothing, the pending bit cleared, or the callback's body run between entry and
return, quietly. -/
theorem tmrDispatch_cases (s : State) :
    (s.tmr.pend = false ∧ tmrDispatchAgent s = .next s)
      ∨ (s.tmr.pend = true ∧ s.tmr.cb = 0#28
          ∧ tmrDispatchAgent s = .next { s with tmr := { s.tmr with pend := false } })
      ∨ (s.tmr.pend = true ∧ s.tmr.cb ≠ 0#28
          ∧ ∃ t, runBody (handlerBody s)
                ({ s with tmr := { s.tmr with pend := false } : State }.enterHandler.emit
                  [.call s.tmr.cb]) = .next t
              ∧ Quiet ({ s with tmr := { s.tmr with pend := false } : State }.enterHandler.emit
                  [.call s.tmr.cb]) t
              ∧ tmrDispatchAgent s = .next t.leaveHandler) := by
  cases hp : s.tmr.pend with
  | false => exact .inl ⟨rfl, by simp [tmrDispatchAgent, hp]⟩
  | true =>
    by_cases hc : s.tmr.cb = 0#28
    · exact .inr (.inl ⟨rfl, hc, by simp [tmrDispatchAgent, hp, hc]⟩)
    · obtain ⟨t, ht, hq⟩ := runBody_quiet (handlerBody s)
        ({ s with tmr := { s.tmr with pend := false } : State }.enterHandler.emit [.call s.tmr.cb])
      have hb : handlerBody { s with tmr := { s.tmr with pend := false } } = handlerBody s := rfl
      refine .inr (.inr ⟨rfl, hc, t, ht, hq, ?_⟩)
      simp only [tmrDispatchAgent, hp, hc, runCallback, hb]
      simp [ht]

/-- The completion handler: nothing, or the cell written from the result, the condition cleared and
the event, in the foreground again. -/
theorem adcHandler_cases (s : State) :
    (adcRequest s.adc = false ∧ adcHandlerAgent s = s)
      ∨ (adcRequest s.adc = true ∧ adcHandlerAgent s =
          { s with
            adc := { s.adc with cellValid := true, cell := s.adc.data, done := false }
            ctx := .foreground
            trace := s.trace ++ [.publish s.adc.data] }) := by
  cases h : adcRequest s.adc with
  | false => exact .inl ⟨rfl, by simp [adcHandlerAgent, h]⟩
  | true => exact .inr ⟨rfl, by simp [adcHandlerAgent, h]; rfl⟩

/-- The converter: nothing, or the completion of R130. -/
theorem convAgent_cases (v : BitVec 10) (s : State) :
    (conversionEnabled s.adc = false ∧ convAgent v s = s)
      ∨ (conversionEnabled s.adc = true ∧ convAgent v s =
          { s with
            adc := { s.adc with data := v, done := true, busy := false }
            trace := s.trace ++ [.adcComplete s.adc.chan v] }) := by
  cases h : conversionEnabled s.adc with
  | false => exact .inl ⟨rfl, by simp [convAgent, h]⟩
  | true => exact .inr ⟨rfl, by simp [convAgent, h]; rfl⟩

/-- The tick: nothing, or the timer after one tick and its events. -/
theorem tickAgent_cases (s : State) :
    (tickEnabled s.tmr = false ∧ tickAgent s = s)
      ∨ (tickEnabled s.tmr = true ∧ tickAgent s =
          { s with tmr := tickUnit s.tmr, trace := s.trace ++ tickEvents s.tmr }) := by
  cases h : tickEnabled s.tmr with
  | false => exact .inl ⟨rfl, by simp [tickAgent, h]⟩
  | true => exact .inr ⟨rfl, by simp [tickAgent, h]; rfl⟩

theorem tickEvents_quiet (t : TmrUnit) :
    txsOf (tickEvents t) = [] ∧ xfersOf (tickEvents t) = [] := by
  unfold tickEvents
  split <;> split <;> exact ⟨rfl, rfl⟩

/-- The sequencer: nothing, or the head of the list removed and performed. -/
theorem seqAgent_cases (s : State) :
    (s.lcd.seq = [] ∧ seqAgent s = s)
      ∨ (∃ m rest, s.lcd.seq = m :: rest ∧ seqAgent s = microStep m (s.loadSeq rest)) := by
  cases h : s.lcd.seq with
  | nil => exact .inl ⟨rfl, by simp [seqAgent, h]⟩
  | cons m rest => exact .inr ⟨m, rest, rfl, by simp [seqAgent, h]⟩

/-- A micro-step touches the LCD unit, the observer and the trace only, and it leaves the list. -/
theorem microStep_frame (m : MicroStep) (s : State) :
    ∃ l o es, microStep m s = { s with lcd := l, obs := o, trace := s.trace ++ es }
      ∧ l.seq = s.lcd.seq := by
  cases m with
  | setDirs => exact ⟨_, s.obs, dirEvents s.par.cfg, rfl, rfl⟩
  | setSt st => exact ⟨{ s.lcd with st := st }, s.obs, [], by simp [microStep], rfl⟩
  | setRs l => exact ⟨_, s.obs, [.pin s.par.cfg.pins.lcdRs l], rfl, rfl⟩
  | setE l =>
    cases l with
    | true => exact ⟨_, s.obs, [.pin s.par.cfg.pins.lcdE true], rfl, rfl⟩
    | false => exact ⟨_, s.obs, fallEvents s, rfl, rfl⟩
  | setB v => exact ⟨_, s.obs, [.bus v], rfl, rfl⟩
  | wait l => exact ⟨s.lcd, s.obs, [], by simp [microStep], rfl⟩
  | mark rs b => exact ⟨s.lcd, observe s.par.cfg rs b s.obs, [.xfer rs b], rfl, rfl⟩

end Sys2Proof.Machine
end

