-- ==== Sys2Proof/Laws/PerInstr.lean ====
section
/-! SUPPORT. The family of per-operation statements: the encoder's word of an operation meets the
match and mask of the operation's row in the opcode table (R92). -/

namespace Sys2Proof.Laws.EncodeMatches

/-- `req & mask = match` for the word of the operation (R92), with every width of the operand that the
word has room for (R90). -/
def Statement (i : Instr) : Prop :=
  ∀ c : Config, c.widthsOk = true → i.fits c = true → encode i &&& (matchMask c i).2 = (matchMask c i).1

/-- The mask of a format leaves nothing of an operand of its width. -/
theorem and_maskAbove (opcode : BitVec 4) (x : BitVec 28) (n : Nat) (hn : n ≤ 28)
    (hx : x.toNat < 2 ^ n) : (opcode ++ x) &&& maskAbove n = opcode ++ 0#28 := by
  ext k hk
  simp only [maskAbove, BitVec.getElem_and, BitVec.getElem_append, BitVec.getElem_not]
  have hm : (BitVec.ofNat 32 (2 ^ n - 1))[k] = decide (k < n) := by
    rw [BitVec.getElem_eq_testBit_toNat, BitVec.toNat_ofNat, Nat.testBit_mod_two_pow,
      Nat.testBit_two_pow_sub_one]
    simp [hk]
  rw [hm]
  by_cases h28 : k < 28
  · simp only [h28, dite_true]
    by_cases hkn : k < n
    · simp [hkn]
    · have : x[k] = false := by
        rw [BitVec.getElem_eq_testBit_toNat]
        exact Nat.testBit_lt_two_pow (Nat.lt_of_lt_of_le hx (Nat.pow_le_pow_right (by omega) (by omega)))
      simp [this]
  · have : ¬k < n := by omega
    simp [h28, this]

theorem adcCfg (ref : BitVec 2) (clk trig : BitVec 3) : Statement (.adcCfg ref clk trig) := by
  intro c _ _
  simp only [encode, matchMask]
  ext k hk
  simp only [BitVec.getElem_and, BitVec.getElem_append]
  interval_cases k <;> simp

theorem adcRead (chan : BitVec 8) : Statement (.adcRead chan) := by
  intro c _ _
  simp only [encode, matchMask]
  ext k hk
  simp only [BitVec.getElem_and, BitVec.getElem_append]
  interval_cases k <;> simp

theorem adcTake : Statement .adcTake := by
  intro c _ _
  simp only [encode, matchMask]
  decide

theorem tmrCfgPwm (init top : BitVec 8) (mode : BitVec 2) (clk : BitVec 3) : Statement (.tmrCfgPwm init top mode clk) := by
  intro c _ _
  simp only [encode, matchMask]
  ext k hk
  simp only [BitVec.getElem_and, BitVec.getElem_append]
  interval_cases k <;> simp

theorem tmrCfgPer (init top : BitVec 8) (mode : BitVec 2) (clk : BitVec 3) : Statement (.tmrCfgPer init top mode clk) := by
  intro c _ _
  simp only [encode, matchMask]
  ext k hk
  simp only [BitVec.getElem_and, BitVec.getElem_append]
  interval_cases k <;> simp

theorem tmrDuty (duty : BitVec 8) : Statement (.tmrDuty duty) := by
  intro c _ _
  simp only [encode, matchMask]
  ext k hk
  simp only [BitVec.getElem_and, BitVec.getElem_append]
  interval_cases k <;> simp

theorem tmrSetcb (h : HandlerId) : Statement (.tmrSetcb h) := by
  intro c hw hf
  simp only [Config.widthsOk, Bool.and_eq_true, decide_eq_true_eq] at hw
  exact and_maskAbove 0x7#4 h c.handlerW hw.2.2 (of_decide_eq_true hf)

theorem tmrClear : Statement .tmrClear := by
  intro c _ _
  simp only [encode, matchMask]
  decide

theorem lcdInit : Statement .lcdInit := by
  intro c _ _
  simp only [encode, matchMask]
  decide

theorem lcdCmd (code : BitVec 8) : Statement (.lcdCmd code) := by
  intro c _ _
  simp only [encode, matchMask]
  ext k hk
  simp only [BitVec.getElem_and, BitVec.getElem_append]
  interval_cases k <;> simp

theorem lcdData (byte : BitVec 8) : Statement (.lcdData byte) := by
  intro c _ _
  simp only [encode, matchMask]
  ext k hk
  simp only [BitVec.getElem_and, BitVec.getElem_append]
  interval_cases k <;> simp

theorem lcdGoto (row col : BitVec 8) : Statement (.lcdGoto row col) := by
  intro c _ _
  simp only [encode, matchMask]
  ext k hk
  simp only [BitVec.getElem_and, BitVec.getElem_append]
  interval_cases k <;> simp

theorem lcdInt (val : BitVec 28) : Statement (.lcdInt val) := by
  intro c hw hf
  simp only [Config.widthsOk, Bool.and_eq_true, decide_eq_true_eq] at hw
  exact and_maskAbove 0xE#4 val c.intW hw.1.2 (of_decide_eq_true hf)

end Sys2Proof.Laws.EncodeMatches
end

