-- ==== Sys2Proof/Tests/Slice0.lean ====
section
/-! SUPPORT. The model's own tests. Expected values come from spec/95_test_vectors.md, by its row
names (A1, T4, K5, L2, ...), or are written out by hand from the rule named. The last part shows, for
each statement with hypotheses, a concrete state and operands that meet them together. -/

namespace Sys2Proof.Tests

open Sys2Proof.Machine

/-! Helpers -/

/-- The state at reset with the defaults for a bus width and a policy. -/
def start (w : BusWidth) (p : ReadPolicy) : State :=
  State.resetWith { cfg := Config.defaults w p, hprog := [], handlers := [] } [] ResetDraws.named

/-- The same with `LCD_ST = Ready`. -/
def ready (w : BusWidth) : State :=
  { start w .blocking with lcd := { (start w .blocking).lcd with st := .ready } }

/-- Decoding by the default widths. -/
def dec (w : Word) : Except DecodeError Instr := decode Config.atReset w

/-- The state whose host issues the word `w` next, with these turns after the host's. -/
def issuing (w : Word) (turns : List Turn) (s : State) : State :=
  { s with par := { s.par with hprog := [.request w] }, sched := .host :: turns }

/-- A timer state with counter, compare register and mode, running and driving its pin. -/
def timer (mode : WaveMode) (cnt cmp : BitVec 8) : TmrUnit :=
  { (start .eight .blocking).tmr with
    mode := mode, cnt := cnt, cmp := cmp, clk := 1, com := true, ocDir := true }

/-- The state at reset with that timer, the next turn being the tick's. -/
def ticking (mode : WaveMode) (cnt cmp : BitVec 8) : State :=
  { start .eight .blocking with tmr := timer mode cnt cmp, sched := [.tick] }

/-- In interrupt context. -/
def inInterrupt (s : State) : State := { s with ctx := .interrupt }

/-- What an answer's next state shows, or nothing where there is none. -/
def shows {α : Type} (f : State → α) : Answer → Option α
  | .next t => some (f t)
  | .fault _ => none
  | .refused _ => none

/-! WellFormed: an ill-formed term for each check, and what stands at the edge (R110, R111) -/

theorem test_wf_reserved_reference :
    (Instr.adcCfg 2 0 0).wellFormed Config.atReset = false
      ∧ (Instr.adcCfg 3 0 0).wellFormed Config.atReset = true := by decide

theorem test_wf_mode_not_pwm :
    (Instr.tmrCfgPwm 0 0 0 1).wellFormed Config.atReset = false
      ∧ (Instr.tmrCfgPwm 0 0 2 1).wellFormed Config.atReset = false := by decide

theorem test_wf_mode_not_periodic :
    (Instr.tmrCfgPer 0 0 1 1).wellFormed Config.atReset = false
      ∧ (Instr.tmrCfgPer 0 0 3 1).wellFormed Config.atReset = false := by decide

theorem test_wf_duty :
    (Instr.tmrDuty 101).wellFormed Config.atReset = false
      ∧ (Instr.tmrDuty 100).wellFormed Config.atReset = true := by decide

theorem test_wf_cursor :
    (Instr.lcdGoto 4 0).wellFormed Config.atReset = false
      ∧ (Instr.lcdGoto 0 16).wellFormed Config.atReset = false
      ∧ (Instr.lcdGoto 3 15).wellFormed Config.atReset = true := by decide

theorem test_wf_handler_width :
    (Instr.tmrSetcb 256).wellFormed Config.atReset = false
      ∧ (Instr.tmrSetcb 255).wellFormed Config.atReset = true
      ∧ (Instr.tmrSetcb 256).wellFormed { Config.atReset with handlerW := 9 } = true := by decide

theorem test_wf_integer_width :
    (Instr.lcdInt 0x10000).wellFormed Config.atReset = false
      ∧ (Instr.lcdInt 0xFFFF).wellFormed Config.atReset = true := by decide

/-! Decoding: every operation from a word written out from its format (R90; vectors 2.1) -/

theorem test_decode_adcCfg : dec 0b0000_00000000000000000000_11_111_000#32 = .ok (.adcCfg 3 7 0) := by
  rfl
theorem test_decode_adcRead : dec 0b0001_00000000000000000000_00001001#32 = .ok (.adcRead 9) := by rfl
theorem test_decode_adcTake : dec 0b0010_0000000000000000000000000000#32 = .ok .adcTake := by rfl
theorem test_decode_tmrCfgPwm :
    dec 0b0100_0000000_00000000_00000000_11_010#32 = .ok (.tmrCfgPwm 0 0 3 2) := by rfl
theorem test_decode_tmrCfgPer :
    dec 0b0101_0000000_00000000_11111001_10_011#32 = .ok (.tmrCfgPer 0 249 2 3)
      ∧ dec 0b0101_0000000_00000110_00000000_00_101#32 = .ok (.tmrCfgPer 6 0 0 5) :=
  ⟨by rfl, by rfl⟩
theorem test_decode_tmrDuty : dec 0b0110_00000000000000000000_00110010#32 = .ok (.tmrDuty 50) := by rfl
theorem test_decode_tmrSetcb : dec 0b0111_00000000000000000000_00000001#32 = .ok (.tmrSetcb 1) := by
  rfl
theorem test_decode_tmrClear : dec 0b1000_0000000000000000000000000000#32 = .ok .tmrClear := by rfl
theorem test_decode_lcdInit : dec 0b1010_0000000000000000000000000000#32 = .ok .lcdInit := by rfl
theorem test_decode_lcdCmd : dec 0b1011_00000000000000000000_00000001#32 = .ok (.lcdCmd 1) := by rfl
theorem test_decode_lcdData : dec 0b1100_00000000000000000000_01001111#32 = .ok (.lcdData 0x4F) := by
  rfl
theorem test_decode_lcdGoto :
    dec 0b1101_000000000000_00000001_00000101#32 = .ok (.lcdGoto 1 5) := by rfl
theorem test_decode_lcdInt :
    dec 0b1110_000000000000_1111111111010110#32 = .ok (.lcdInt 0xFFD6) := by rfl

/-- R90: `h` is `req[HANDLER_W-1:0]` and `val` is `req[INT_W-1:0]` for other widths. -/
theorem test_decode_other_widths :
    decode { Config.atReset with handlerW := 12 } 0x70000FFF#32 = .ok (.tmrSetcb 0xFFF)
      ∧ decode { Config.atReset with handlerW := 12 } 0x70001000#32 = .error .reservedBits
      ∧ decode { Config.atReset with intW := 8 } 0xE00000D6#32 = .ok (.lcdInt 0xD6)
      ∧ decode { Config.atReset with intW := 8 } 0xE0000100#32 = .error .reservedBits
      ∧ decode { Config.atReset with intW := 28 } 0xEFFFFFFF#32 = .ok (.lcdInt 0xFFFFFFF) :=
  ⟨by rfl, by rfl, by rfl, by rfl, by rfl⟩

/-- R99: the operand is two's complement of `INT_W` bits; 0xD6 is -42 in 8 bits and 214 in 16. -/
theorem test_signed_operand :
    signedOperand { Config.atReset with intW := 8 } 0xD6 = -42
      ∧ signedOperand Config.atReset 0xD6 = 214
      ∧ signedOperand { Config.atReset with intW := 28 } 0xFFFFFFF = -1 := by decide

theorem test_encode_vectors :
    encode (.adcCfg 1 3 0) = 0x00000058#32 ∧ encode (.tmrCfgPer 0 4 2 1) = 0x50000091#32
      ∧ encode (.tmrCfgPwm 0 0 1 1) = 0x40000009#32 ∧ encode (.lcdGoto 3 15) = 0xD000030F#32
      ∧ encode (.lcdInt 0x8000) = 0xE0008000#32 := by decide

theorem test_decode_reserved_opcodes :
    dec 0x30000000#32 = .error .reservedOpcode ∧ dec 0x90000000#32 = .error .reservedOpcode
      ∧ dec 0xF0000000#32 = .error .reservedOpcode
      ∧ dec 0x3FFFFFFF#32 = .error .reservedOpcode := ⟨by rfl, by rfl, by rfl, by rfl⟩

theorem test_decode_reserved_bits :
    dec 0x10000100#32 = .error .reservedBits ∧ dec 0x20000001#32 = .error .reservedBits
      ∧ dec 0x40200000#32 = .error .reservedBits ∧ dec 0xD0010000#32 = .error .reservedBits :=
  ⟨by rfl, by rfl, by rfl, by rfl⟩

theorem test_decode_out_of_range_operands :
    dec 0x00000080#32 = .ok (.adcCfg 2 0 0) ∧ dec 0x60000065#32 = .ok (.tmrDuty 101)
      ∧ dec 0xD0000400#32 = .ok (.lcdGoto 4 0) := ⟨by rfl, by rfl, by rfl⟩

theorem test_fetched_word_runs :
    shows (fun t => (t.adc.ref, t.adc.clk, t.adc.en, t.host.hpc))
      (step (State.reset.withFetchWord 32 0x000000F8)) = some (3, 7, true, 1) := by decide

/-! ADC unit (vectors 2.2) -/

theorem test_adcCfg_A1_A2 :
    shows (fun t => (t.adc.ref, t.adc.clk, t.adc.trig, t.adc.en, t.adc.ie))
        (exec (.adcCfg 3 7 0) (start .eight .blocking)) = some (3, 7, 0, true, false)
      ∧ shows (fun t => t.adc.ie) (exec (.adcCfg 3 7 0) (start .eight .latched)) = some true := by
  decide

theorem test_adcRead_A7 :
    [0, 7, 8, 9, 15, 200, 255].map
        (fun c => shows (fun t => t.adc.chan) (exec (.adcRead c) (start .eight .blocking)))
      = [some 0, some 7, some 0, some 1, some 7, some 0, some 7] := by decide

theorem test_adcRead_A13 :
    shows (fun t => (t.refused, t.adc.chan))
      (exec (.adcRead 3)
        { start .eight .latched with adc := { (start .eight .latched).adc with busy := true } })
      = some (some .readWhileBusy, 0) := by decide

/-- The cell with 300 in it, and with a valid 0 (A11, A14). -/
def withCell (v : BitVec 10) : State :=
  { start .eight .latched with adc := { (start .eight .latched).adc with cellValid := true, cell := v } }

theorem test_adcTake_A9_A11_A14_A15 :
    shows (fun t => t.resp) (exec .adcTake (start .eight .latched)) = some none
      ∧ shows (fun t => t.resp) (exec .adcTake (withCell 300)) = some (some 0x812C)
      ∧ shows (fun t => t.resp) (exec .adcTake (withCell 0)) = some (some 0x8000)
      ∧ shows (fun t => t.resp) (exec .adcTake (withCell 1023)) = some (some 0x83FF) := by decide

theorem test_request_A17 :
    adcRequest { (start .eight .blocking).adc with done := true } = false := by decide

/-! TMR unit (vectors 2.3 to 2.5) -/

theorem test_threshold_table :
    [0, 1, 10, 25, 30, 49, 50, 51, 70, 75, 90, 99, 100].map threshold
      = [0, 3, 26, 64, 77, 125, 128, 130, 179, 191, 230, 252, 255] := by decide

theorem test_tmrCfgPwm_T1_T3 :
    shows (fun t => (t.tmr.cmp, t.tmr.mode, t.tmr.com, t.tmr.foc, t.tmr.ocDir))
        (exec (.tmrCfgPwm 0 200 3 2)
          { start .eight .blocking with tmr := { (start .eight .blocking).tmr with foc := true } })
      = some (0, .fast, true, false, true) := by decide

theorem test_tmrCfgPer_T6_T7 :
    shows (fun t => (t.tmr.cmp, t.tmr.mode, t.tmr.clk, t.tmr.cmpIe, t.tmr.ovfIe))
        (exec (.tmrCfgPer 0 249 2 3) (start .eight .blocking)) = some (249, .ctc, 3, true, false)
      ∧ shows (fun t => (t.tmr.cnt, t.tmr.cmp, t.tmr.mode, t.tmr.clk, t.tmr.ovfIe))
        (exec (.tmrCfgPer 6 77 0 5) (start .eight .blocking)) = some (6, 0, .normal, 5, true) := by
  decide

theorem test_tmrCfgPer_T8 :
    shows (fun t => (t.tmr.cmpIe, t.tmr.ovfIe))
      (exec (.tmrCfgPer 0 0 0 3)
        { start .eight .blocking with tmr := { (start .eight .blocking).tmr with cmpIe := true } })
      = some (true, true) := by decide

theorem test_tmrDuty_T4_T5 :
    shows (fun t => (t.tmr.cmp, pwmOut t.par.cfg t.tmr)) (exec (.tmrDuty 50) (ticking .fast 0 0))
        = some (128, true)
      ∧ shows (fun t => (t.tmr.cmp, pwmOut t.par.cfg t.tmr))
        (exec (.tmrDuty 50) (start .eight .blocking)) = some (128, false) := by decide

theorem test_tmrDuty_transient :
    shows (fun t => pwmOut t.par.cfg t.tmr) (exec (.tmrDuty 25) (ticking .fast 100 128)) = some false
      ∧ shows (fun t => pwmOut t.par.cfg t.tmr) (exec (.tmrDuty 50) (ticking .fast 100 64))
        = some true := by decide

theorem test_tmrSetcb_T9_T10 :
    shows (fun t => t.tmr.cb) (exec (.tmrSetcb 2) (ticking .ctc 3 4)) = some 2
      ∧ shows (fun t => (t.tmr.cb, t.refused)) (exec (.tmrSetcb 0) (ticking .ctc 3 4))
        = some (0, none) := by decide

theorem test_tmrClear_T11 :
    shows (fun t => (t.tmr.cnt, t.tmr.mode, t.tmr.clk, t.tmr.cmp, t.tmr.ocDir))
      (exec .tmrClear (ticking .ctc 100 249)) = some (0, .normal, 0, 249, true) := by decide

theorem test_tick_K1 :
    (tickUnit (timer .normal 255 0)).cnt = 0 ∧ tickEvents (timer .normal 255 0) = [.ovf]
      ∧ tickEvents (timer .normal 0 0) = [.compareMatch]
      ∧ (tickUnit { timer .normal 255 0 with ovfIe := true }).pend = true
      ∧ (tickUnit (timer .normal 0 0)).pend = false := by decide

theorem test_tick_K2_K5 :
    (tickUnit (timer .ctc 4 4)).cnt = 0 ∧ (tickUnit (timer .ctc 6 4)).cnt = 7
      ∧ (tickUnit (timer .ctc 0 0)).cnt = 0 ∧ (tickUnit (timer .ctc 255 255)).cnt = 0
      ∧ tickEvents (timer .ctc 255 255) = [.ovf, .compareMatch]
      ∧ tickEvents (timer .ctc 255 4) = [.ovf] := by decide

theorem test_tick_K6_K7_K8 :
    ((tickUnit (timer .phaseCorrect 254 0)).cnt, (tickUnit (timer .phaseCorrect 254 0)).down)
        = (255, false)
      ∧ ((tickUnit (timer .phaseCorrect 255 0)).cnt, (tickUnit (timer .phaseCorrect 255 0)).down)
        = (254, true)
      ∧ tickEvents { timer .phaseCorrect 1 0 with down := true } = [.ovf]
      ∧ (tickUnit { timer .phaseCorrect 0 7 with down := true }).cnt = 1
      ∧ (tickUnit { timer .phaseCorrect 0 7 with down := true }).down = false := by decide

theorem test_tick_K9_K10 :
    (tickUnit (timer .fast 255 7)).cnt = 0 ∧ tickEvents (timer .fast 255 7) = [.ovf]
      ∧ tickAgent (start .eight .blocking) = start .eight .blocking := by decide

/-! LCD unit and observer (vectors 2.6 to 2.10) -/

theorem test_lcdData_L2_L6 :
    shows (fun t => t.lcd.seq.filterMap fun m => match m with
        | .setB v => some v
        | _ => none) (exec (.lcdData 0x4F) (ready .four)) = some [0x4, 0xF]
      ∧ busValues .four 0xF0 = [0xF, 0x0] ∧ busValues .eight 0x4F = [0x4F] := by decide

theorem test_lcdData_L1 :
    (seqSteps 9 ((ready .eight).loadSeq (xfer .eight true 0x4F))).trace
      = [.pin ⟨0, 0⟩ true, .pin ⟨0, 1⟩ true, .bus 0x4F, .tx true 8 0x4F, .pin ⟨0, 1⟩ false,
        .xfer true 0x4F] := by decide

theorem test_lcdCmd_L3_L7 :
    shows (fun t => (t.lcd.seq.length, t.lcd.seq.getLast?)) (exec (.lcdCmd 1) (ready .eight))
        = some (9, some (.mark false 1))
      ∧ shows (fun t => t.refused) (exec (.lcdCmd 1) (start .eight .blocking))
        = some (some .lcdNotReady) := by decide

theorem test_lcdInit_2_7 :
    shows (fun t => t.lcd.seq.filterMap fun m => match m with
        | .mark r b => some (r, b)
        | _ => none) (exec .lcdInit (start .four .blocking))
      = some [(false, 0x33), (false, 0x32), (false, 0x28), (false, 0x28), (false, 0x01),
        (false, 0x0C)] := by decide

theorem test_lcdGoto_2_8 :
    [((0, 5) : BitVec 8 × BitVec 8), (1, 5), (2, 5), (3, 5), (3, 15)].map
        (fun p => shows (fun t => t.lcd.seq.getLast?) (exec (.lcdGoto p.1 p.2) (ready .four)))
      = [some (some (.mark false 0x85)), some (some (.mark false 0xC5)),
        some (some (.mark false 0x95)), some (some (.mark false 0xD5)),
        some (some (.mark false 0xDF))] := by decide

theorem test_lcdGoto_refused :
    shows (fun t => t.refused) (exec (.lcdGoto 4 0) (ready .eight)) = some (some .cursorOutOfRange)
      ∧ shows (fun t => t.refused) (exec (.lcdGoto 4 0) (start .eight .blocking))
        = some (some .lcdNotReady) := by decide

theorem test_lcdInt_2_9 :
    [0x0000, 0x0007, 0x0064, 0x0099, 0x7FFF, 0xFFFF, 0xFFD6, 0x8000].map
        (fun v : BitVec 28 => decimalText Config.atReset (signedOperand Config.atReset v))
      = [[0x30], [0x37], [0x31, 0x30, 0x30], [0x31, 0x35, 0x33], [0x33, 0x32, 0x37, 0x36, 0x37],
        [0x2D, 0x31], [0x2D, 0x34, 0x32], [0x2D, 0x33, 0x32, 0x37, 0x36, 0x38]] := by decide

theorem test_lcdInt_marks :
    shows (fun t => t.lcd.seq.filterMap fun m => match m with
        | .mark r b => some (r, b)
        | _ => none) (exec (.lcdInt 0xFFD6) (ready .eight))
      = some [(true, 0x2D), (true, 0x34), (true, 0x32)] := by decide

/-- An observer that tracks a blank display at the address `a` (vectors 2.10). -/
def tracking (a : BitVec 7) : Observer :=
  { dd := Memory.filled 0x20, ac := a, st := .tracking }

theorem test_observer_O4_O5_O9 :
    (observe Config.atReset true 0x43 (tracking 0x10)).st = .tracking
      ∧ (observe Config.atReset true 0x42 (tracking 0x0F)).ac = 0x10
      ∧ (observe Config.atReset true 0x43 (tracking 0x20)).st = .lost
      ∧ (observe Config.atReset false 0xE7 (tracking 0)).ac = 0x67 := by decide

theorem test_observer_O7_O8_O10 :
    observe Config.atReset false 0x0C (tracking 5) = tracking 5
      ∧ (observe Config.atReset false 0x02 (tracking 5)).st = .lost
      ∧ (observe Config.atReset false 0x01 { tracking 5 with st := .lost }).st = .lost := by decide

theorem test_shown_glyph_O1 :
    shownGlyph Config.atReset (observe Config.atReset true 0x31 (tracking 0x45)) 1 5 = some 0x31
      ∧ shownGlyph Config.atReset (observe Config.atReset true 0x31 (tracking 0x45)) 1 6 = some 0x20
      ∧ shownGlyph Config.atReset (tracking 0) 4 0 = none := by decide

/-! Host (vectors 2.11) -/

theorem test_temperature_table :
    [0, 3, 4, 119, 120, 239, 240, 359, 360, 479, 480, 600, 614, 1023].map
        (temperature Config.atReset)
      = [0, 0, 1, 29, 30, 59, 60, 89, 90, 119, 120, 150, 153, 256] := by decide

theorem test_band_S4 :
    [29, 30, 59, 60, 150].map band
      = [(.stopped, 0), (.forward, 25), (.forward, 25), (.forward, 50), (.forward, 100)] := by decide

theorem test_status_blank :
    (statusParts Config.atReset 99 .forward).take 3
        = [.op (.lcdGoto 0 0), .op (.lcdInt 99), .op (.lcdData 0x20)]
      ∧ (statusParts Config.atReset 153 .forward).take 3
        = [.op (.lcdGoto 0 0), .op (.lcdInt 153), .op (.lcdGoto 1 0)] := by decide

theorem test_defaults_legal :
    (Config.defaults .eight .blocking).legal = true ∧ (Config.defaults .four .latched).legal = true := by
  decide

/-! Witnesses: for each statement with hypotheses, a state and operands that meet them together, one
for each clause, at the edges of its range -/

theorem witness_DecodeOfEncode :
    (Instr.tmrSetcb 255).fits Config.atReset = true
      ∧ (Instr.tmrSetcb 0xFFF).fits { Config.atReset with handlerW := 12 } = true
      ∧ (Instr.lcdInt 0xFFFF).fits Config.atReset = true := by decide

theorem witness_EncodeOfDecode : decode Config.atReset 0xD0000105#32 = .ok (.lcdGoto 1 5) := by rfl

theorem witness_MatchMaskSelects :
    Config.atReset.widthsOk = true ∧ Config.atReset.handlerW = 8 ∧ Config.atReset.intW = 16
      ∧ decode Config.atReset 0x4000001A#32 = .ok (.tmrCfgPwm 0 0 3 2)
      ∧ 0x401FFFFF#32 &&& (matchMask Config.atReset (.tmrCfgPwm 0 0 3 2)).2
        = (matchMask Config.atReset (.tmrCfgPwm 0 0 3 2)).1 :=
  ⟨by decide, by decide, by decide, by rfl, by decide⟩

theorem witness_ReservedEncodingsRefused_issues (w : Word) :
    (issuing w [] (start .eight .blocking)).issues w := ⟨⟨rfl, rfl, rfl, rfl, rfl⟩, rfl⟩

theorem witness_ReservedEncodingsRefused_opcode :
    ∀ w ∈ [0x30000000#32, 0x9FFFFFFF#32, 0xF0000000#32],
      w.extractLsb' 28 4 ∈ [0x3#4, 0x9#4, 0xF#4] := by simp

theorem witness_ReservedEncodingsRefused_no_operand :
    ∀ w ∈ [0x20000001#32, 0x88000000#32, 0xA0000001#32],
      w.extractLsb' 28 4 ∈ [0x2#4, 0x8#4, 0xA#4] ∧ w.extractLsb' 0 28 ≠ 0 := by simp

theorem witness_ReservedEncodingsRefused_eight_bits :
    ∀ w ∈ [0x00000100#32, 0x18000000#32, 0xC0000100#32],
      w.extractLsb' 28 4 ∈ [0x0#4, 0x1#4, 0x6#4, 0xB#4, 0xC#4]
        ∧ w.extractLsb' 8 20 ≠ 0 := by simp

theorem witness_ReservedEncodingsRefused_handler :
    ∀ w ∈ [0x70000100#32, 0x78000000#32],
      w.extractLsb' 28 4 = 0x7#4 ∧ 2 ^ 8 ≤ (w.extractLsb' 0 28).toNat := by simp

theorem witness_ReservedEncodingsRefused_integer :
    ∀ w ∈ [0xE0010000#32, 0xE8000000#32],
      w.extractLsb' 28 4 = 0xE#4 ∧ 2 ^ 16 ≤ (w.extractLsb' 0 28).toNat := by simp

theorem witness_ReservedEncodingsRefused_timer_formats :
    ∀ w ∈ [0x40200000#32, 0x58000000#32],
      w.extractLsb' 28 4 ∈ [0x4#4, 0x5#4] ∧ w.extractLsb' 21 7 ≠ 0 := by simp

theorem witness_ReservedEncodingsRefused_cursor :
    ∀ w ∈ [0xD0010000#32, 0xD8000000#32],
      w.extractLsb' 28 4 = 0xD#4 ∧ w.extractLsb' 16 12 ≠ 0 := by simp

theorem witness_StepRunsDecodedRequest :
    (∃ t, (issuing 0x60000032#32 [] (start .eight .blocking)).issues 0x60000032#32
        ∧ decode (start .eight .blocking).par.cfg 0x60000032#32 = .ok (.tmrDuty 50)
        ∧ exec (.tmrDuty 50) (issuing 0x60000032#32 [] (start .eight .blocking)).takeTurn = .next t
        ∧ (t.refused.isSome || t.host.waiting) = false)
      ∧ ∃ t, (issuing 0x10000002#32 [] (start .eight .blocking)).issues 0x10000002#32
        ∧ decode (start .eight .blocking).par.cfg 0x10000002#32 = .ok (.adcRead 2)
        ∧ exec (.adcRead 2) (issuing 0x10000002#32 [] (start .eight .blocking)).takeTurn = .next t
        ∧ (t.refused.isSome || t.host.waiting) = true :=
  ⟨⟨_, by decide, rfl, rfl, by decide⟩, ⟨_, by decide, rfl, rfl, by decide⟩⟩

theorem witness_StepAnswersUnlessRefused :
    State.reset.refused = none
      ∧ { State.reset with refused := some RefuseReason.lcdNotReady }.refused = some .lcdNotReady := by
  decide

theorem witness_StepKeepsRunParameters : ∃ t, step (ticking .fast 0 0) = .next t := ⟨_, rfl⟩

/-- A callback is due, whose body sets a pin. -/
def dispatching : State :=
  { ticking .ctc 0 4 with
    tmr := { timer .ctc 0 4 with pend := true, cb := 1 }
    par :=
      { cfg := Config.atReset, hprog := [], handlers := [(1, [.gpioPin ⟨0, 3⟩ true])] }
    sched := [.tmrDispatch] }

theorem witness_ContextStaysForeground :
    dispatching.ctx = .foreground ∧ ∃ t, step dispatching = .next t := ⟨by decide, _, rfl⟩

theorem witness_TraceOnlyGrows : ∃ t, step dispatching = .next t := ⟨_, rfl⟩

/-- In the middle of a transfer of 0x4F: the enable line is high, the bus not yet set. -/
def midTransfer (w : BusWidth) : State :=
  { seqSteps 4 ((ready w).loadSeq (xfer w true 0x4F)) with sched := [.seq] }

theorem witness_LcdLinesInvariant :
    ((midTransfer .eight).linesOk ∧ (midTransfer .eight).busFits)
      ∧ (midTransfer .eight).lcd.e = true ∧ ∃ t, step (midTransfer .eight) = .next t := by
  refine ⟨⟨by decide, by decide, ?_⟩, by decide, _, rfl⟩
  intro m hm v hv
  exact v.isLt

theorem witness_StrobesBalanceInvariant :
    (midTransfer .four).strobesBalance ∧ (∃ t, step (midTransfer .four) = .next t)
      ∧ (seqSteps 11 (midTransfer .four)).strobesBalance
      ∧ (seqSteps 11 (midTransfer .four)).lcd.seq = []
      ∧ (txsOf (seqSteps 11 (midTransfer .four)).trace).length = 2 :=
  ⟨by decide, ⟨_, rfl⟩, by decide, by decide, by decide⟩

/-- The next step is the `Mark` of a data byte, with a tracking observer at address 5
that holds two blanks. -/
def marking : State :=
  { ready .eight with
    obs := { dd := [(4, 0x20), (5, 0x20)], ac := 5, st := .tracking }
    lcd := { (ready .eight).lcd with seq := [.mark true 0x41] }
    sched := [.seq] }

theorem witness_DdramStaysCanonical :
    Memory.wf marking.obs.dd ∧ (∃ t, step marking = .next t) ∧ dispatching.slotFits
      ∧ ∃ t, step dispatching = .next t :=
  ⟨⟨by decide, by decide⟩, ⟨_, rfl⟩, by decide, _, rfl⟩

theorem witness_BlockingPolicyInvariant :
    (issuing 0x10000002#32 [] (start .eight .blocking)).blockingOk
      ∧ (∃ t, step (issuing 0x10000002#32 [] (start .eight .blocking)) = .next t)
      ∧ (start .eight .blocking).par.cfg.policy = .blocking := ⟨by decide, ⟨_, rfl⟩, by decide⟩

theorem witness_ResetMeetsInvariants :
    Memory.wf { ResetDraws.named with dd := [(3, 0x20), (127, 1)] }.dd := by decide

theorem witness_LineLevelsChangeInPhase :
    ((midTransfer .eight).linesOk
        ∧ ∃ t, step (midTransfer .eight) = .next t ∧ t.lcd.b ≠ (midTransfer .eight).lcd.b)
      ∧ ({ (ready .eight).loadSeq (xfer .eight true 0x4F) with sched := [.seq] }.linesOk
        ∧ ∃ t, step { (ready .eight).loadSeq (xfer .eight true 0x4F) with sched := [.seq] } = .next t
          ∧ t.lcd.rs ≠ (ready .eight).lcd.rs) :=
  ⟨⟨by decide, _, rfl, by decide⟩, by decide, _, rfl, by decide⟩

theorem witness_OnlySequencerDrivesLines :
    ((∃ t, step (midTransfer .eight) = .next t) ∧ (midTransfer .eight).nextTurn = .seq)
      ∧ (∃ t, step dispatching = .next t) ∧ dispatching.nextTurn ≠ .seq
      ∧ dispatching.nextTurn ≠ .host := ⟨⟨⟨_, rfl⟩, by decide⟩, ⟨_, rfl⟩, by decide, by decide⟩

theorem witness_GrantedTurnsRunTheAgent :
    { marking with sched := [.seq, .seq, .host] }.refused = none
      ∧ { marking with sched := [.seq, .seq, .host] }.sched = List.replicate 2 .seq ++ [.host]
      ∧ { ticking .fast 0 0 with sched := [.tick, .tick, .seq] }.refused = none
      ∧ { ticking .fast 0 0 with sched := [.tick, .tick, .seq] }.sched
        = List.replicate 2 .tick ++ [.seq] := by decide

theorem witness_FinishedRunOnlyTicks :
    { ticking .fast 0 0 with sched := [.host] }.refused = none
      ∧ { ticking .fast 0 0 with sched := [.host] }.runOver = true
      ∧ { ticking .fast 0 0 with sched := [.host] }.host.queue = []
      ∧ { ticking .fast 0 0 with sched := [.host] }.host.waiting = false
      ∧ { ticking .fast 0 0 with sched := [.host] }.nextTurn ≠ .tick := by decide

theorem witness_AdcCfgWritesSelectors :
    (start .four .latched).refused = none ∧ (1 : BitVec 2) ≠ 2#2 ∧ (3 : BitVec 2) ≠ 2#2 := by decide

theorem witness_AdcReadStartsConversion :
    ((start .eight .blocking).refused = none ∧ (start .eight .blocking).ctx = .foreground
        ∧ (start .eight .blocking).adc.busy = false)
      ∧ (inInterrupt (start .eight .latched)).refused = none
      ∧ (inInterrupt (start .eight .latched)).ctx ≠ .foreground
      ∧ (inInterrupt (start .eight .latched)).par.cfg.policy = .latched := by decide

/-- The host waits for its blocking read, which is complete or not. -/
def awaiting (complete : Bool) : State :=
  { start .eight .blocking with
    adc :=
      { (start .eight .blocking).adc with en := true, busy := !complete, done := complete, data := 614 }
    host := { (start .eight .blocking).host with waiting := true }
    sched := [.host] }

theorem witness_BlockingReadWaitsAndFinishes :
    ∀ c ∈ [true, false], (awaiting c).refused = none ∧ (awaiting c).nextTurn = .host
      ∧ (awaiting c).lcd.seq = [] ∧ (awaiting c).host.waiting = true ∧ (awaiting c).adc.done = c := by
  decide

/-- A host that waits for a conversion in flight, which then completes with 614, after which it
finishes. Its program is at its end and no other agent is enabled. -/
def fairStart : State :=
  { start .eight .blocking with
    adc := { (start .eight .blocking).adc with en := true, busy := true }
    host := { (start .eight .blocking).host with waiting := true }
    sched := [.conv 614, .host] }

/-- The state it comes to rest in, at a turn. -/
def fairEnd (turn : Nat) : State :=
  { start .eight .blocking with
    adc := { (start .eight .blocking).adc with en := true, data := 614 }
    host := { (start .eight .blocking).host with hpc := 1 }
    resp := some 0x0266
    trace := [.adcComplete 0 614]
    turnNo := turn }

/-- The run from it. -/
def fairRun : Nat → State
  | 0 => fairStart
  | 1 =>
    { fairStart with
      adc := { fairStart.adc with busy := false, done := true, data := 614 }
      trace := [.adcComplete 0 614]
      sched := [.host]
      turnNo := 1 }
  | n + 2 => fairEnd (n + 2)

theorem fairRun_endless : endlessRun fairRun := by
  intro n
  match n with
  | 0 => rfl
  | 1 => rfl
  | n + 2 =>
    change agentStep (fairEnd (n + 2)).nextTurn (fairEnd (n + 2)).takeTurn = .next (fairEnd (n + 3))
    cases (fairEnd (n + 2)).nextTurn <;> rfl

theorem fairRun_fair : fairConversion fairRun ∧ fairFinish fairRun := by
  constructor
  · intro n h
    have := h (n + 2) (by omega)
    simp [fairRun, fairEnd, conversionEnabled, start, State.resetWith] at this
  · intro n h
    have := (h (n + 2) (by omega)).2.1
    simp [fairRun, fairEnd, start, State.resetWith] at this

theorem witness_BlockingReadWaitsAndFinishes_fair :
    (endlessRun fairRun ∧ fairConversion fairRun ∧ fairFinish fairRun)
      ∧ (fairRun 0).par.cfg.policy = .blocking ∧ (fairRun 0).blockingOk ∧ (fairRun 0).lcd.seq = []
      ∧ (fairRun 0).host.waiting = true ∧ (fairRun 0).adc.en = true
      ∧ (fairRun 0).adc.busy = true :=
  ⟨⟨fairRun_endless, fairRun_fair.1, fairRun_fair.2⟩, by decide, by decide, by decide, by decide,
    by decide, by decide⟩

theorem test_read_finishes_A6 :
    shows (fun t => (t.resp, t.adc.done, t.host.hpc)) (step (awaiting true))
      = some (some 0x0266, false, 1) := by decide

/-- A configured converter under a policy, with the read of channel 9 next. -/
def configured (p : ReadPolicy) (turns : List Turn) : State :=
  issuing 0x10000009#32 turns
    { start .eight p with
      adc := { (start .eight p).adc with en := true, ie := decide (p = .latched) } }

theorem witness_BlockingReadReturnsSample :
    (configured .blocking [.conv 614, .host]).issues 0x10000009#32
      ∧ decode (start .eight .blocking).par.cfg 0x10000009#32 = .ok (.adcRead 9)
      ∧ (configured .blocking [.conv 614, .host]).ctx = .foreground
      ∧ (configured .blocking [.conv 614, .host]).par.cfg.policy = .blocking
      ∧ (configured .blocking [.conv 614, .host]).adc.en = true
      ∧ (configured .blocking [.conv 614, .host]).adc.busy = false
      ∧ (configured .blocking [.conv 614, .host]).sched = [.host, .conv 614, .host] :=
  ⟨by decide, by rfl, by decide, by decide, by decide, by decide, by decide⟩

theorem witness_ConversionCompletes :
    ({ awaiting false with sched := [.conv 614] }.refused = none
        ∧ { awaiting false with sched := [.conv 614] }.nextTurn = .conv 614
        ∧ { awaiting false with sched := [.conv 614] }.adc.busy = true)
      ∧ { awaiting true with sched := [.conv 614] }.nextTurn = .conv 614
      ∧ { awaiting true with sched := [.conv 614] }.adc.busy = false := by decide

/-- A conversion is complete; its notification is on or off. -/
def completed (ie : Bool) : State :=
  { start .eight .latched with
    adc := { (start .eight .latched).adc with done := true, ie := ie, data := 300 }
    sched := [.adcHandler] }

theorem witness_CompletionHandlerPublishes :
    ∀ ie ∈ [true, false], (completed ie).refused = none ∧ (completed ie).nextTurn = .adcHandler
      ∧ (completed ie).adc.ie = ie := by decide

theorem test_handler_A10 :
    shows (fun t => (t.adc.cell, t.adc.cellValid, t.adc.done, t.trace)) (step (completed true))
      = some (300, true, false, [.publish 300]) := by decide

theorem witness_LatchedReadReachesCell :
    (configured .latched [.conv 300, .adcHandler]).issues 0x10000009#32
      ∧ decode (start .eight .latched).par.cfg 0x10000009#32 = .ok (.adcRead 9)
      ∧ (configured .latched [.conv 300, .adcHandler]).ctx = .foreground
      ∧ (configured .latched [.conv 300, .adcHandler]).par.cfg.policy = .latched
      ∧ (configured .latched [.conv 300, .adcHandler]).adc.en = true
      ∧ (configured .latched [.conv 300, .adcHandler]).adc.ie = true
      ∧ (configured .latched [.conv 300, .adcHandler]).adc.busy = false
      ∧ (configured .latched [.conv 300, .adcHandler]).sched = [.host, .conv 300, .adcHandler] :=
  ⟨by decide, by rfl, by decide, by decide, by decide, by decide, by decide, by decide⟩

theorem witness_TmrCfgPwmWrites : (ticking .ctc 5 4).refused = none := by decide

theorem witness_TmrCfgPerWrites : (ticking .fast 5 4).refused = none := by decide

theorem witness_TmrDutyWritesThreshold :
    (ticking .fast 5 4).refused = none ∧ ¬ 100 < (100 : BitVec 8).toNat
      ∧ 100 < (101 : BitVec 8).toNat := by decide

theorem witness_ThresholdLaws :
    (99 : BitVec 8).toNat ≤ (100 : BitVec 8).toNat ∧ (100 : BitVec 8).toNat ≤ 100 := by decide

theorem witness_TmrSetcbWritesSlot :
    (0 : HandlerId).toNat < 2 ^ (start .eight .blocking).par.cfg.handlerW
      ∧ (255 : HandlerId).toNat < 2 ^ (start .eight .blocking).par.cfg.handlerW := by decide

theorem witness_ConfigurationsIdempotent :
    ((3 : BitVec 2) ≠ 2#2 ∧ ∃ t, exec (.adcCfg 3 7 0) (ticking .fast 0 0) = .next t)
      ∧ (∃ t, exec .tmrClear (ticking .fast 0 0) = .next t)
      ∧ ((3 : BitVec 2) = 1#2 ∨ (3 : BitVec 2) = 3#2)
      ∧ ∃ t, exec (.tmrCfgPwm 0 0 3 2) (ticking .fast 9 128) = .next t :=
  ⟨⟨by decide, _, rfl⟩, ⟨_, rfl⟩, by decide, _, rfl⟩

theorem witness_TickCountsUp :
    ∀ m ∈ [WaveMode.normal, .fast], ∀ c ∈ [(0 : BitVec 8), 255],
      (ticking m c 255).refused = none ∧ (ticking m c 255).nextTurn = .tick
        ∧ ((ticking m c 255).tmr.mode = .normal ∨ (ticking m c 255).tmr.mode = .fast)
        ∧ (ticking m c 255).tmr.clk ≠ 0 := by decide

theorem witness_TickDualSlope :
    ∀ p ∈ [((0 : BitVec 8), false, (1 : BitVec 8)), (255, true, 254), (7, false, 8)],
      (ticking .phaseCorrect p.1 255).refused = none
        ∧ (ticking .phaseCorrect p.1 255).nextTurn = .tick
        ∧ (ticking .phaseCorrect p.1 255).tmr.mode = .phaseCorrect
        ∧ p.2.1 = (if p.1 = 255 then true else if p.1 = 0 then false
            else (ticking .phaseCorrect p.1 255).tmr.down)
        ∧ p.2.2 = (if p.2.1 then p.1 - 1 else p.1 + 1) := by
  intro p hp
  refine ⟨rfl, rfl, rfl, ?_⟩
  simp only [List.mem_cons, List.not_mem_nil, or_false] at hp
  rcases hp with rfl | rfl | rfl <;> exact ⟨by rfl, by rfl⟩

theorem witness_TickCompareReset :
    ∀ c ∈ [(0 : BitVec 8), 4, 5, 255], (ticking .ctc c 4).refused = none
      ∧ (ticking .ctc c 4).nextTurn = .tick ∧ (ticking .ctc c 4).tmr.mode = .ctc := by decide

theorem witness_FastPwmDutyFraction :
    ∀ c ∈ [(0 : BitVec 8), 64, 255], (timer .fast 0 c).mode = .fast ∧ (timer .fast 0 c).com = true
      ∧ (timer .fast 0 c).foc = false ∧ (timer .fast 0 c).ocDir = true ∧ (timer .fast 0 c).clk ≠ 0
      ∧ (timer .fast 0 c).cnt = 0 ∧ (ticking .fast 0 c).tmr = timer .fast 0 c := by decide

theorem witness_PhaseCorrectDutyFraction :
    ∀ c ∈ [(0 : BitVec 8), 64, 255], (timer .phaseCorrect 0 c).mode = .phaseCorrect
      ∧ (timer .phaseCorrect 0 c).com = true ∧ (timer .phaseCorrect 0 c).foc = false
      ∧ (timer .phaseCorrect 0 c).ocDir = true ∧ (timer .phaseCorrect 0 c).clk ≠ 0
      ∧ (timer .phaseCorrect 0 c).cnt = 0
      ∧ (ticking .phaseCorrect 0 c).tmr = timer .phaseCorrect 0 c := by decide

theorem witness_CtcPeriod :
    ∀ c ∈ [(0 : BitVec 8), 4, 255], (ticking .ctc 0 c).tmr.mode = .ctc
      ∧ (ticking .ctc 0 c).tmr.clk ≠ 0 ∧ (ticking .ctc 0 c).tmr.cnt = 0 := by decide

theorem witness_TmrDispatchRunsCallback :
    (dispatching.refused = none ∧ dispatching.nextTurn = .tmrDispatch ∧ dispatching.tmr.pend = true
        ∧ dispatching.tmr.cb ≠ 0
        ∧ dispatching.par.handlers.lookup dispatching.tmr.cb = some [.gpioPin ⟨0, 3⟩ true]
        ∧ ∃ t, runBody [.gpioPin ⟨0, 3⟩ true]
          { dispatching.takeTurn with
            tmr := { dispatching.tmr with pend := false }
            ctx := .interrupt
            trace := dispatching.trace ++ [.call dispatching.tmr.cb] } = .next t)
      ∧ (∀ pend ∈ [true, false],
        { ticking .ctc 0 4 with
          tmr := { timer .ctc 0 4 with pend := pend }, sched := [.tmrDispatch] }.refused = none
        ∧ { ticking .ctc 0 4 with
            tmr := { timer .ctc 0 4 with pend := pend }, sched := [.tmrDispatch] }.nextTurn
          = .tmrDispatch
        ∧ (timer .ctc 0 4).cb = 0) :=
  ⟨⟨by decide, by decide, by decide, by decide, by decide, _, rfl⟩, by decide⟩

theorem test_dispatch_P4 :
    shows (fun t => (t.tmr.pend, t.ctx, t.trace)) (step dispatching)
      = some (false, .foreground, [.call 1, .pin ⟨0, 3⟩ true]) := by decide

theorem witness_CallbackBodyInOrder :
    (∃ t, exec (.tmrDuty 25) (inInterrupt (ticking .fast 0 0)) = .next t ∧ t.refused.isSome = false)
      ∧ (∃ t, exec (.tmrDuty 101) (inInterrupt (ticking .fast 0 0)) = .next t
        ∧ t.refused.isSome = true)
      ∧ (inInterrupt (ticking .fast 0 0)).refused = none
      ∧ decode Config.atReset (BitVec.ofInt 32 0x60000019) = .ok (.tmrDuty 25)
      ∧ decode Config.atReset (BitVec.ofInt 32 0x30000000) = .error .reservedOpcode :=
  ⟨⟨_, rfl, by decide⟩, ⟨_, rfl, by decide⟩, by decide, by rfl, by rfl⟩

/-- R242: a body that takes the cell (0x812C, 300) and writes `300 div 10` as the duty, with a variable
between. -/
theorem test_callback_arithmetic :
    shows (fun t => (t.tmr.cmp, t.host.vars, t.refused))
      (runBody
        [.op .adcTake, .assign 1 (.mod .resp (.lit 1024)),
          .issue (.add (.lit 0x60000000) (.div (.var 1) (.lit 10)))]
        (inInterrupt (withCell 300))) = some (77, [0, 300], none) := by decide

theorem witness_BlockingRefusedInHandler :
    (inInterrupt (ready .eight)).refused = none ∧ (inInterrupt (ready .eight)).ctx = .interrupt
      ∧ (inInterrupt (ready .eight)).par.cfg.policy = .blocking := by decide

theorem witness_TransferEvents :
    ∀ w ∈ [BusWidth.four, .eight], ((ready w).loadSeq (xfer w true 0x4F)).lcd.e = false
      ∧ ((ready w).loadSeq (xfer w true 0x4F)).par.cfg.busw = w
      ∧ ((ready w).loadSeq (xfer w true 0x4F)).lcd.seq
        = xfer ((ready w).loadSeq (xfer w true 0x4F)).par.cfg.busw true 0x4F ++ [] := by decide

theorem witness_TransfersInOrder :
    ((ready .four).loadSeq ([0x4F#8, 0x4E#8].flatMap (xfer .four true))).lcd.e = false
      ∧ ((ready .four).loadSeq ([0x4F#8, 0x4E#8].flatMap (xfer .four true))).lcd.seq
        = [0x4F#8, 0x4E#8].flatMap (xfer (ready .four).par.cfg.busw true) ++ [] := by decide

theorem witness_LcdInitLoadsSequence : (start .four .latched).ctx = .foreground := by decide

theorem witness_LcdCmdAndDataLoadTransfer :
    (ready .four).ctx = .foreground ∧ (ready .four).lcd.st = .ready := by decide

theorem witness_LcdGotoSetsAddress :
    ((ready .four).refused = none ∧ (ready .four).ctx = .foreground ∧ (ready .four).lcd.st = .ready)
      ∧ (∀ p ∈ [((0 : BitVec 8), 0x00), (1, 0x40), (2, 0x10), (3, 0x50)],
        (p.1.toNat, p.2) ∈ [(0, 0x00), (1, 0x40), (2, 0x10), (3, 0x50)]
          ∧ (0 : BitVec 8).toNat < (ready .four).par.cfg.lcdCols
          ∧ (15 : BitVec 8).toNat < (ready .four).par.cfg.lcdCols)
      ∧ 3 < (4 : BitVec 8).toNat ∧ (ready .four).par.cfg.lcdCols ≤ (16 : BitVec 8).toNat := by decide

theorem witness_LcdIntLoadsText :
    (ready .eight).ctx = .foreground ∧ (ready .eight).lcd.st = .ready
      ∧ ((0x8000#28).setWidth (ready .eight).par.cfg.intW).toInt < 0 := by decide

theorem witness_LcdRefusedBeforeReady :
    ∀ st ∈ [LcdState.uninitialized, .powerSettling, .busWidthNegotiation],
      { ready .eight with lcd := { (ready .eight).lcd with st := st } }.refused = none
        ∧ { ready .eight with lcd := { (ready .eight).lcd with st := st } }.ctx = .foreground
        ∧ { ready .eight with lcd := { (ready .eight).lcd with st := st } }.lcd.st ≠ .ready := by
  decide

theorem witness_LcdInitBringsUpDisplay :
    ∀ w ∈ [BusWidth.four, .eight], (start w .blocking).ctx = .foreground
      ∧ (start w .blocking).lcd.e = false ∧ (start w .blocking).par.cfg.legal = true
      ∧ (start w .blocking).obs.st ≠ .lost := by decide

/-- A ready display that tracks row 1 from column 5 on. -/
def showing : State :=
  { ready .four with obs := { dd := [(0x44, 0x20), (0x45, 0x39)], ac := 0x45, st := .tracking } }

theorem witness_IntegerReadsBack :
    showing.ctx = .foreground ∧ showing.lcd.st = .ready ∧ showing.lcd.e = false
      ∧ showing.obs.st = .tracking ∧ Memory.wf showing.obs.dd ∧ showing.par.cfg.lcdCols ≤ 16
      ∧ 0x40 ∈ [0x00, 0x40, 0x10, 0x50] ∧ 0x40 ≤ showing.obs.ac.toNat
      ∧ [0x31, 0x35, 0x33]
        = decimalText showing.par.cfg ((0x0099#28).setWidth showing.par.cfg.intW).toInt
      ∧ showing.obs.ac.toNat + [0x31, 0x35, 0x33].length ≤ 0x40 + showing.par.cfg.lcdCols :=
  ⟨rfl, rfl, rfl, rfl, by decide, by decide, by simp, by decide, by decide, by decide⟩

theorem witness_DigitsOfANumber : 7 ∈ digits 1027 ∧ (digits 0).head? = some 0 := by decide

theorem witness_DecimalTextIsFaithful :
    (∀ d < 10, Config.atReset.glyphMinus ≠ Config.atReset.glyphDigit0 + BitVec.ofNat 8 d)
      ∧ decimalText Config.atReset (-42) = decimalText Config.atReset (-42)
      ∧ 2 ^ Config.atReset.intW ≤ 10 ^ 5 ∧ Config.atReset.intW = 16 := by decide

theorem witness_ObserverRules :
    (∀ st ∈ [ObsState.lost, .unset, .tracking], { tracking 0x0F with st := st }.st = st)
      ∧ marking.obs.st = .tracking ∧ Memory.wf marking.obs.dd :=
  ⟨by decide, by decide, by decide, by decide⟩

/-- The host is to perform a motor step, or has a sample of 10 bits on `RESP`. -/
def motoring (duty : BitVec 8) : State :=
  { ticking .fast 0 0 with
    par := { cfg := Config.atReset, hprog := [.act (.motorSet .forward duty)], handlers := [] }
    sched := List.replicate 4 .host }

theorem witness_MotorSetPinsThenDuty :
    ∀ duty ∈ [(0 : BitVec 8), 100], (motoring duty).hostFree
      ∧ (motoring duty).par.hprog[(motoring duty).host.hpc]? = some (.act (.motorSet .forward duty))
      ∧ duty.toNat ≤ 100 ∧ (true, false) = (motoring duty).par.cfg.motorLevels.forward
      ∧ (motoring duty).sched = List.replicate 4 .host ++ [] := by decide

/-- The host has the response of a policy to a sample on `RESP`, and the rest of an iteration before
it. -/
def sampled (p : ReadPolicy) (v : BitVec 10) : State :=
  { start .eight p with
    resp := match p with
      | .blocking => some (v.setWidth 16)
      | .latched => some (0x8000#16 ||| v.setWidth 16)
    host :=
      { (start .eight .blocking).host with queue := [.convert true, .select, .motorSelected] }
    sched := List.replicate 6 .host }

theorem witness_SampleSetsFanSpeed :
    ∀ p ∈ [ReadPolicy.blocking, .latched],
      ∀ v ∈ [(119 : BitVec 10), 120, 240, 360, 480, 1023], (sampled p v).refused = none
        ∧ (sampled p v).lcd.seq = [] ∧ (sampled p v).host.waiting = false
        ∧ (sampled p v).par.cfg = Config.defaults .eight p
        ∧ (sampled p v).resp = (match p with
          | .blocking => some (v.setWidth 16)
          | .latched => some (0x8000#16 ||| v.setWidth 16))
        ∧ (sampled p v).host.queue = [.convert true, .select, .motorSelected] ++ []
        ∧ (sampled p v).sched = List.replicate 6 .host ++ [] := by decide

theorem witness_SampleSetsFanSpeed_no_sample :
    ∀ p ∈ [ReadPolicy.blocking, .latched],
      { sampled p 120 with resp := none }.nextTurn = .host
        ∧ { sampled p 120 with resp := none }.host.queue
          = .convert true :: [.select, .motorSelected]
        ∧ { sampled p 120 with resp := none }.par.cfg.policy = p
        ∧ (responseWord none).getLsbD 15 = false := by decide

/-- R223: without a sample the latched policy ends the iteration and keeps `temp`; the blocking policy
converts the response as it is. -/
theorem test_convert_without_sample :
    shows (fun t => (t.host.temp, t.host.queue))
        (step { sampled .latched 120 with
          resp := none, host := { (sampled .latched 120).host with temp := 7 } }) = some (7, [])
      ∧ shows (fun t => (t.host.temp, t.host.queue))
        (step { sampled .blocking 120 with
          resp := none, host := { (sampled .blocking 120).host with temp := 7 } })
        = some (0, [.select, .motorSelected]) := by decide

theorem witness_ResetValues :
    State.reset
      = State.resetWith { cfg := Config.atReset, hprog := [], handlers := [] } []
        { foc := false, data := 0, cell := 0, dd := [], ac := 0, temp := 0, dir := .stopped
          duty := 0, vars := [] } := by rfl

end Sys2Proof.Tests
end

/-! PROOF. The parameters of a run stay as they are (R10, R50, R60, R242): each agent's turn keeps
them, so every step does. -/

namespace Sys2Proof.Machine

@[simp] theorem microStep_par (m : MicroStep) (s : State) : (microStep m s).par = s.par := by
  obtain ⟨l, o, es, h, -⟩ := microStep_frame m s
  rw [h]

@[simp] theorem seqAgent_par (s : State) : (seqAgent s).par = s.par := by
  obtain ⟨-, h⟩ | ⟨m, rest, -, h⟩ := seqAgent_cases s
  · rw [h]
  · rw [h, microStep_par, State.loadSeq_par]

@[simp] theorem tickAgent_par (s : State) : (tickAgent s).par = s.par := by
  obtain ⟨-, h⟩ | ⟨-, h⟩ := tickAgent_cases s <;> rw [h]

@[simp] theorem convAgent_par (v : BitVec 10) (s : State) : (convAgent v s).par = s.par := by
  obtain ⟨-, h⟩ | ⟨-, h⟩ := convAgent_cases v s <;> rw [h]

@[simp] theorem adcHandlerAgent_par (s : State) : (adcHandlerAgent s).par = s.par := by
  obtain ⟨-, h⟩ | ⟨-, h⟩ := adcHandler_cases s <;> rw [h]

theorem hostAgent_keeps_par {s t : State} (h : hostAgent s = .next t) : t.par = s.par := by
  obtain ⟨u, hu, hq⟩ := hostAgent_quiet s
  cases hu.symm.trans h
  exact hq.par

/-- The callback's body is the one part of the dispatch that issues operations, and it runs quietly. -/
theorem tmrDispatchAgent_keeps_par {s t : State} (h : tmrDispatchAgent s = .next t) :
    t.par = s.par := by
  obtain ⟨-, hu⟩ | ⟨-, -, hu⟩ | ⟨-, -, u, -, hq, hu⟩ := tmrDispatch_cases s <;>
    cases hu.symm.trans h
  · rfl
  · rfl
  · exact hq.par

theorem agentStep_keeps_par {turn : Turn} {s t : State} (h : agentStep turn s = .next t) :
    t.par = s.par := by
  cases turn with
  | host => exact hostAgent_keeps_par h
  | seq => cases h; exact seqAgent_par s
  | tick => cases h; exact tickAgent_par s
  | conv v => cases h; exact convAgent_par v s
  | adcHandler => cases h; exact adcHandlerAgent_par s
  | tmrDispatch => exact tmrDispatchAgent_keeps_par h

/-- A step with a next state is one agent's turn, in a run that has not gone wrong. -/
theorem agentStep_of_step {s t : State} (h : step s = .next t) :
    s.refused = none ∧ agentStep s.nextTurn s.takeTurn = .next t := by
  cases hr : s.refused with
  | none => exact ⟨rfl, (step_eq s hr).symm.trans h⟩
  | some r => simp [step, hr] at h

/-- Settles O8: every agent's turn keeps the parameters, and taking the turn does not touch them. -/
theorem stepKeepsRunParameters : Obligations.StepKeepsRunParameters := by
  intro s t h
  obtain ⟨-, hturn⟩ := agentStep_of_step h
  exact (agentStep_keeps_par hturn).trans s.takeTurn_par

end Sys2Proof.Machine

/-! PROOF. What every turn keeps of the context (R51), the trace (R55), the observer (R46 to R48) and
the callback slot (R35). One frame says it for all six agents, and the invariants are read off it.
Then the host's step at a request word, the state at reset, the slot's write and the comparator. -/

namespace Sys2Proof.Machine

/-- The callback slot is as it was, or it holds an identifier that `TMR_SETCB` writes; the cleared
slot is the identifier 0 (R35, R149, R150). -/
def SlotWritten (s t : State) : Prop :=
  t.tmr.cb = s.tmr.cb ∨ ∃ h, t.tmr.cb = handlerId s.par.cfg h

theorem SlotWritten.trans {s t u : State} (hpar : t.par = s.par) (h : SlotWritten s t)
    (k : SlotWritten t u) : SlotWritten s u := by
  rcases k with k | ⟨x, k⟩
  · unfold SlotWritten
    rwa [k]
  · exact .inr ⟨x, by rw [k, hpar]⟩

/-- Whatever is written to the slot fits it, so a slot that fits goes on fitting (R35). -/
theorem SlotWritten.slotFits {s t : State} (hpar : t.par = s.par) (h : SlotWritten s t)
    (hs : s.slotFits) : t.slotFits := by
  unfold State.slotFits
  rw [hpar]
  rcases h with h | ⟨x, h⟩ <;> rw [h]
  · exact hs
  · exact handlerId_fits _ x

@[simp] theorem handlerId_zero (c : Config) : handlerId c 0#28 = 0#28 := by
  simp [handlerId]

@[simp] theorem issueLcd_tmr (s : State) (q : List MicroStep) : (s.issueLcd q).tmr = s.tmr := by
  rcases issueLcd_cases s q with ⟨-, h⟩ | ⟨-, -, h⟩ | ⟨-, -, h⟩ <;> simp [h]

/-- Of the thirteen operations only `TMR_SETCB` and `TMR_CLEAR` write the slot. -/
theorem exec_slotWritten {i : Instr} {s t : State} (h : exec i s = .next t) : SlotWritten s t := by
  cases i with
  | adcCfg ref clk trig =>
    simp only [exec, execAdcCfg] at h
    split at h <;> cases h <;> exact .inl rfl
  | adcRead chan =>
    simp only [exec, execAdcRead] at h
    split at h
    · cases h; exact .inl rfl
    · split at h <;> cases h <;> exact .inl rfl
  | adcTake => cases h; exact .inl rfl
  | tmrCfgPwm init top mode clk =>
    simp only [exec, execTmrCfgPwm] at h
    split at h <;> cases h <;> exact .inl rfl
  | tmrCfgPer init top mode clk =>
    simp only [exec, execTmrCfgPer] at h
    split at h <;> cases h <;> exact .inl rfl
  | tmrDuty duty =>
    simp only [exec, execTmrDuty] at h
    split at h <;> cases h <;> exact .inl rfl
  | tmrSetcb x => cases h; exact .inr ⟨x, rfl⟩
  | tmrClear => cases h; exact .inr ⟨0#28, (handlerId_zero _).symm⟩
  | lcdInit =>
    simp only [exec, execLcdInit] at h
    split at h <;> cases h <;> exact .inl rfl
  | lcdCmd code => cases h; exact .inl (by simp)
  | lcdData byte => cases h; exact .inl (by simp)
  | lcdGoto row col =>
    simp only [exec, execLcdGoto] at h
    split at h
    · cases h; exact .inl rfl
    · split at h
      · cases h; exact .inl rfl
      · split at h <;> cases h <;> exact .inl rfl
  | lcdInt val => cases h; exact .inl (by simp)

theorem issueWord_slotWritten {w : Word} {s t : State} (h : issueWord w s = .next t) :
    SlotWritten s t := by
  unfold issueWord at h
  split at h
  · exact exec_slotWritten h
  · cases h; exact .inl rfl

theorem handlerAct_slotWritten {a : HandlerAct} {s t : State} (h : handlerAct a s = .next t) :
    SlotWritten s t := by
  cases a with
  | op i => exact exec_slotWritten h
  | issue w => exact issueWord_slotWritten h
  | gpioDir p o => cases h; exact .inl rfl
  | gpioPin p l => cases h; exact .inl rfl
  | gpioPinOf p e => cases h; exact .inl rfl
  | assign k e => cases h; exact .inl rfl

theorem runBody_slotWritten {b : List HandlerAct} {s u : State} (h : runBody b s = .next u) :
    SlotWritten s u := by
  induction b generalizing s with
  | nil => cases h; exact .inl rfl
  | cons a rest ih =>
    obtain ⟨t, ht, hq⟩ := handlerAct_quiet a s
    have hfirst : SlotWritten s t := handlerAct_slotWritten ht
    simp only [runBody, ht] at h
    split at h
    · cases h; exact hfirst
    · exact hfirst.trans hq.par (ih h)

theorem afterIssue_slotWritten {rest : List HostAct} {s t u : State} (hw : SlotWritten s t)
    (h : afterIssue rest (.next t) = .next u) : SlotWritten s u := by
  rw [afterIssue_next] at h
  cases h
  split <;> exact hw

@[simp] theorem convertPart_tmr (skip : Bool) (rest : List HostAct) (s : State) :
    (convertPart skip rest s).tmr = s.tmr := by
  unfold convertPart
  split
  · rfl
  · split <;> rfl

/-- Only a part that issues an operation can write the slot. -/
theorem hostPart_slotWritten {a : HostAct} {rest : List HostAct} {s u : State}
    (h : hostPart a rest s = .next u) : SlotWritten s u := by
  cases a with
  | op i =>
    obtain ⟨t, ht, -⟩ := exec_quiet i s
    simp only [hostPart, ht] at h
    exact afterIssue_slotWritten (exec_slotWritten ht) h
  | convert skip => cases h; exact .inl (by simp)
  | gpioDir p o => cases h; exact .inl rfl
  | gpioPin p l => cases h; exact .inl rfl
  | select => cases h; exact .inl rfl
  | motorSet d duty => cases h; exact .inl rfl
  | motorSelected => cases h; exact .inl rfl
  | sensorRead => cases h; exact .inl rfl
  | status temp d => cases h; exact .inl rfl
  | statusCurrent => cases h; exact .inl rfl
  | iteration => cases h; exact .inl rfl

theorem hostNext_slotWritten {s u : State} (h : hostNext s = .next u) : SlotWritten s u := by
  unfold hostNext at h
  split at h
  · exact hostPart_slotWritten h
  · split at h
    next w _ =>
      obtain ⟨t, ht, -⟩ := issueWord_quiet w s
      rw [ht] at h
      exact afterIssue_slotWritten (issueWord_slotWritten ht) h
    next => exact hostPart_slotWritten h
    next => cases h; exact .inl rfl

theorem hostAgent_slotWritten {s u : State} (h : hostAgent s = .next u) : SlotWritten s u := by
  unfold hostAgent at h
  split at h
  · cases h; exact .inl rfl
  · split at h
    · split at h <;> cases h <;> exact .inl rfl
    · exact hostNext_slotWritten h

/-- From `s` to `t`, the two ends of a turn: the context is kept or back in the foreground, the
trace only grew, the observer took at most one transfer, and the slot was written by operations
only. -/
structure TurnFrame (s t : State) : Prop where
  ctx : t.ctx = s.ctx ∨ t.ctx = .foreground
  trace : s.trace <+: t.trace
  obs : t.obs = s.obs ∨ ∃ rs b, t.obs = observe s.par.cfg rs b s.obs
  slot : SlotWritten s t

theorem TurnFrame.refl (s : State) : TurnFrame s s :=
  ⟨.inl rfl, List.prefix_refl _, .inl rfl, .inl rfl⟩

theorem Quiet.trace_prefix {s t : State} (h : Quiet s t) : s.trace <+: t.trace := by
  obtain ⟨es, he, -, -⟩ := h.trace
  exact ⟨es, he.symm⟩

theorem hostAgent_turnFrame {s t : State} (h : hostAgent s = .next t) : TurnFrame s t := by
  obtain ⟨u, hu, hq⟩ := hostAgent_quiet s
  cases hu.symm.trans h
  exact ⟨.inl hq.ctx, hq.trace_prefix, .inl hq.obs, hostAgent_slotWritten h⟩

/-- The `Mark` of a transfer is the only micro-step that the observer takes (R207). -/
theorem microStep_obs_cases (m : MicroStep) (s : State) :
    (microStep m s).obs = s.obs
      ∨ ∃ rs b, (microStep m s).obs = observe s.par.cfg rs b s.obs := by
  cases m with
  | mark rs b => exact .inr ⟨rs, b, rfl⟩
  | setE l => cases l <;> exact .inl rfl
  | setDirs => exact .inl rfl
  | setSt st => exact .inl rfl
  | setRs l => exact .inl rfl
  | setB v => exact .inl rfl
  | wait l => exact .inl rfl

theorem microStep_turnFrame (m : MicroStep) (s : State) : TurnFrame s (microStep m s) := by
  have hobs := microStep_obs_cases m s
  obtain ⟨l, o, es, h, -⟩ := microStep_frame m s
  rw [h] at hobs ⊢
  exact ⟨.inl rfl, List.prefix_append _ _, hobs, .inl rfl⟩

theorem seqAgent_turnFrame (s : State) : TurnFrame s (seqAgent s) := by
  obtain ⟨-, h⟩ | ⟨m, rest, -, h⟩ := seqAgent_cases s <;> rw [h]
  · exact TurnFrame.refl s
  · obtain ⟨hctx, htrace, hobs, hslot⟩ := microStep_turnFrame m (s.loadSeq rest)
    exact ⟨hctx, htrace, hobs, hslot⟩

theorem tickAgent_turnFrame (s : State) : TurnFrame s (tickAgent s) := by
  obtain ⟨-, h⟩ | ⟨-, h⟩ := tickAgent_cases s <;> rw [h]
  · exact TurnFrame.refl s
  · exact ⟨.inl rfl, List.prefix_append _ _, .inl rfl, .inl rfl⟩

theorem convAgent_turnFrame (v : BitVec 10) (s : State) : TurnFrame s (convAgent v s) := by
  obtain ⟨-, h⟩ | ⟨-, h⟩ := convAgent_cases v s <;> rw [h]
  · exact TurnFrame.refl s
  · exact ⟨.inl rfl, List.prefix_append _ _, .inl rfl, .inl rfl⟩

theorem adcHandlerAgent_turnFrame (s : State) : TurnFrame s (adcHandlerAgent s) := by
  obtain ⟨-, h⟩ | ⟨-, h⟩ := adcHandler_cases s <;> rw [h]
  · exact TurnFrame.refl s
  · exact ⟨.inr rfl, List.prefix_append _ _, .inl rfl, .inl rfl⟩

/-- The dispatch appends `Call`, then what the callback's body emits, and returns to the foreground
(R241, R247). -/
theorem tmrDispatchAgent_turnFrame {s t : State} (h : tmrDispatchAgent s = .next t) :
    TurnFrame s t := by
  obtain ⟨-, hu⟩ | ⟨-, -, hu⟩ | ⟨-, -, u, hbody, hq, hu⟩ := tmrDispatch_cases s <;>
    cases hu.symm.trans h
  · exact TurnFrame.refl s
  · exact ⟨.inl rfl, List.prefix_refl _, .inl rfl, .inl rfl⟩
  · have hcall : s.trace <+: s.trace ++ [.call s.tmr.cb] := List.prefix_append _ _
    have hslot := runBody_slotWritten hbody
    exact ⟨.inr rfl, hcall.trans hq.trace_prefix, .inl hq.obs, hslot⟩

theorem agentStep_turnFrame {turn : Turn} {s t : State} (h : agentStep turn s = .next t) :
    TurnFrame s t := by
  cases turn with
  | host => exact hostAgent_turnFrame h
  | seq => cases h; exact seqAgent_turnFrame s
  | tick => cases h; exact tickAgent_turnFrame s
  | conv v => cases h; exact convAgent_turnFrame v s
  | adcHandler => cases h; exact adcHandlerAgent_turnFrame s
  | tmrDispatch => exact tmrDispatchAgent_turnFrame h

/-- Every step is framed as its turn is: taking the turn touches the schedule only. -/
theorem step_turnFrame {s t : State} (h : step s = .next t) : TurnFrame s t := by
  obtain ⟨-, hturn⟩ := agentStep_of_step h
  obtain ⟨hctx, htrace, hobs, hslot⟩ := agentStep_turnFrame hturn
  exact ⟨hctx, htrace, hobs, hslot⟩

/-- Settles O9: a turn keeps the context or ends in the foreground. -/
theorem contextStaysForeground : Obligations.ContextStaysForeground := by
  intro s t hs h
  rcases (step_turnFrame h).ctx with hctx | hctx
  · exact hctx.trans hs
  · exact hctx

/-- Settles O10: the trace before a step begins the trace after it. -/
theorem traceOnlyGrows : Obligations.TraceOnlyGrows := by
  intro s t h
  obtain ⟨es, he⟩ := (step_turnFrame h).trace
  exact ⟨es, he.symm⟩

/-- Settles O13: the observer keeps the canonical form whatever transfer it takes, and what the
operations write to the slot fits it. -/
theorem ddramStaysCanonical : Obligations.DdramStaysCanonical := by
  refine ⟨fun s t hs h => ?_, fun s t hs h => ?_⟩
  · rcases (step_turnFrame h).obs with hobs | ⟨rs, b, hobs⟩ <;> rw [hobs]
    · exact hs
    · exact observe_dd_wf _ rs b _ hs
  · exact (step_turnFrame h).slot.slotFits (stepKeepsRunParameters s t h) hs

/-! The host's step at a request word -/

/-- A free host issues the word that `HPC` names, and the entry is its only part (R50, R80). -/
theorem step_of_issues {s : State} {w : Word} (h : s.issues w) :
    step s = afterIssue [] (issueWord w s.takeTurn) := by
  obtain ⟨⟨hrun, hturn, hseq, hwait, hqueue⟩, hword⟩ := h
  have hnext : hostNext s.takeTurn = afterIssue [] (issueWord w s.takeTurn) := by
    simp [hostNext, hqueue, hword]
  rw [step_eq s hrun, hturn]
  simpa [agentStep, hostAgent, hseq, hwait] using hnext

theorem issueWord_of_decode {w : Word} {i : Instr} {s : State} (h : decode s.par.cfg w = .ok i) :
    issueWord w s = exec i s := by
  simp [issueWord, h]

/-- Settles O6: the issue is `exec` of the decoded operation, and the part is finished unless the
operation was refused or the host waits. -/
theorem stepRunsDecodedRequest : Obligations.StepRunsDecodedRequest := by
  intro s t w i hissues hdecode hexec
  have hword : issueWord w s.takeTurn = exec i s.takeTurn := issueWord_of_decode hdecode
  rw [step_of_issues hissues, hword, hexec, afterIssue_next]
  rfl

/-! The state at reset -/

/-- Settles O15: at reset the lines are low with nothing to come, the trace is empty, no conversion
is in flight and the slot is the null callback. -/
theorem resetMeetsInvariants : Obligations.ResetMeetsInvariants := by
  intro par sched d hd
  have hlines : (State.resetWith par sched d).linesOk := rfl
  have hbus : (State.resetWith par sched d).busFits :=
    ⟨Nat.two_pow_pos _, fun _ hm => absurd hm List.not_mem_nil⟩
  have hblocking : (State.resetWith par sched d).blockingOk := fun _ =>
    ⟨rfl, rfl, fun _ => ⟨rfl, rfl⟩, fun _ => rfl, nofun⟩
  exact ⟨hlines, hbus, ⟨hlines, rfl⟩, hd, hblocking, Nat.two_pow_pos _, rfl⟩

/-- Settles O60: the reset state lists these values, the draws being its argument. -/
theorem resetValues : Obligations.ResetValues := by
  rintro par sched d s rfl
  exact ⟨rfl, rfl, rfl, rfl, rfl, rfl, rfl, rfl, rfl⟩

/-! The callback slot and the comparator -/

/-- Settles O32: the slot takes the operand's low `HANDLER_W` bits, and these are the operand where
it fits. -/
theorem tmrSetcbWritesSlot : Obligations.TmrSetcbWritesSlot := by
  refine fun h s => ⟨rfl, fun hf => ?_⟩
  simp only [exec, execTmrSetcb, handlerId_eq _ h hf]

/-- The comparator drives the pin in a PWM mode, connected, not forced, with the pin an output
(R37). -/
theorem pwmDriven_iff (t : TmrUnit) :
    pwmDriven t = true ↔
      (t.mode = .phaseCorrect ∨ t.mode = .fast)
        ∧ t.com = true ∧ t.foc = false ∧ t.ocDir = true := by
  simp [pwmDriven, and_assoc]

/-- Settles O38: the output is the comparison where the comparator drives the pin, and the idle
level elsewhere. -/
theorem pwmOutputRule : Obligations.PwmOutputRule := by
  intro c t
  simp only [pwmOut, pwmDriven_iff]

end Sys2Proof.Machine

/-! PROOF. Whose turn changes what: the LCD unit is the sequencer's and the host's alone (R81, R172,
R174), and turns that the schedule grants to one agent are that many steps of it (R82). -/

namespace Sys2Proof.Machine

theorem seqAgent_nil {s : State} (h : s.lcd.seq = []) : seqAgent s = s := by
  simp [seqAgent, h]

theorem seqAgent_cons {s : State} {m : MicroStep} {rest : List MicroStep}
    (h : s.lcd.seq = m :: rest) : seqAgent s = microStep m (s.loadSeq rest) := by
  simp [seqAgent, h]

/-! The LCD unit by the agent whose turn it is -/

/-- A callback runs in interrupt context, where no LCD operation is accepted (R249), so the dispatch
leaves the LCD unit alone. -/
theorem tmrDispatchAgent_keeps_lcd {s t : State} (h : tmrDispatchAgent s = .next t) :
    t.lcd = s.lcd := by
  obtain ⟨-, hu⟩ | ⟨-, -, hu⟩ | ⟨-, -, u, -, hq, hu⟩ := tmrDispatch_cases s <;>
    cases hu.symm.trans h
  · rfl
  · rfl
  · have hseq : u.lcd.seq = s.lcd.seq := hq.seq rfl
    have hlines : u.lcd = { s.lcd with seq := u.lcd.seq } := hq.lines
    rw [State.leaveHandler_lcd, hlines, hseq]

/-- Of the six agents only the host and the sequencer touch the LCD unit. -/
theorem agentStep_keeps_lcd {turn : Turn} {s t : State} (h : agentStep turn s = .next t)
    (hseq : turn ≠ .seq) (hhost : turn ≠ .host) : t.lcd = s.lcd := by
  cases turn with
  | host => exact absurd rfl hhost
  | seq => exact absurd rfl hseq
  | tick =>
    cases h
    obtain ⟨-, hu⟩ | ⟨-, hu⟩ := tickAgent_cases s <;> rw [hu]
  | conv v =>
    cases h
    obtain ⟨-, hu⟩ | ⟨-, hu⟩ := convAgent_cases v s <;> rw [hu]
  | adcHandler =>
    cases h
    obtain ⟨-, hu⟩ | ⟨-, hu⟩ := adcHandler_cases s <;> rw [hu]
  | tmrDispatch => exact tmrDispatchAgent_keeps_lcd h

/-- The host loads `LCD_SEQ` at most; the levels of the lines are not its own (R81, R173). -/
theorem hostAgent_keeps_lines {s t : State} (h : hostAgent s = .next t) :
    t.lcd = { s.lcd with seq := t.lcd.seq } := by
  obtain ⟨u, hu, hq⟩ := hostAgent_quiet s
  cases hu.symm.trans h
  exact hq.lines

theorem agentStep_keeps_lines {turn : Turn} {s t : State} (h : agentStep turn s = .next t)
    (hseq : turn ≠ .seq) : t.lcd = { s.lcd with seq := t.lcd.seq } := by
  by_cases hhost : turn = .host
  · subst hhost
    exact hostAgent_keeps_lines h
  · rw [agentStep_keeps_lcd h hseq hhost]

theorem seqAgent_frame (s : State) :
    ∃ l o es, seqAgent s = { s with lcd := l, obs := o, trace := s.trace ++ es } := by
  obtain ⟨-, h⟩ | ⟨m, rest, -, h⟩ := seqAgent_cases s
  · exact ⟨s.lcd, s.obs, [], by rw [h, List.append_nil]⟩
  · obtain ⟨l, o, es, hm, -⟩ := microStep_frame m (s.loadSeq rest)
    exact ⟨l, o, es, h.trans hm⟩

/-- Settles O17: the frames of the agents, read at the turn that is taken. -/
theorem onlySequencerDrivesLines : Obligations.OnlySequencerDrivesLines := by
  intro s t h
  obtain ⟨-, hturn⟩ := agentStep_of_step h
  have hlines := agentStep_keeps_lines hturn
  have hlcd := agentStep_keeps_lcd hturn
  refine ⟨hlines, hlcd, fun hseq => ?_⟩
  rw [hseq] at hturn
  cases hturn
  obtain ⟨l, o, es, hf⟩ := seqAgent_frame s.takeTurn
  rw [hf]

/-! Granted turns -/

/-- The state with its schedule and its count of turns replaced: what taking turns changes. -/
def State.withTurns (s : State) (ts : List Turn) (k : Nat) : State :=
  { s with sched := ts, turnNo := k }

theorem microStep_withTurns (m : MicroStep) (s : State) (ts : List Turn) (k : Nat) :
    microStep m (s.withTurns ts k) = (microStep m s).withTurns ts k := by
  cases m with
  | setE l => cases l <;> rfl
  | setDirs => rfl
  | setSt st => rfl
  | setRs l => rfl
  | setB v => rfl
  | wait l => rfl
  | mark rs b => rfl

theorem seqAgent_withTurns (s : State) (ts : List Turn) (k : Nat) :
    seqAgent (s.withTurns ts k) = (seqAgent s).withTurns ts k := by
  obtain ⟨hseq, h⟩ | ⟨m, rest, hseq, h⟩ := seqAgent_cases s
  · rw [h, seqAgent_nil (s := s.withTurns ts k) hseq]
  · rw [h, seqAgent_cons (s := s.withTurns ts k) hseq, ← microStep_withTurns]
    rfl

theorem tickAgent_withTurns (s : State) (ts : List Turn) (k : Nat) :
    tickAgent (s.withTurns ts k) = (tickAgent s).withTurns ts k := by
  cases h : tickEnabled s.tmr with
  | false => simp [tickAgent, State.withTurns, h]
  | true => simp [tickAgent, State.withTurns, State.emit, h]

@[simp] theorem seqAgent_refused (s : State) : (seqAgent s).refused = s.refused := by
  obtain ⟨l, o, es, h⟩ := seqAgent_frame s
  rw [h]

@[simp] theorem tickAgent_refused (s : State) : (tickAgent s).refused = s.refused := by
  obtain ⟨-, h⟩ | ⟨-, h⟩ := tickAgent_cases s <;> rw [h]

/-- `n` turns granted to an agent that always has a next state, does not look at the schedule and
refuses nothing are its step iterated `n` times. -/
theorem reaches_of_granted {turn : Turn} {agent : State → State}
    (hstep : ∀ s, agentStep turn s = .next (agent s))
    (hturns : ∀ s ts k, agent (s.withTurns ts k) = (agent s).withTurns ts k)
    (hrefused : ∀ s, (agent s).refused = s.refused) {n : Nat} {s : State} {rest : List Turn}
    (hs : s.refused = none) (hsched : s.sched = List.replicate n turn ++ rest) :
    reaches n s ((agent^[n] s).withTurns rest (s.turnNo + n)) := by
  induction n generalizing s with
  | zero =>
    obtain rfl : s.sched = rest := hsched
    rfl
  | succ n ih =>
    have hnext : s.nextTurn = turn := nextTurn_cons s turn _ hsched
    have htake : s.takeTurn = s.withTurns (List.replicate n turn ++ rest) (s.turnNo + 1) := by
      unfold State.takeTurn
      rw [hsched]
      rfl
    have hiter : ∀ ts k, agent^[n] ((agent s).withTurns ts k) = (agent^[n + 1] s).withTurns ts k :=
      fun ts k =>
        Function.Commute.iterate_left (g := fun u : State => u.withTurns ts k)
          (fun u => hturns u ts k) n (agent s)
    refine ⟨(agent s).withTurns (List.replicate n turn ++ rest) (s.turnNo + 1), ?_, ?_⟩
    · rw [step_eq s hs, hnext, hstep, htake, hturns]
    · have hrun := ih (s := (agent s).withTurns (List.replicate n turn ++ rest) (s.turnNo + 1))
        ((hrefused s).trans hs) rfl
      rw [hiter] at hrun
      have hcount : s.turnNo + (n + 1) = s.turnNo + 1 + n := by omega
      rw [hcount]
      exact hrun

theorem seqSteps_eq_iterate (n : Nat) (s : State) : seqSteps n s = seqAgent^[n] s := by
  induction n generalizing s with
  | zero => rfl
  | succ n ih => exact ih (seqAgent s)

theorem tickSteps_eq_iterate (n : Nat) (s : State) : tickSteps n s = tickAgent^[n] s := by
  induction n generalizing s with
  | zero => rfl
  | succ n ih => exact ih (tickAgent s)

/-- Settles O18: neither the sequencer nor the tick looks at the schedule or refuses. -/
theorem grantedTurnsRunTheAgent : Obligations.GrantedTurnsRunTheAgent := by
  refine ⟨fun n s rest hs hsched => ?_, fun n s rest hs hsched => ?_⟩
  · rw [seqSteps_eq_iterate]
    exact reaches_of_granted (fun _ => rfl) seqAgent_withTurns seqAgent_refused hs hsched
  · rw [tickSteps_eq_iterate]
    exact reaches_of_granted (fun _ => rfl) tickAgent_withTurns tickAgent_refused hs hsched

end Sys2Proof.Machine

/-! PROOF. What the sequencer makes of a list of micro-steps (R172, R174 to R177): the lists that
transfer bytes, put together from one strobe, the register-select level and the `Mark`. -/

namespace Sys2Proof.Machine

theorem seqSteps_add (m n : Nat) (s : State) : seqSteps (m + n) s = seqSteps n (seqSteps m s) := by
  simp only [seqSteps_eq_iterate, Nat.add_comm m n, Function.iterate_add_apply]

/-- The sequencer takes the micro-steps off the list one by one, and adds none. -/
theorem seqSteps_seq {ms rest : List MicroStep} {s : State} (h : s.lcd.seq = ms ++ rest) :
    (seqSteps ms.length s).lcd.seq = rest := by
  induction ms generalizing s with
  | nil => exact h
  | cons m ms ih =>
    refine ih (s := seqAgent s) ?_
    obtain ⟨l, o, es, hm, hl⟩ := microStep_frame m (s.loadSeq (ms ++ rest))
    have hstep : seqAgent s = microStep m (s.loadSeq (ms ++ rest)) := seqAgent_cons h
    rw [hstep, hm]
    exact hl

/-- From `s` to `u` the sequencer has transferred the bytes `bs` under the register-select level `rs`
with `n` strobes, the observer has read them, and the enable line is low again. -/
structure Transferred (rs : Bool) (bs : List Byte) (n : Nat) (s u : State) : Prop where
  par : u.par = s.par
  e : u.lcd.e = false
  st : u.lcd.st = s.lcd.st
  dirs : u.lcd.dirs = s.lcd.dirs
  xfers : xfersOf u.trace = xfersOf s.trace ++ bs.map (fun b => (rs, b))
  txs : (txsOf u.trace).length = (txsOf s.trace).length + n
  obs : u.obs = bs.foldl (fun o b => observe s.par.cfg rs b o) s.obs

theorem Transferred.trans {rs : Bool} {as bs : List Byte} {m n : Nat} {s t u : State}
    (h : Transferred rs as m s t) (k : Transferred rs bs n t u) :
    Transferred rs (as ++ bs) (m + n) s u where
  par := k.par.trans h.par
  e := k.e
  st := k.st.trans h.st
  dirs := k.dirs.trans h.dirs
  xfers := by rw [k.xfers, h.xfers, List.map_append, List.append_assoc]
  txs := by rw [k.txs, h.txs, Nat.add_assoc]
  obs := by rw [k.obs, h.obs, h.par, List.foldl_append]

/-- The micro-steps `ms`, begun with the enable line low, transfer the bytes `bs` with `n` strobes,
whatever follows them on the list. -/
def Transfers (rs : Bool) (bs : List Byte) (n : Nat) (ms : List MicroStep) : Prop :=
  ∀ (s : State) (rest : List MicroStep), s.lcd.e = false → s.lcd.seq = ms ++ rest →
    Transferred rs bs n s (seqSteps ms.length s)

theorem Transfers.nil (rs : Bool) : Transfers rs [] 0 [] := fun _ _ he _ =>
  ⟨rfl, he, rfl, rfl, (List.append_nil _).symm, rfl, rfl⟩

theorem Transfers.append {rs : Bool} {as bs : List Byte} {m n : Nat} {ms ns : List MicroStep}
    (h : Transfers rs as m ms) (k : Transfers rs bs n ns) :
    Transfers rs (as ++ bs) (m + n) (ms ++ ns) := by
  intro s rest he hseq
  rw [List.append_assoc] at hseq
  have hfirst := h s (ns ++ rest) he hseq
  rw [List.length_append, seqSteps_add]
  exact hfirst.trans (k _ rest hfirst.e (seqSteps_seq hseq))

/-! The three parts of a transfer -/

/-- The micro-steps before the first strobe of a transfer put the register-select level on its line
(R176, R177). -/
theorem seqSteps_select {s : State} {rs : Bool} {rest : List MicroStep}
    (h : s.lcd.seq = [.setRs rs, .wait .regSelect] ++ rest) :
    seqSteps 2 s =
      { s with
        lcd := { s.lcd with rs := rs, seq := rest }
        trace := s.trace ++ [.pin s.par.cfg.pins.lcdRs rs] } := by
  simp [seqSteps, seqAgent, h, microStep, State.emit, State.loadSeq]

/-- A strobe raises the enable line, puts the value on the bus and lowers the line again, where the
display latches (R174, R175). -/
theorem seqSteps_strobe {s : State} {v : Byte} {rest : List MicroStep}
    (h : s.lcd.seq = strobe v ++ rest) :
    seqSteps 6 s =
      { s with
        lcd := { s.lcd with e := false, b := v, seq := rest }
        trace := s.trace ++
          [.pin s.par.cfg.pins.lcdE true, .bus v, .tx s.lcd.rs s.par.cfg.busw.lines v,
            .pin s.par.cfg.pins.lcdE false] } := by
  rw [strobe] at h
  simp [seqSteps, seqAgent, h, microStep, fallEvents, State.emit, State.loadSeq]

/-- The observer takes the `Xfer` event in the step of the `Mark` (R174, log entry 14). -/
theorem seqSteps_mark {s : State} {rs : Bool} {b : Byte} {rest : List MicroStep}
    (h : s.lcd.seq = [.mark rs b] ++ rest) :
    seqSteps 1 s =
      { s with
        lcd := { s.lcd with seq := rest }
        obs := observe s.par.cfg rs b s.obs
        trace := s.trace ++ [.xfer rs b] } := by
  simp [seqSteps, seqAgent, h, microStep, State.emit, State.loadSeq]

theorem length_txsOf_append (a b : List Event) :
    (txsOf (a ++ b)).length = (txsOf a).length + (txsOf b).length := by
  rw [txsOf_append, List.length_append]

theorem transfers_select (rs : Bool) : Transfers rs [] 0 [.setRs rs, .wait .regSelect] := by
  intro s rest he hseq
  have h : seqSteps [MicroStep.setRs rs, .wait .regSelect].length s = _ := seqSteps_select hseq
  rw [h]
  exact ⟨rfl, he, rfl, rfl, xfersOf_append _ _, length_txsOf_append _ _, rfl⟩

theorem transfers_strobe (rs : Bool) (v : Byte) : Transfers rs [] 1 (strobe v) := by
  intro s rest _ hseq
  have h : seqSteps (strobe v).length s = _ := seqSteps_strobe hseq
  rw [h]
  exact ⟨rfl, rfl, rfl, rfl, xfersOf_append _ _, length_txsOf_append _ _, rfl⟩

theorem transfers_mark (rs : Bool) (b : Byte) : Transfers rs [b] 0 [.mark rs b] := by
  intro s rest he hseq
  have h : seqSteps [MicroStep.mark rs b].length s = _ := seqSteps_mark hseq
  rw [h]
  exact ⟨rfl, he, rfl, rfl, xfersOf_append _ _, length_txsOf_append _ _, rfl⟩

theorem transfers_strobes (rs : Bool) (vs : List Byte) :
    Transfers rs [] vs.length (vs.flatMap strobe) := by
  induction vs with
  | nil => exact Transfers.nil rs
  | cons v vs ih =>
    rw [List.flatMap_cons, List.length_cons, Nat.add_comm]
    exact (transfers_strobe rs v).append ih

/-- A byte takes one strobe on a full bus and two on a reduced one (R72, R73). -/
theorem length_busValues (w : BusWidth) (b : Byte) : (busValues w b).length = 8 / w.lines := by
  cases w <;> simp [busValues, BusWidth.lines]

theorem transfers_xfer (w : BusWidth) (rs : Bool) (b : Byte) :
    Transfers rs [b] (8 / w.lines) (xfer w rs b) := by
  have h := ((transfers_select rs).append (transfers_strobes rs (busValues w b))).append
    (transfers_mark rs b)
  rw [length_busValues, Nat.zero_add] at h
  exact h

theorem transfers_xfers (w : BusWidth) (rs : Bool) (bs : List Byte) :
    Transfers rs bs (bs.length * (8 / w.lines)) (bs.flatMap (xfer w rs)) := by
  induction bs with
  | nil => simpa using Transfers.nil rs
  | cons b bs ih =>
    rw [List.flatMap_cons, List.length_cons, Nat.add_comm, Nat.add_mul, Nat.one_mul]
    exact (transfers_xfer w rs b).append ih

/-- Settles O47, by induction on the bytes: each byte's list transfers it, and lists that transfer
do so one after the other. -/
theorem transfersInOrder : Obligations.TransfersInOrder := by
  intro s rs bs rest he hseq
  have h := transfers_xfers s.par.cfg.busw rs bs s rest he hseq
  exact ⟨_, rfl, seqSteps_seq hseq, h.e, h.st, h.dirs, h.xfers, h.txs, h.obs⟩

end Sys2Proof.Machine

/-! PROOF. `LCD_GOTO` (R189): the address of a position, and the issue in `Ready`. -/

namespace Sys2Proof.Machine

theorem ddramAddr_of_inside {cols : Nat} {row col : BitVec 8} {off : Nat}
    (hrow : (row.toNat, off) ∈ [(0, 0x00), (1, 0x40), (2, 0x10), (3, 0x50)])
    (hcol : col.toNat < cols) :
    ddramAddr cols row col = some (BitVec.ofNat 7 (off + col.toNat)) := by
  have hoff : rowOffset row.toNat = some off := by
    simp only [List.mem_cons, Prod.mk.injEq, List.not_mem_nil, or_false] at hrow
    rcases hrow with ⟨hr, rfl⟩ | ⟨hr, rfl⟩ | ⟨hr, rfl⟩ | ⟨hr, rfl⟩ <;> rw [hr] <;> rfl
  simp [ddramAddr, hcol, hoff]

theorem rowOffset_of_lt {row : Nat} (h : 3 < row) : rowOffset row = none := by
  match row, h with
  | row + 4, _ => rfl

theorem ddramAddr_of_outside {cols : Nat} {row col : BitVec 8}
    (h : 3 < row.toNat ∨ cols ≤ col.toNat) : ddramAddr cols row col = none := by
  rcases h with hrow | hcol
  · simp [ddramAddr, rowOffset_of_lt hrow]
  · simp [ddramAddr, Nat.not_lt.2 hcol]

/-- In the foreground and in `Ready` only the position decides (R173, R189). -/
theorem exec_lcdGoto_of_ready {s : State} {row col : BitVec 8} (hctx : s.ctx = .foreground)
    (hst : s.lcd.st = .ready) :
    exec (.lcdGoto row col) s = .next
      ((ddramAddr s.par.cfg.lcdCols row col).elim (s.refuse .cursorOutOfRange) fun addr =>
        s.loadSeq (xfer s.par.cfg.busw false (setCursorByte s.par.cfg addr))) := by
  have hin : s.inHandler = false := by simp [inHandler_eq, hctx]
  simp only [exec, execLcdGoto, hin, hst]
  cases ddramAddr s.par.cfg.lcdCols row col <;> rfl

theorem State.refuse_of_safe {s : State} {r : RefuseReason} (h : s.refused = none) :
    s.refuse r = { s with refused := some r } := by
  simp [State.refuse, h]

/-- Settles O50: inside the geometry the position has an address, outside it has none. -/
theorem lcdGotoSetsAddress : Obligations.LcdGotoSetsAddress := by
  intro s row col hs hctx hst
  refine ⟨fun off hrow hcol => ?_, fun hout => ?_⟩
  · rw [exec_lcdGoto_of_ready hctx hst, ddramAddr_of_inside hrow hcol]
    rfl
  · rw [exec_lcdGoto_of_ready hctx hst, ddramAddr_of_outside hout, ← State.refuse_of_safe hs]
    rfl

end Sys2Proof.Machine

/-! PROOF. The blocking `ADC_READ` (R122): the host's held turn and its finish step, and that on the
fairness of the converter and of the finish step the wait ends (R85, R131). While the host holds, no
turn but its own finish step ends the hold or undoes a completion; the one agent that could is the
timer's dispatch, whose callback may issue operations. -/

namespace Sys2Proof.Machine

/-- The host's turn in a blocking read: the finish step once the conversion is complete, and nothing
before (R122). -/
theorem hostAgent_of_waiting {s : State} (hseq : s.lcd.seq = []) (hwait : s.host.waiting = true) :
    hostAgent s =
      .next (if s.adc.done then (finishRead s).finishPart s.host.queue.tail else s) := by
  cases h : s.adc.done <;> simp [hostAgent, hseq, hwait, h]

/-! What a callback leaves of a read in progress -/

/-- From `s` to `t` a read in progress stays as it is: the host's wait, the conversion in flight and
its completion are untouched, an enabled converter stays enabled and its notification stays off. -/
structure KeepsRead (s t : State) : Prop where
  waiting : t.host.waiting = s.host.waiting
  busy : t.adc.busy = s.adc.busy
  done : t.adc.done = s.adc.done
  en : s.adc.en = true → t.adc.en = true
  ie : s.adc.ie = false → t.adc.ie = false

theorem KeepsRead.of_adc_eq {s t : State} (hwait : t.host.waiting = s.host.waiting)
    (hadc : t.adc = s.adc) : KeepsRead s t :=
  ⟨hwait, by rw [hadc], by rw [hadc], fun h => by rw [hadc, h], fun h => by rw [hadc, h]⟩

theorem KeepsRead.trans {s t u : State} (h : KeepsRead s t) (k : KeepsRead t u) : KeepsRead s u :=
  ⟨k.waiting.trans h.waiting, k.busy.trans h.busy, k.done.trans h.done, k.en ∘ h.en, k.ie ∘ h.ie⟩

theorem KeepsRead.issueLcd (s : State) (q : List MicroStep) : KeepsRead s (s.issueLcd q) := by
  rcases issueLcd_cases s q with ⟨-, h⟩ | ⟨-, -, h⟩ | ⟨-, -, h⟩ <;> rw [h] <;>
    exact .of_adc_eq rfl rfl

/-- In a handler under the blocking policy `ADC_READ` is refused (R249) and `ADC_CFG` leaves the
notification off (R119); no other operation touches the converter. -/
theorem exec_keepsRead {i : Instr} {s t : State} (hctx : s.ctx = .interrupt)
    (hpol : s.par.cfg.policy = .blocking) (h : exec i s = .next t) : KeepsRead s t := by
  have hblocking : s.blocking = true := by simp [blocking_eq, hpol]
  have hin : s.inHandler = true := by simp [inHandler_eq, hctx]
  cases i with
  | adcCfg ref clk trig =>
    simp only [exec, execAdcCfg, hblocking] at h
    split at h <;> cases h
    · exact .of_adc_eq rfl rfl
    · exact ⟨rfl, rfl, rfl, fun _ => rfl, fun _ => rfl⟩
  | adcRead chan =>
    simp only [exec, execAdcRead, hin, hblocking] at h
    cases h
    exact .of_adc_eq rfl rfl
  | adcTake => cases h; exact .of_adc_eq rfl rfl
  | tmrCfgPwm init top mode clk =>
    simp only [exec, execTmrCfgPwm] at h
    split at h <;> cases h <;> exact .of_adc_eq rfl rfl
  | tmrCfgPer init top mode clk =>
    simp only [exec, execTmrCfgPer] at h
    split at h <;> cases h <;> exact .of_adc_eq rfl rfl
  | tmrDuty duty =>
    simp only [exec, execTmrDuty] at h
    split at h <;> cases h <;> exact .of_adc_eq rfl rfl
  | tmrSetcb x => cases h; exact .of_adc_eq rfl rfl
  | tmrClear => cases h; exact .of_adc_eq rfl rfl
  | lcdInit =>
    simp only [exec, execLcdInit, hin] at h
    cases h
    exact .of_adc_eq rfl rfl
  | lcdCmd code => cases h; exact KeepsRead.issueLcd s _
  | lcdData byte => cases h; exact KeepsRead.issueLcd s _
  | lcdGoto row col =>
    simp only [exec, execLcdGoto, hin] at h
    cases h
    exact .of_adc_eq rfl rfl
  | lcdInt val => cases h; exact KeepsRead.issueLcd s _

theorem issueWord_keepsRead {w : Word} {s t : State} (hctx : s.ctx = .interrupt)
    (hpol : s.par.cfg.policy = .blocking) (h : issueWord w s = .next t) : KeepsRead s t := by
  unfold issueWord at h
  split at h
  · exact exec_keepsRead hctx hpol h
  · cases h; exact .of_adc_eq rfl rfl

theorem handlerAct_keepsRead {a : HandlerAct} {s t : State} (hctx : s.ctx = .interrupt)
    (hpol : s.par.cfg.policy = .blocking) (h : handlerAct a s = .next t) : KeepsRead s t := by
  cases a with
  | op i => exact exec_keepsRead hctx hpol h
  | issue w => exact issueWord_keepsRead hctx hpol h
  | gpioDir p o => cases h; exact .of_adc_eq rfl rfl
  | gpioPin p l => cases h; exact .of_adc_eq rfl rfl
  | gpioPinOf p e => cases h; exact .of_adc_eq rfl rfl
  | assign k e => cases h; exact .of_adc_eq rfl rfl

theorem runBody_keepsRead {b : List HandlerAct} {s u : State} (hctx : s.ctx = .interrupt)
    (hpol : s.par.cfg.policy = .blocking) (h : runBody b s = .next u) : KeepsRead s u := by
  induction b generalizing s with
  | nil => cases h; exact .of_adc_eq rfl rfl
  | cons a rest ih =>
    obtain ⟨t, ht, hq⟩ := handlerAct_quiet a s
    have hfirst : KeepsRead s t := handlerAct_keepsRead hctx hpol ht
    simp only [runBody, ht] at h
    split at h
    · cases h; exact hfirst
    · exact hfirst.trans (ih (hq.ctx.trans hctx) (hq.par ▸ hpol) h)

theorem tmrDispatchAgent_keepsRead {s t : State} (hpol : s.par.cfg.policy = .blocking)
    (h : tmrDispatchAgent s = .next t) : KeepsRead s t := by
  obtain ⟨-, hu⟩ | ⟨-, -, hu⟩ | ⟨-, -, u, hbody, -, hu⟩ := tmrDispatch_cases s <;>
    cases hu.symm.trans h
  · exact .of_adc_eq rfl rfl
  · exact .of_adc_eq rfl rfl
  · have hread := runBody_keepsRead (by rfl) (by exact hpol) hbody
    exact ⟨hread.waiting, hread.busy, hread.done, hread.en, hread.ie⟩

/-! A turn while the host holds -/

/-- The host holds in a blocking read of an enabled converter, whose conversion is in flight or
complete, with nothing for the sequencer to do. -/
structure State.Holding (s : State) : Prop where
  policy : s.par.cfg.policy = .blocking
  seq : s.lcd.seq = []
  waiting : s.host.waiting = true
  en : s.adc.en = true
  ie : s.adc.ie = false
  read : s.adc.busy = true ∨ s.adc.done = true

theorem State.Holding.of_keepsRead {s t : State} (h : s.Holding) (hpar : t.par = s.par)
    (hlcd : t.lcd = s.lcd) (hread : KeepsRead s t) : t.Holding where
  policy := hpar ▸ h.policy
  seq := hlcd ▸ h.seq
  waiting := hread.waiting.trans h.waiting
  en := hread.en h.en
  ie := hread.ie h.ie
  read := by rw [hread.busy, hread.done]; exact h.read

/-- No turn that leaves the host waiting touches the read, but the converter's. -/
theorem agentStep_keeps_lcd_and_read {turn : Turn} {s t : State} (hs : s.Holding)
    (h : agentStep turn s = .next t) (hwait : t.host.waiting = true)
    (hconv : ∀ v, turn ≠ .conv v) : t.lcd = s.lcd ∧ KeepsRead s t := by
  cases turn with
  | host =>
    rw [agentStep, hostAgent_of_waiting hs.seq hs.waiting] at h
    split at h <;> cases h
    · cases hwait
    · exact ⟨rfl, .of_adc_eq rfl rfl⟩
  | seq =>
    cases h
    rw [seqAgent_nil hs.seq]
    exact ⟨rfl, .of_adc_eq rfl rfl⟩
  | tick =>
    cases h
    obtain ⟨-, hu⟩ | ⟨-, hu⟩ := tickAgent_cases s <;> rw [hu] <;>
      exact ⟨rfl, .of_adc_eq rfl rfl⟩
  | conv v => exact absurd rfl (hconv v)
  | adcHandler =>
    cases h
    obtain ⟨-, hu⟩ | ⟨hreq, -⟩ := adcHandler_cases s
    · rw [hu]
      exact ⟨rfl, .of_adc_eq rfl rfl⟩
    · simp [adcRequest, hs.ie] at hreq
  | tmrDispatch => exact ⟨tmrDispatchAgent_keeps_lcd h, tmrDispatchAgent_keepsRead hs.policy h⟩

/-- A turn that leaves the host waiting leaves it holding, and a completion stands. -/
theorem agentStep_holding {turn : Turn} {s t : State} (hs : s.Holding)
    (h : agentStep turn s = .next t) (hwait : t.host.waiting = true) :
    t.Holding ∧ (s.adc.done = true → t.adc.done = true) := by
  by_cases hconv : ∃ v, turn = .conv v
  · obtain ⟨v, rfl⟩ := hconv
    cases h
    obtain ⟨-, hu⟩ | ⟨-, hu⟩ := convAgent_cases v s <;> rw [hu]
    · exact ⟨hs, id⟩
    · exact ⟨⟨hs.policy, hs.seq, hs.waiting, hs.en, hs.ie, .inr rfl⟩, fun _ => rfl⟩
  · obtain ⟨hlcd, hread⟩ := agentStep_keeps_lcd_and_read hs h hwait fun v hv => hconv ⟨v, hv⟩
    exact ⟨hs.of_keepsRead (agentStep_keeps_par h) hlcd hread, hread.done.trans⟩

theorem State.Holding.takeTurn {s : State} (h : s.Holding) : s.takeTurn.Holding :=
  ⟨h.policy, h.seq, h.waiting, h.en, h.ie, h.read⟩

theorem step_holding {s t : State} (hs : s.Holding) (h : step s = .next t)
    (hwait : t.host.waiting = true) : t.Holding ∧ (s.adc.done = true → t.adc.done = true) := by
  obtain ⟨-, hturn⟩ := agentStep_of_step h
  obtain ⟨hhold, hdone⟩ := agentStep_holding hs.takeTurn hturn hwait
  exact ⟨hhold, hdone⟩

/-- The converter's turn completes a conversion in flight (R130). -/
theorem done_of_step_conv {s t : State} {v : BitVec 10} (hen : conversionEnabled s.adc = true)
    (hturn : s.nextTurn = .conv v) (h : step s = .next t) : t.adc.done = true := by
  obtain ⟨-, hagent⟩ := agentStep_of_step h
  rw [hturn] at hagent
  cases hagent
  obtain ⟨hoff, -⟩ | ⟨-, hu⟩ := convAgent_cases v s.takeTurn
  · cases hoff.symm.trans hen
  · rw [hu]

/-- The host's turn takes the finish step where it has it (R122). -/
theorem not_waiting_of_step_finish {s t : State} (hfin : s.canFinish) (hturn : s.nextTurn = .host)
    (h : step s = .next t) : t.host.waiting = false := by
  obtain ⟨hseq, hwait, hdone⟩ := hfin
  obtain ⟨-, hagent⟩ := agentStep_of_step h
  have hhost := hostAgent_of_waiting (s := s.takeTurn) hseq hwait
  rw [State.takeTurn_adc, hdone] at hhost
  rw [hturn] at hagent
  cases hhost.symm.trans hagent
  rfl

/-! A run in which the wait never ended -/

section Run

variable {r : Nat → State} {n : Nat}

theorem holding_of_always_waiting (hrun : endlessRun r) (hn : (r n).Holding)
    (hwait : ∀ m, n < m → (r m).host.waiting = true) : ∀ m, n ≤ m → (r m).Holding := by
  intro m hm
  induction m, hm using Nat.le_induction with
  | base => exact hn
  | succ m hm ih => exact (step_holding ih (hrun m) (hwait (m + 1) (by omega))).1

theorem done_of_always_holding (hrun : endlessRun r) (hhold : ∀ m, n ≤ m → (r m).Holding)
    (hdone : (r n).adc.done = true) : ∀ m, n ≤ m → (r m).adc.done = true := by
  intro m hm
  induction m, hm using Nat.le_induction with
  | base => exact hdone
  | succ m hm ih =>
    exact (step_holding (hhold m hm) (hrun m) (hhold (m + 1) (by omega)).waiting).2 ih

/-- A converter that is fair completes, if the host holds for ever. -/
theorem exists_done_of_always_holding (hrun : endlessRun r) (hfair : fairConversion r)
    (hhold : ∀ m, n ≤ m → (r m).Holding) : ∃ m, n ≤ m ∧ (r m).adc.done = true := by
  by_contra hnone
  have hpending : ∀ m, n ≤ m → conversionEnabled (r m).adc = true := fun m hm => by
    have hbusy : (r m).adc.busy = true := (hhold m hm).read.resolve_right fun hd => hnone ⟨m, hm, hd⟩
    simp [conversionEnabled, hbusy, (hhold m hm).en]
  obtain ⟨m, v, hm, hturn⟩ := hfair n hpending
  exact hnone ⟨m + 1, by omega, done_of_step_conv (hpending m hm) hturn (hrun m)⟩

/-- The host does not hold for ever: the converter completes, and then the finish step comes. -/
theorem not_always_holding (hrun : endlessRun r) (hconv : fairConversion r) (hfin : fairFinish r) :
    ¬ ∀ m, n ≤ m → (r m).Holding := by
  intro hhold
  obtain ⟨k, hk, hdone⟩ := exists_done_of_always_holding hrun hconv hhold
  have hholdk : ∀ m, k ≤ m → (r m).Holding := fun m hm => hhold m (hk.trans hm)
  have hready : ∀ m, k ≤ m → (r m).canFinish := fun m hm =>
    ⟨(hholdk m hm).seq, (hholdk m hm).waiting, done_of_always_holding hrun hholdk hdone m hm⟩
  obtain ⟨m, hm, hturn⟩ := hfin k hready
  have hend := not_waiting_of_step_finish (hready m hm) hturn (hrun m)
  have hwait := (hholdk (m + 1) (by omega)).waiting
  cases hend.symm.trans hwait

end Run

/-- Settles O22: the host's turn by its own equation; and a wait that never ended would leave the
host holding for ever. -/
theorem blockingReadWaitsAndFinishes : Obligations.BlockingReadWaitsAndFinishes := by
  refine ⟨fun s hs hturn hseq hwait => ?_, ?_⟩
  · have hhost := hostAgent_of_waiting (s := s.takeTurn) hseq hwait
    rw [step_eq s hs, hturn]
    exact hhost
  · intro r n hrun hconv hfin hpol hok hseq hwait hen hread
    obtain ⟨hie, -⟩ := hok hpol
    by_contra hnever
    have hwaiting : ∀ m, n < m → (r m).host.waiting = true := fun m hm =>
      Bool.of_not_eq_false fun hend => hnever ⟨m, hm, hend⟩
    exact not_always_holding hrun hconv hfin
      (holding_of_always_waiting hrun ⟨hpol, hseq, hwait, hen, hie, hread⟩ hwaiting)

end Sys2Proof.Machine

/-! PROOF. The decoder and the encoder (R88 to R92, R108, R109): the fields of a word, what a decode
answers, and that encoder and decoder are inverse to each other. -/

namespace Sys2Proof

/-! The fields of a word -/

/-- Two fields that touch are one field. -/
theorem field_append_field (w : Word) {hi lo m n : Nat} (h : hi = lo + n) :
    field w hi m ++ field w lo n = field w lo (m + n) :=
  BitVec.extractLsb'_append_extractLsb'_eq_extractLsb' h

theorem field_whole (w : Word) : field w 0 32 = w :=
  BitVec.extractLsb'_eq_self

/-- A word is its opcode and the 28 bits below (R90). -/
theorem field_opcode_append_operand (w : Word) : field w 28 4 ++ field w 0 28 = w :=
  (field_append_field w rfl).trans (field_whole w)

/-- The bits from `n` up to the opcode are zero exactly when the bits below the opcode are a number
of `n` bits. -/
theorem field_eq_zero_iff (w : Word) {n m : Nat} (h : n + m = 28) :
    field w n m = 0#m ↔ (field w 0 28).toNat < 2 ^ n := by
  have hpow : 2 ^ n * 2 ^ m = 2 ^ 28 := by rw [← Nat.pow_add, h]
  have hlow : (field w 0 28).toNat = w.toNat % (2 ^ n * 2 ^ m) := by
    simp [field, hpow]
  have hfield : (field w n m).toNat = (field w 0 28).toNat / 2 ^ n := by
    rw [hlow, Nat.mod_mul_right_div_self, ← Nat.shiftRight_eq_div_pow]
    exact BitVec.extractLsb'_toNat n m w
  rw [← BitVec.toNat_inj, hfield, BitVec.toNat_ofNat, Nat.zero_mod, Nat.div_eq_zero_iff]
  exact or_iff_right (Nat.two_pow_pos n).ne'

theorem shiftRight_ne_zero_iff {k : Nat} (x : BitVec k) (n : Nat) :
    x >>> n ≠ 0#k ↔ 2 ^ n ≤ x.toNat := by
  rw [Ne, ← BitVec.toNat_inj, BitVec.toNat_ushiftRight, BitVec.toNat_ofNat, Nat.zero_mod,
    Nat.shiftRight_eq_div_pow, Nat.div_eq_zero_iff, or_iff_right (Nat.two_pow_pos n).ne',
    Nat.not_lt]

/-- A width that is a parameter cuts what lies below the opcode (R90). -/
theorem lowField_eq (w : Word) {n : Nat} (h : (field w 0 28).toNat < 2 ^ n) :
    lowField w n = field w 0 28 := by
  have hcut : w.toNat % 2 ^ n % 2 ^ 28 = w.toNat % 2 ^ 28 % 2 ^ n := by
    apply Nat.eq_of_testBit_eq
    intro k
    simp only [Nat.testBit_mod_two_pow, Bool.and_left_comm]
  have hbody : (field w 0 28).toNat = w.toNat % 2 ^ 28 := BitVec.extractLsb'_toNat 0 28 w
  apply BitVec.eq_of_toNat_eq
  rw [lowField, BitVec.toNat_ofNat, hcut, ← hbody, Nat.mod_eq_of_lt h]

/-! What a decode answers -/

theorem decode_of_reservedOpcode {c : Config} {w : Word} (h : operandBits c (field w 28 4) = none) :
    decode c w = .error .reservedOpcode := by
  simp [decode, h]

theorem decode_of_reservedBits {c : Config} {w : Word} {n : Nat}
    (hbits : operandBits c (field w 28 4) = some n) (hset : 2 ^ n ≤ (field w 0 28).toNat) :
    decode c w = .error .reservedBits := by
  have hne := (shiftRight_ne_zero_iff (field w 0 28) n).2 hset
  simp [decode, hbits, hne]

/-- A word decodes when its opcode has a format and the bits above the format's operands are zero
(R91). -/
theorem decode_eq_ok_iff {c : Config} {w : Word} {i : Instr} :
    decode c w = .ok i ↔ ∃ n, operandBits c (field w 28 4) = some n
      ∧ (field w 0 28).toNat < 2 ^ n ∧ cutFields c (field w 28 4) w = some i := by
  unfold decode
  cases hbits : operandBits c (field w 28 4) with
  | none => simp
  | some n =>
    simp only [shiftRight_ne_zero_iff]
    by_cases hset : 2 ^ n ≤ (field w 0 28).toNat
    · simp [hset]
    · cases cutFields c (field w 28 4) w <;> simp [hset, Nat.lt_of_not_le]

/-! From the word to the operation and back -/

/-- A word of a format whose operands are its low `n` bits, put together again. -/
theorem word_of_format {w : Word} {opcode : BitVec 4} {n m : Nat}
    (hop : field w 28 4 = opcode) (hlow : (field w 0 28).toNat < 2 ^ n) (hnm : n + m = 28) :
    opcode ++ 0#m = field w n (4 + m) := by
  rw [← hop, ← (field_eq_zero_iff w hnm).2 hlow]
  exact field_append_field w hnm.symm

/-- A word whose operand is a parameter's width is its opcode and the operand. -/
theorem word_of_lowField {w : Word} {opcode : BitVec 4} {n : Nat}
    (hop : field w 28 4 = opcode) (hlow : (field w 0 28).toNat < 2 ^ n) :
    opcode ++ lowField w n = w := by
  rw [lowField_eq w hlow, ← hop, field_opcode_append_operand]

/-- The operation whose fields are cut from a word of the opcode's format has that word, and its
operands fit: the bits above them are zero (R90, R109). The seventh and the thirteenth opcode,
`TMR_SETCB` and `LCD_INT`, have the operands whose width is a parameter. -/
theorem encode_of_cutFields {c : Config} {w : Word} {i : Instr} {n : Nat}
    (hbits : operandBits c (field w 28 4) = some n) (hlow : (field w 0 28).toNat < 2 ^ n)
    (hcut : cutFields c (field w 28 4) w = some i) : encode i = w ∧ i.fits c = true := by
  generalize hop : field w 28 4 = opcode at hbits hcut
  unfold cutFields at hcut
  split at hcut <;> cases hcut <;> cases hbits
  case h_7 | h_13 =>
    exact ⟨word_of_lowField hop hlow, by simpa [Instr.fits, lowField_eq w hlow] using hlow⟩
  all_goals
    refine ⟨?_, rfl⟩
    simp only [encode, word_of_format hop hlow, field_append_field]
    exact field_whole w

/-- Settles O3: the fields that were cut, put together again, are the word. -/
theorem encodeOfDecode : Obligations.EncodeOfDecode := by
  intro c w i h
  obtain ⟨n, hbits, hlow, hcut⟩ := decode_eq_ok_iff.1 h
  exact encode_of_cutFields hbits hlow hcut

/-- The opcode of an operation's row in the table of R89. -/
def Instr.opcode : Instr → BitVec 4
  | .adcCfg _ _ _ => 0x0#4
  | .adcRead _ => 0x1#4
  | .adcTake => 0x2#4
  | .tmrCfgPwm _ _ _ _ => 0x4#4
  | .tmrCfgPer _ _ _ _ => 0x5#4
  | .tmrDuty _ => 0x6#4
  | .tmrSetcb _ => 0x7#4
  | .tmrClear => 0x8#4
  | .lcdInit => 0xA#4
  | .lcdCmd _ => 0xB#4
  | .lcdData _ => 0xC#4
  | .lcdGoto _ _ => 0xD#4
  | .lcdInt _ => 0xE#4

@[simp] theorem field_encode_opcode (i : Instr) : field (encode i) 28 4 = i.opcode := by
  cases i <;> simp (disch := decide) only [encode, field, BitVec.extractLsb'_append_eq_of_le,
    Instr.opcode]
  all_goals rfl

theorem field_operand (opcode : BitVec 4) (x : BitVec 28) : field (opcode ++ x) 0 28 = x :=
  BitVec.extractLsb'_append_eq_right

theorem lowField_operand (opcode : BitVec 4) {x : BitVec 28} {n : Nat} (h : x.toNat < 2 ^ n) :
    lowField (opcode ++ x) n = x := by
  have hx := field_operand opcode x
  rw [lowField_eq (opcode ++ x) (hx.symm ▸ h), hx]

/-- The word of an operation meets the format of its opcode: the bits above the operands are zero
(R90). -/
theorem encode_meets_format {c : Config} {i : Instr} (hfits : i.fits c = true) :
    ∃ n, operandBits c i.opcode = some n ∧ (field (encode i) 0 28).toNat < 2 ^ n := by
  cases i with
  | tmrSetcb h =>
    exact ⟨c.handlerW, rfl, (field_operand 0x7#4 h).symm ▸ of_decide_eq_true hfits⟩
  | lcdInt v => exact ⟨c.intW, rfl, (field_operand 0xE#4 v).symm ▸ of_decide_eq_true hfits⟩
  | adcTake | tmrClear | lcdInit => exact ⟨0, rfl, by decide⟩
  | adcCfg | adcRead | tmrDuty | lcdCmd | lcdData =>
    refine ⟨8, rfl, (field_eq_zero_iff _ (m := 20) rfl).1 ?_⟩
    simp (disch := decide) only [encode, field, BitVec.extractLsb'_append_eq_of_le,
      BitVec.extractLsb'_append_eq_right, Nat.reduceSub, Nat.sub_self]
  | tmrCfgPwm | tmrCfgPer =>
    refine ⟨21, rfl, (field_eq_zero_iff _ (m := 7) rfl).1 ?_⟩
    simp (disch := decide) only [encode, field, BitVec.extractLsb'_append_eq_of_le,
      BitVec.extractLsb'_append_eq_right, Nat.reduceSub, Nat.sub_self]
  | lcdGoto =>
    refine ⟨16, rfl, (field_eq_zero_iff _ (m := 12) rfl).1 ?_⟩
    simp (disch := decide) only [encode, field, BitVec.extractLsb'_append_eq_of_le,
      BitVec.extractLsb'_append_eq_right, Nat.reduceSub, Nat.sub_self]

/-- The fields cut from the word of an operation are its operands (R90). -/
theorem cutFields_encode {c : Config} {i : Instr} (hfits : i.fits c = true) :
    cutFields c i.opcode (encode i) = some i := by
  cases i with
  | tmrSetcb h =>
    exact congrArg (some ∘ Instr.tmrSetcb) (lowField_operand 0x7#4 (of_decide_eq_true hfits))
  | lcdInt v =>
    exact congrArg (some ∘ Instr.lcdInt) (lowField_operand 0xE#4 (of_decide_eq_true hfits))
  | _ =>
    simp (disch := decide) only [encode, field, cutFields, Instr.opcode,
      BitVec.extractLsb'_append_eq_of_le, BitVec.extractLsb'_append_eq_of_add_le,
      BitVec.extractLsb'_eq_self, Nat.reduceSub, Nat.sub_self]

/-- Settles O2: the word of an operation has the operation's opcode, meets its format and holds its
operands in the fields. -/
theorem decodeOfEncode : Obligations.DecodeOfEncode := by
  intro c i hfits
  obtain ⟨n, hbits, hlow⟩ := encode_meets_format hfits
  rw [decode_eq_ok_iff, field_encode_opcode]
  exact ⟨n, hbits, hlow, cutFields_encode hfits⟩

end Sys2Proof

/-! PROOF. The opcode table (R89, R92): the match of a row is its opcode, and its mask leaves out
the operand bits of the opcode's format. Then the written-out words of 95_test_vectors.md. -/

namespace Sys2Proof

theorem getLsbD_maskAbove {n k : Nat} (hk : k < 32) :
    (maskAbove n).getLsbD k = decide (n ≤ k) := by
  have hones : (BitVec.ofNat 32 (2 ^ n - 1)).getLsbD k = decide (k < n) := by
    rw [BitVec.getLsbD_ofNat, Nat.testBit_two_pow_sub_one, decide_eq_true hk, Bool.true_and]
  rw [maskAbove, BitVec.getLsbD_not, hones, decide_eq_true hk, Bool.true_and, ← decide_not]
  exact decide_eq_decide.2 Nat.not_lt

@[simp] theorem maskAbove_zero : maskAbove 0 = 0xFFFFFFFF#32 := by decide

@[simp] theorem maskAbove_eight : maskAbove 8 = 0xFFFFFF00#32 := by decide

@[simp] theorem maskAbove_sixteen : maskAbove 16 = 0xFFFF0000#32 := by decide

@[simp] theorem maskAbove_twentyOne : maskAbove 21 = 0xFFE00000#32 := by decide

/-- A row's mask with the operand's bits left out selects the words of the row's opcode whose bits
between the operand and the opcode are zero (R92). -/
theorem and_maskAbove_eq_iff {w : Word} {opcode : BitVec 4} {n : Nat} (hn : n ≤ 28) :
    w &&& maskAbove n = opcode ++ 0#28
      ↔ field w 28 4 = opcode ∧ (field w 0 28).toNat < 2 ^ n := by
  constructor
  · intro h
    have hbit : ∀ k, n ≤ k → k < 32 →
        w.getLsbD k = if k < 28 then (0#28).getLsbD k else opcode.getLsbD (k - 28) :=
      fun k hnk hk => by
        have hand : (w &&& maskAbove n).getLsbD k = w.getLsbD k := by
          rw [BitVec.getLsbD_and, getLsbD_maskAbove hk, decide_eq_true hnk, Bool.and_true]
        rw [← hand, h]
        exact BitVec.getLsbD_append
    constructor
    · ext k hk
      simpa [field, BitVec.getLsbD_eq_getElem hk] using hbit (28 + k) (by omega) (by omega)
    · refine Nat.lt_pow_two_of_testBit _ fun k hnk => ?_
      rw [BitVec.testBit_toNat]
      by_cases hk : k < 28
      · simpa [field, hk] using hbit k hnk (by omega)
      · exact BitVec.getLsbD_of_ge _ _ (by omega)
  · rintro ⟨rfl, hlow⟩
    rw [← Laws.EncodeMatches.and_maskAbove (field w 28 4) (field w 0 28) n hn hlow,
      field_opcode_append_operand]

/-- No format of a legal choice of the widths reaches into the opcode (R90). -/
theorem operandBits_le {c : Config} (hw : c.widthsOk = true) {opcode : BitVec 4} {n : Nat}
    (h : operandBits c opcode = some n) : n ≤ 28 := by
  simp only [Config.widthsOk, Bool.and_eq_true, decide_eq_true_eq] at hw
  obtain ⟨⟨-, hint⟩, -, hhandler⟩ := hw
  unfold operandBits at h
  split at h <;> cases h
  case h_7 => exact hhandler
  case h_13 => exact hint
  all_goals decide

theorem matchMask_fst (c : Config) (i : Instr) : (matchMask c i).1 = i.opcode ++ 0#28 := by
  cases i <;> simp only [matchMask, Instr.opcode] <;> decide

theorem matchMask_snd (c : Config) (i : Instr) :
    ∃ n, operandBits c i.opcode = some n ∧ (matchMask c i).2 = maskAbove n := by
  cases i <;> exact ⟨_, rfl, by simp [matchMask]⟩

/-- The row of an operation is the row of its opcode. -/
theorem matchMask_of_opcode_eq {c : Config} {i j : Instr} (h : i.opcode = j.opcode) :
    matchMask c i = matchMask c j := by
  obtain ⟨m, hm, hi⟩ := matchMask_snd c i
  obtain ⟨n, hn, hj⟩ := matchMask_snd c j
  obtain rfl : m = n := Option.some.inj (hm.symm.trans (h ▸ hn))
  exact Prod.ext (by rw [matchMask_fst, matchMask_fst, h]) (hi.trans hj.symm)

theorem cutFields_of_operandBits {c : Config} {opcode : BitVec 4} {n : Nat} (w : Word)
    (h : operandBits c opcode = some n) : ∃ i, cutFields c opcode w = some i := by
  unfold operandBits at h
  split at h <;> cases h <;> exact ⟨_, rfl⟩

/-- A word meets the match and the mask of a row exactly when it decodes as an operation of the row
(R92). -/
theorem meets_row_iff {c : Config} (hw : c.widthsOk = true) {w : Word} {i : Instr} :
    w &&& (matchMask c i).2 = (matchMask c i).1
      ↔ ∃ j, decode c w = .ok j ∧ j.opcode = i.opcode := by
  obtain ⟨n, hbits, hmask⟩ := matchMask_snd c i
  rw [hmask, matchMask_fst, and_maskAbove_eq_iff (operandBits_le hw hbits)]
  constructor
  · rintro ⟨hop, hlow⟩
    rw [← hop] at hbits
    obtain ⟨j, hcut⟩ := cutFields_of_operandBits w hbits
    have hj : decode c w = .ok j := decode_eq_ok_iff.2 ⟨n, hbits, hlow, hcut⟩
    obtain ⟨rfl, -⟩ := encodeOfDecode c w j hj
    exact ⟨j, hj, (field_encode_opcode j).symm.trans hop⟩
  · rintro ⟨j, hj, hop⟩
    obtain ⟨m, hm, hlow, -⟩ := decode_eq_ok_iff.1 hj
    obtain ⟨rfl, -⟩ := encodeOfDecode c w j hj
    rw [field_encode_opcode, hop] at hm
    obtain rfl : n = m := Option.some.inj (hbits.symm.trans hm)
    exact ⟨(field_encode_opcode j).trans hop, hlow⟩

/-- Settles O4: a word meets a row exactly when it decodes as an operation of the row's opcode, and
the row is the opcode's. -/
theorem matchMaskSelects : Obligations.MatchMaskSelects := by
  refine ⟨fun c w i hw h => ?_, fun c w i hw h => ?_, fun c => ?_, fun c i hhandler hint => ?_⟩
  · exact (meets_row_iff hw).2 ⟨i, h, rfl⟩
  · obtain ⟨j, hj, hop⟩ := (meets_row_iff hw).1 h
    exact ⟨j, hj, matchMask_of_opcode_eq hop⟩
  · simp [matchMask]
  · cases i <;> simp [matchMask, hhandler, hint]

/-! Written-out words -/

/-- Settles O1: the decoder is evaluated at each word. -/
theorem sampleWordsDecode : Obligations.SampleWordsDecode :=
  ⟨⟨⟨rfl, rfl, rfl, rfl, rfl, rfl, rfl⟩, rfl, rfl, rfl, rfl, rfl, rfl, rfl⟩, rfl, rfl⟩

end Sys2Proof

/-! PROOF. The issue of a reserved encoding (R108, R109). -/

namespace Sys2Proof.Machine

/-- The issue of a word that does not decode refuses, and the host's part is not finished (R234). -/
theorem step_of_decodeError {s : State} {w : Word} {e : DecodeError} (h : s.issues w)
    (hdec : decode s.par.cfg w = .error e) :
    step s = .next { s.takeTurn with refused := some (decodeReason e) } := by
  obtain ⟨⟨hrun, -⟩, -⟩ := id h
  have hsafe : s.takeTurn.refused = none := hrun
  have hword : issueWord w s.takeTurn = .next (s.takeTurn.refuse (decodeReason e)) := by
    simp [issueWord, hdec]
  rw [step_of_issues h, hword, afterIssue_next, State.refuse_of_safe hsafe]
  rfl

/-- A set bit between the low `n` bits and the opcode makes what lies below the opcode too great for
`n` bits. -/
theorem le_of_field_ne_zero {w : Word} {n m : Nat} (hset : w.extractLsb' n m ≠ 0)
    (h : n + m = 28) : 2 ^ n ≤ (field w 0 28).toNat :=
  Nat.not_lt.1 fun hlow => hset ((field_eq_zero_iff w h).2 hlow)

/-- Settles O5: a reserved opcode has no format; in the other cases the format of the opcode leaves
out the bits that are set. -/
theorem reservedEncodingsRefused : Obligations.ReservedEncodingsRefused := by
  intro s w h
  refine ⟨fun hop => ?_, fun hcase => ?_⟩
  · have hreserved : ∀ o ∈ [0x3#4, 0x9#4, 0xF#4], operandBits s.par.cfg o = none := by
      simp [operandBits]
    exact step_of_decodeError h (decode_of_reservedOpcode (hreserved _ hop))
  · have hrefused : ∀ n, operandBits s.par.cfg (field w 28 4) = some n →
        2 ^ n ≤ (field w 0 28).toNat →
        step s = .next { s.takeTurn with refused := some .reservedBits } := fun n hn hset =>
      step_of_decodeError h (decode_of_reservedBits hn hset)
    rcases hcase with
      ⟨hop, hset⟩ | ⟨hop, hset⟩ | ⟨hop, hset⟩ | ⟨hop, hset⟩ | ⟨hop, hset⟩ | ⟨hop, hset⟩
    · have hformat : ∀ o ∈ [0x2#4, 0x8#4, 0xA#4], operandBits s.par.cfg o = some 0 := by
        simp [operandBits]
      exact hrefused 0 (hformat _ hop) (le_of_field_ne_zero hset rfl)
    · have hformat : ∀ o ∈ [0x0#4, 0x1#4, 0x6#4, 0xB#4, 0xC#4],
          operandBits s.par.cfg o = some 8 := by
        simp [operandBits]
      exact hrefused 8 (hformat _ hop) (le_of_field_ne_zero hset rfl)
    · exact hrefused _ (congrArg (operandBits s.par.cfg) hop) hset
    · have hformat : ∀ o ∈ [0x4#4, 0x5#4], operandBits s.par.cfg o = some 21 := by
        simp [operandBits]
      exact hrefused 21 (hformat _ hop) (le_of_field_ne_zero hset rfl)
    · exact hrefused 16 (congrArg (operandBits s.par.cfg) hop) (le_of_field_ne_zero hset rfl)
    · exact hrefused _ (congrArg (operandBits s.par.cfg) hop) hset

end Sys2Proof.Machine

/-! PROOF. One transfer (R103, R174 to R177): the sequencer's run of its micro-steps, put together
from the register-select level, one strobe for each bus value and the `Mark`. -/

namespace Sys2Proof.Machine

/-- The two nibbles of a byte, as a reduced bus carries them (R73). -/
theorem busValues_four (b : Byte) : busValues .four b = [b >>> 4, b &&& 0x0F#8] := by
  have hhigh : (b.extractLsb' 4 4).setWidth 8 = b >>> 4 := by
    apply BitVec.eq_of_toNat_eq
    have hb := b.isLt
    simp only [BitVec.toNat_setWidth, BitVec.extractLsb'_toNat, BitVec.toNat_ushiftRight,
      Nat.shiftRight_eq_div_pow]
    omega
  have hlow : (b.extractLsb' 0 4).setWidth 8 = b &&& 0x0F#8 := by
    apply BitVec.eq_of_toNat_eq
    have hand : b.toNat &&& 15 = b.toNat % 2 ^ 4 := Nat.and_two_pow_sub_one_eq_mod b.toNat 4
    simp only [BitVec.toNat_setWidth, BitVec.extractLsb'_toNat, BitVec.toNat_and,
      BitVec.toNat_ofNat, Nat.shiftRight_zero, Nat.reducePow, Nat.reduceMod, hand]
    omega
  simp only [busValues, hhigh, hlow]

/-- A transfer is the level, the strobes of the bus values and the `Mark`, before what follows. -/
theorem xfer_append (w : BusWidth) (rs : Bool) (b : Byte) (rest : List MicroStep) :
    xfer w rs b ++ rest = [.setRs rs, .wait .regSelect]
      ++ ((busValues w b).flatMap strobe ++ ([.mark rs b] ++ rest)) := by
  simp [xfer]

/-- Settles O46: the runs of the parts of the transfer, one after the other; a full bus takes one
strobe and a reduced bus two. -/
theorem transferEvents : Obligations.TransferEvents := by
  intro s rs b rest he hseq
  rw [xfer_append] at hseq
  refine ⟨fun hw => ?_, fun hw => ?_⟩
  · have hsplit : seqSteps 9 s = seqSteps 1 (seqSteps 6 (seqSteps 2 s)) := by
      rw [← seqSteps_add, ← seqSteps_add]
    rw [hw] at hseq
    rw [hsplit, seqSteps_select hseq, seqSteps_strobe rfl, seqSteps_mark rfl]
    simp [hw, he, BusWidth.lines]
  · have hsplit : seqSteps 15 s = seqSteps 1 (seqSteps 6 (seqSteps 6 (seqSteps 2 s))) := by
      rw [← seqSteps_add, ← seqSteps_add, ← seqSteps_add]
    have hstrobes : (busValues .four b).flatMap strobe
        = strobe (b >>> 4) ++ strobe (b &&& 0x0F#8) := by
      simp [busValues_four]
    rw [hw, hstrobes, List.append_assoc] at hseq
    rw [hsplit, seqSteps_select hseq, seqSteps_strobe rfl, seqSteps_strobe rfl, seqSteps_mark rfl]
    simp [hw, he, BusWidth.lines]

end Sys2Proof.Machine

/-! PROOF. `LCD_INT` (R195): the text of the operand, and the issue in `Ready`. -/

namespace Sys2Proof.Machine

theorem decimalText_eq (c : Config) (v : Int) :
    decimalText c v
      = (if v < 0 then [c.glyphMinus] else []) ++ (digits v.natAbs).map (digitGlyph c) := by
  unfold decimalText
  split <;> rfl

/-- In the foreground and in `Ready` the list is loaded (R173). -/
theorem issueLcd_of_ready {s : State} (hctx : s.ctx = .foreground) (hst : s.lcd.st = .ready)
    (q : List MicroStep) : s.issueLcd q = s.loadSeq q := by
  rcases issueLcd_cases s q with ⟨hint, -⟩ | ⟨-, hnot, -⟩ | ⟨-, -, h⟩
  · cases hctx.symm.trans hint
  · exact absurd hst hnot
  · exact h

/-- Settles O51: the list that is loaded transfers the decimal text of the operand's value. -/
theorem lcdIntLoadsText : Obligations.LcdIntLoadsText := by
  rintro s val v hctx hst rfl
  simp only [exec, execLcdInt, issueLcd_of_ready hctx hst, decimalText_eq]
  rfl

end Sys2Proof.Machine

/-! PROOF. The converter's operations and agents (R119 to R126, R130, R240): what each operation
answers, said once by its cases; what the converter's turn does; a read run from its issue to its
end under either policy; and configurations issued twice (R120, R142, R150). -/

namespace Sys2Proof.Machine

/-! The operations of the converter -/

/-- The notification is on exactly under the latched policy (R119). -/
theorem not_blocking_eq (s : State) : (!s.blocking) = decide (s.par.cfg.policy = .latched) := by
  rw [blocking_eq]
  cases s.par.cfg.policy <;> rfl

theorem effectiveChannel_eq (chan : BitVec 8) :
    effectiveChannel chan = (chan &&& 0x07#8).setWidth 3 := by
  rw [effectiveChannel, BitVec.setWidth_and]
  exact BitVec.and_allOnes.symm

/-- `ADC_CFG`: the reserved reference refused, or the selectors copied (R119). -/
theorem exec_adcCfg_cases (ref : BitVec 2) (clk trig : BitVec 3) (s : State) :
    (ref = 2#2 ∧ exec (.adcCfg ref clk trig) s = .next (s.refuse .reservedReference))
      ∨ (ref ≠ 2#2 ∧ exec (.adcCfg ref clk trig) s = .next
          { s with adc :=
            { s.adc with
              ref := ref, clk := clk, trig := trig, en := true
              ie := decide (s.par.cfg.policy = .latched) } }) := by
  by_cases h : ref = 2#2
  · exact .inl ⟨h, by simp [exec, execAdcCfg, refReserved, h]⟩
  · exact .inr ⟨h, by simp [exec, execAdcCfg, refReserved, h, not_blocking_eq]⟩

/-- The state in which a read of the channel has been started (R121); under the blocking policy the
host waits (R122). -/
def State.startRead (s : State) (chan : BitVec 8) : State :=
  { s with
    adc := { s.adc with chan := (chan &&& 0x07#8).setWidth 3, busy := true }
    host :=
      { s.host with waiting := if s.par.cfg.policy = .blocking then true else s.host.waiting }
    trace := s.trace ++ [.adcStart ((chan &&& 0x07#8).setWidth 3)] }

/-- `ADC_READ`: refused in a handler under the blocking policy (R249), refused while a conversion is
in flight (R125), or started (R121). -/
theorem exec_adcRead_cases (chan : BitVec 8) (s : State) :
    ((s.ctx = .interrupt ∧ s.par.cfg.policy = .blocking)
        ∧ exec (.adcRead chan) s = .next (s.refuse .handlerBlocking))
      ∨ (¬(s.ctx = .interrupt ∧ s.par.cfg.policy = .blocking) ∧ s.adc.busy = true
          ∧ exec (.adcRead chan) s = .next (s.refuse .readWhileBusy))
      ∨ (¬(s.ctx = .interrupt ∧ s.par.cfg.policy = .blocking) ∧ s.adc.busy = false
          ∧ exec (.adcRead chan) s = .next (s.startRead chan)) := by
  by_cases h : s.ctx = .interrupt ∧ s.par.cfg.policy = .blocking
  · exact .inl ⟨h, by simp [exec, execAdcRead, inHandler_eq, blocking_eq, h]⟩
  · have hguard : (s.inHandler && s.blocking) = false := by
      simpa [inHandler_eq, blocking_eq] using h
    cases hb : s.adc.busy with
    | true => exact .inr (.inl ⟨h, rfl, by simp [exec, execAdcRead, hguard, hb]⟩)
    | false =>
      refine .inr (.inr ⟨h, rfl, ?_⟩)
      simp only [exec, execAdcRead, hguard, hb, effectiveChannel_eq]
      by_cases hp : s.par.cfg.policy = .blocking <;>
        simp [State.startRead, State.emit, blocking_eq, hp]

/-- Settles O20: the two cases of the operation, a refusal of a safe run recording its reason. -/
theorem adcCfgWritesSelectors : Obligations.AdcCfgWritesSelectors := by
  intro ref clk trig s hs
  rcases exec_adcCfg_cases ref clk trig s with ⟨href, h⟩ | ⟨href, h⟩ <;> rw [h]
  · rw [if_pos href, State.refuse_of_safe hs]
  · rw [if_neg href]

/-- Settles O21: outside a handler under the blocking policy two of the three cases remain. -/
theorem adcReadStartsConversion : Obligations.AdcReadStartsConversion := by
  intro chan s hs hcontext
  have hguard : ¬(s.ctx = .interrupt ∧ s.par.cfg.policy = .blocking) := by
    rintro ⟨hctx, hpol⟩
    simp [hctx, hpol] at hcontext
  rcases exec_adcRead_cases chan s with ⟨hno, -⟩ | ⟨-, hbusy, h⟩ | ⟨-, hbusy, h⟩
  · exact absurd hno hguard
  · rw [h, if_pos hbusy, State.refuse_of_safe hs]
  · rw [h, hbusy]
    rfl

/-- Settles O24: the response is the cell as an optional value, in the word form of R93. -/
theorem adcTakeReadsCell : Obligations.AdcTakeReadsCell := by
  intro s
  cases hv : s.adc.cellValid <;> simp [exec, execAdcTake, cellRead, takenWord, State.respond, hv]

/-- Settles O25: the turn is the converter's, which is enabled when both flags are up. -/
theorem conversionCompletes : Obligations.ConversionCompletes := by
  intro s v hs hturn
  have hstep : step s = .next (convAgent v s.takeTurn) := by rw [step_eq s hs, hturn]; rfl
  rw [hstep]
  obtain ⟨hen, h⟩ | ⟨hen, h⟩ := convAgent_cases v s.takeTurn <;>
    simp only [conversionEnabled, State.takeTurn_adc, Bool.and_eq_true, Bool.and_eq_false_iff]
      at hen
  · rw [h, if_neg fun ⟨hbusy, hon⟩ => by simp [hbusy, hon] at hen]
  · rw [h, if_pos hen]
    rfl

/-! A read from its issue to its end -/

/-- A host that is free starts the read that it issues; the entry is finished unless the host now
waits for it (R80, R122). -/
theorem step_of_issues_adcRead {s : State} {w : Word} {chan : BitVec 8} (h : s.issues w)
    (hdecode : decode s.par.cfg w = .ok (.adcRead chan)) (hctx : s.ctx = .foreground)
    (hbusy : s.adc.busy = false) :
    step s = .next
      (if s.par.cfg.policy = .blocking then s.takeTurn.startRead chan
        else (s.takeTurn.startRead chan).finishPart []) := by
  have hexec : exec (.adcRead chan) s.takeTurn = .next (s.takeTurn.startRead chan) := by
    rcases exec_adcRead_cases chan s.takeTurn with ⟨⟨hint, -⟩, -⟩ | ⟨-, hb, -⟩ | ⟨-, -, he⟩
    · cases hctx.symm.trans hint
    · cases hbusy.symm.trans hb
    · exact he
  have hword : issueWord w s.takeTurn = exec (.adcRead chan) s.takeTurn :=
    issueWord_of_decode hdecode
  rw [step_of_issues h, hword, hexec, afterIssue_next]
  obtain ⟨⟨hrun, -, -, hwait, -⟩, -⟩ := h
  simp [State.startRead, hrun, hwait]

/-- The converter's turn, with a conversion in flight on an enabled converter. -/
theorem step_of_conv {s : State} {v : BitVec 10} (hs : s.refused = none)
    (hturn : s.nextTurn = .conv v) (hbusy : s.adc.busy = true) (hen : s.adc.en = true) :
    step s = .next
      { s.takeTurn with
        adc := { s.adc with data := v, done := true, busy := false }
        trace := s.trace ++ [.adcComplete s.adc.chan v] } := by
  rw [conversionCompletes s v hs hturn, if_pos ⟨hbusy, hen⟩]

/-- The completion handler's turn, with its request up (R236, R240). -/
theorem step_of_adcRequest {s : State} (hs : s.refused = none) (hturn : s.nextTurn = .adcHandler)
    (hdone : s.adc.done = true) (hie : s.adc.ie = true) :
    step s = .next
      { s.takeTurn with
        adc := { s.adc with cellValid := true, cell := s.adc.data, done := false }
        ctx := .foreground
        trace := s.trace ++ [.publish s.adc.data] } := by
  have hstep : step s = .next (adcHandlerAgent s.takeTurn) := by rw [step_eq s hs, hturn]; rfl
  obtain ⟨hoff, -⟩ | ⟨-, h⟩ := adcHandler_cases s.takeTurn
  · simp [adcRequest, hdone, hie] at hoff
  · rw [hstep, h]
    rfl

/-- Three steps put together. -/
theorem reaches_three {s t u v : State} (h : step s = .next t) (k : step t = .next u)
    (l : step u = .next v) : reaches 3 s v :=
  ⟨t, h, u, k, v, l, rfl⟩

/-- Settles O23: the start step, the completion and the finish step, in the schedule's order. -/
theorem blockingReadReturnsSample : Obligations.BlockingReadReturnsSample := by
  intro s w chan v rest hissues hdecode hctx hpol hen hbusy hsched
  have hstart := step_of_issues_adcRead hissues hdecode hctx hbusy
  rw [if_pos hpol] at hstart
  obtain ⟨⟨hrun, -, hseq, hwait, hqueue⟩, -⟩ := hissues
  have hconv := step_of_conv (s := s.takeTurn.startRead chan) (v := v) hrun
    (nextTurn_cons _ _ (.host :: rest) (by simp [State.startRead, hsched])) rfl hen
  refine reaches_three hstart hconv
    ((blockingReadWaitsAndFinishes.1 _ ?_ (nextTurn_cons _ _ rest ?_) ?_ ?_).trans ?_)
  · exact hrun
  · simp [State.startRead, hsched]
  · exact hseq
  · simp [State.startRead, hpol]
  · simp [State.startRead, State.takeTurn, hsched, hqueue, hwait]

/-- Settles O27: the start step, which finishes its entry, the completion and the handler. -/
theorem latchedReadReachesCell : Obligations.LatchedReadReachesCell := by
  intro s w chan v rest hissues hdecode hctx hpol hen hie hbusy hsched
  have hstart := step_of_issues_adcRead hissues hdecode hctx hbusy
  rw [if_neg (by simp [hpol])] at hstart
  obtain ⟨⟨hrun, -, -, hwait, hqueue⟩, -⟩ := hissues
  have hconv := step_of_conv (s := (s.takeTurn.startRead chan).finishPart []) (v := v) hrun
    (nextTurn_cons _ _ (.adcHandler :: rest) (by simp [State.startRead, hsched])) rfl hen
  refine ⟨_, reaches_three hstart hconv ?_, rfl, adcTakeReadsCell _⟩
  refine (step_of_adcRequest ?_ (nextTurn_cons _ _ rest ?_) ?_ ?_).trans ?_
  · exact hrun
  · simp [State.startRead, hsched]
  · rfl
  · exact hie
  · simp [State.startRead, State.takeTurn, State.finishPart, hsched, hqueue, hwait, hpol, hctx]

/-! Configurations issued twice -/

/-- `TMR_CFG_PWM` in a PWM mode (R141). -/
theorem exec_tmrCfgPwm_of_pwmMode {init top : BitVec 8} {mode : BitVec 2} {clk : BitVec 3}
    {s : State} {m : WaveMode} (h : pwmMode mode = some m) :
    exec (.tmrCfgPwm init top mode clk) s = .next
      { s with
        tmr :=
          { s.tmr with
            cnt := init, mode := m, com := true, clk := clk, foc := false, down := false
            ocDir := true }
        trace := s.trace ++ [.dir s.par.cfg.pins.oc true] } := by
  simp only [exec, execTmrCfgPwm, h]
  rfl

theorem pwmMode_isSome {mode : BitVec 2} (h : mode = 1#2 ∨ mode = 3#2) :
    ∃ m, pwmMode mode = some m := by
  rcases h with rfl | rfl <;> exact ⟨_, rfl⟩

/-- Settles O34: the fields that a configuration writes come from its operands and from what it
leaves alone, so it writes them again as they are. -/
theorem configurationsIdempotent : Obligations.ConfigurationsIdempotent := by
  refine ⟨fun ref clk trig s t href h => ?_, fun s t h => ?_,
    fun init top mode clk s t hmode h => ?_⟩
  · obtain ⟨hres, -⟩ | ⟨-, hs⟩ := exec_adcCfg_cases ref clk trig s
    · exact absurd hres href
    obtain ⟨hres, -⟩ | ⟨-, ht⟩ := exec_adcCfg_cases ref clk trig t
    · exact absurd hres href
    rw [ht]
    cases hs.symm.trans h
    rfl
  · cases h
    rfl
  · obtain ⟨m, hm⟩ := pwmMode_isSome hmode
    cases (exec_tmrCfgPwm_of_pwmMode hm).symm.trans h
    exact ⟨_, exec_tmrCfgPwm_of_pwmMode hm, rfl, rfl⟩

end Sys2Proof.Machine

/-! PROOF. The invariant of the blocking policy (R119, R124 to R126). Only `ADC_CFG`, `ADC_READ`,
the finish step, the converter and the completion handler touch what it speaks of. An operation is
issued either in a handler, where a blocking read is refused, or by a host that does not wait, for
which no conversion is in flight. -/

namespace Sys2Proof.Machine

/-- From `s` to `t` the converter and the host's wait are as they were, and no read was refused for
being early. -/
structure ConverterKept (s t : State) : Prop where
  par : t.par = s.par
  adc : t.adc = s.adc
  waiting : t.host.waiting = s.host.waiting
  early : t.refused = some .readWhileBusy → s.refused = some .readWhileBusy

theorem ConverterKept.refl (s : State) : ConverterKept s s := ⟨rfl, rfl, rfl, id⟩

theorem ConverterKept.refuse (s : State) {r : RefuseReason} (h : r ≠ .readWhileBusy) :
    ConverterKept s (s.refuse r) := by
  refine ⟨rfl, rfl, rfl, fun hr => ?_⟩
  cases hs : s.refused with
  | none => simp [hs, h] at hr
  | some q => simpa [hs] using hr

theorem ConverterKept.issueLcd (s : State) (q : List MicroStep) :
    ConverterKept s (s.issueLcd q) := by
  rcases issueLcd_cases s q with ⟨-, h⟩ | ⟨-, -, h⟩ | ⟨-, -, h⟩ <;> rw [h]
  · exact .refuse s nofun
  · exact .refuse s nofun
  · exact ⟨rfl, rfl, rfl, id⟩

theorem ConverterKept.blockingOk {s t : State} (h : ConverterKept s t) (hok : s.blockingOk) :
    t.blockingOk := by
  unfold State.blockingOk at hok ⊢
  rw [h.par, h.adc, h.waiting]
  intro hpol
  obtain ⟨hie, hcell, hidle, hexcl, hearly⟩ := hok hpol
  exact ⟨hie, hcell, hidle, hexcl, fun hr => hearly (h.early hr)⟩

/-- Of the thirteen operations only `ADC_CFG` and `ADC_READ` touch the converter or the wait. -/
theorem exec_converterKept {i : Instr} {s t : State} (h : exec i s = .next t) :
    ConverterKept s t ∨ (∃ ref clk trig, i = .adcCfg ref clk trig) ∨ ∃ chan, i = .adcRead chan := by
  cases i with
  | adcCfg ref clk trig => exact .inr (.inl ⟨ref, clk, trig, rfl⟩)
  | adcRead chan => exact .inr (.inr ⟨chan, rfl⟩)
  | adcTake => cases h; exact .inl ⟨rfl, rfl, rfl, id⟩
  | tmrCfgPwm init top mode clk =>
    simp only [exec, execTmrCfgPwm] at h
    split at h <;> cases h
    · exact .inl (.refuse s nofun)
    · exact .inl ⟨rfl, rfl, rfl, id⟩
  | tmrCfgPer init top mode clk =>
    simp only [exec, execTmrCfgPer] at h
    split at h <;> cases h
    · exact .inl (.refuse s nofun)
    · exact .inl ⟨rfl, rfl, rfl, id⟩
  | tmrDuty duty =>
    simp only [exec, execTmrDuty] at h
    split at h <;> cases h
    · exact .inl ⟨rfl, rfl, rfl, id⟩
    · exact .inl (.refuse s nofun)
  | tmrSetcb x => cases h; exact .inl ⟨rfl, rfl, rfl, id⟩
  | tmrClear => cases h; exact .inl ⟨rfl, rfl, rfl, id⟩
  | lcdInit =>
    simp only [exec, execLcdInit] at h
    split at h <;> cases h
    · exact .inl (.refuse s nofun)
    · exact .inl ⟨rfl, rfl, rfl, id⟩
  | lcdCmd code => cases h; exact .inl (.issueLcd s _)
  | lcdData byte => cases h; exact .inl (.issueLcd s _)
  | lcdGoto row col =>
    simp only [exec, execLcdGoto] at h
    split at h
    · cases h; exact .inl (.refuse s nofun)
    · split at h
      · cases h; exact .inl (.refuse s nofun)
      · split at h <;> cases h
        · exact .inl (.refuse s nofun)
        · exact .inl ⟨rfl, rfl, rfl, id⟩
  | lcdInt val => cases h; exact .inl (.issueLcd s _)

/-- `ADC_CFG` leaves the notification off under the blocking policy (R119). -/
theorem exec_adcCfg_blockingOk {ref : BitVec 2} {clk trig : BitVec 3} {s t : State}
    (hok : s.blockingOk) (h : exec (.adcCfg ref clk trig) s = .next t) : t.blockingOk := by
  obtain ⟨-, hu⟩ | ⟨-, hu⟩ := exec_adcCfg_cases ref clk trig s <;> cases hu.symm.trans h
  · exact (ConverterKept.refuse s (by decide)).blockingOk hok
  · intro hpol
    obtain ⟨-, hcell, hrest⟩ := hok hpol
    exact ⟨decide_eq_false fun hlat => (nomatch hpol.symm.trans hlat), hcell, hrest⟩

/-- An operation is issued in a handler, or by a host that does not wait. There a read under the
blocking policy is refused as blocking (R249); here it finds no conversion in flight (R125), and the
host waits for the one it starts. -/
theorem exec_adcRead_blockingOk {chan : BitVec 8} {s t : State}
    (hissue : s.ctx = .interrupt ∨ s.host.waiting = false) (hok : s.blockingOk)
    (h : exec (.adcRead chan) s = .next t) : t.blockingOk := by
  have hidle (hguard : ¬(s.ctx = .interrupt ∧ s.par.cfg.policy = .blocking))
      (hpol : s.par.cfg.policy = .blocking) : s.adc.busy = false ∧ s.adc.done = false := by
    obtain ⟨-, -, hidle, -⟩ := hok hpol
    exact hidle (hissue.resolve_left fun hctx => hguard ⟨hctx, hpol⟩)
  obtain ⟨-, hu⟩ | ⟨hguard, hbusy, hu⟩ | ⟨hguard, -, hu⟩ := exec_adcRead_cases chan s <;>
    cases hu.symm.trans h
  · exact (ConverterKept.refuse s (by decide)).blockingOk hok
  · intro hpol
    cases hbusy.symm.trans (hidle hguard hpol).1
  · intro hpol
    obtain ⟨hie, hcell, -, -, hearly⟩ := hok hpol
    have hwaits : (s.startRead chan).host.waiting = true := if_pos hpol
    exact ⟨hie, hcell, fun hw => (nomatch hwaits.symm.trans hw), fun _ => (hidle hguard hpol).2,
      hearly⟩

theorem exec_blockingOk {i : Instr} {s t : State}
    (hissue : s.ctx = .interrupt ∨ s.host.waiting = false) (hok : s.blockingOk)
    (h : exec i s = .next t) : t.blockingOk := by
  obtain hkept | ⟨ref, clk, trig, rfl⟩ | ⟨chan, rfl⟩ := exec_converterKept h
  · exact hkept.blockingOk hok
  · exact exec_adcCfg_blockingOk hok h
  · exact exec_adcRead_blockingOk hissue hok h

theorem decodeReason_ne_readWhileBusy (e : DecodeError) : decodeReason e ≠ .readWhileBusy := by
  cases e <;> nofun

theorem issueWord_blockingOk {w : Word} {s t : State}
    (hissue : s.ctx = .interrupt ∨ s.host.waiting = false) (hok : s.blockingOk)
    (h : issueWord w s = .next t) : t.blockingOk := by
  unfold issueWord at h
  split at h
  · exact exec_blockingOk hissue hok h
  · cases h
    exact (ConverterKept.refuse s (decodeReason_ne_readWhileBusy _)).blockingOk hok

theorem handlerAct_blockingOk {a : HandlerAct} {s t : State} (hctx : s.ctx = .interrupt)
    (hok : s.blockingOk) (h : handlerAct a s = .next t) : t.blockingOk := by
  cases a with
  | op i => exact exec_blockingOk (.inl hctx) hok h
  | issue w => exact issueWord_blockingOk (.inl hctx) hok h
  | gpioDir p o => cases h; exact hok
  | gpioPin p l => cases h; exact hok
  | gpioPinOf p e => cases h; exact hok
  | assign k e => cases h; exact hok

theorem runBody_blockingOk {b : List HandlerAct} {s u : State} (hctx : s.ctx = .interrupt)
    (hok : s.blockingOk) (h : runBody b s = .next u) : u.blockingOk := by
  induction b generalizing s with
  | nil => cases h; exact hok
  | cons a rest ih =>
    obtain ⟨t, ht, hq⟩ := handlerAct_quiet a s
    have hfirst : t.blockingOk := handlerAct_blockingOk hctx hok ht
    simp only [runBody, ht] at h
    split at h
    · cases h; exact hfirst
    · exact ih (hq.ctx.trans hctx) hfirst h

theorem tmrDispatchAgent_blockingOk {s t : State} (hok : s.blockingOk)
    (h : tmrDispatchAgent s = .next t) : t.blockingOk := by
  obtain ⟨-, hu⟩ | ⟨-, -, hu⟩ | ⟨-, -, u, hbody, -, hu⟩ := tmrDispatch_cases s <;>
    cases hu.symm.trans h
  · exact hok
  · exact hok
  · have hbodyOk := runBody_blockingOk (by rfl) (by exact hok) hbody
    exact hbodyOk

theorem afterIssue_blockingOk {rest : List HostAct} {t u : State} (hok : t.blockingOk)
    (h : afterIssue rest (.next t) = .next u) : u.blockingOk := by
  rw [afterIssue_next] at h
  cases h
  split <;> exact hok

theorem convertPart_converterKept (skip : Bool) (rest : List HostAct) (s : State) :
    ConverterKept s (convertPart skip rest s) := by
  unfold convertPart
  split
  · exact ⟨rfl, rfl, rfl, id⟩
  · split <;> exact ⟨rfl, rfl, rfl, id⟩

theorem hostPart_blockingOk {a : HostAct} {rest : List HostAct} {s u : State}
    (hwait : s.host.waiting = false) (hok : s.blockingOk) (h : hostPart a rest s = .next u) :
    u.blockingOk := by
  cases a with
  | op i =>
    obtain ⟨t, ht, -⟩ := exec_quiet i s
    simp only [hostPart, ht] at h
    exact afterIssue_blockingOk (exec_blockingOk (.inr hwait) hok ht) h
  | convert skip => cases h; exact (convertPart_converterKept skip rest s).blockingOk hok
  | gpioDir p o => cases h; exact hok
  | gpioPin p l => cases h; exact hok
  | select => cases h; exact hok
  | motorSet d duty => cases h; exact hok
  | motorSelected => cases h; exact hok
  | sensorRead => cases h; exact hok
  | status temp d => cases h; exact hok
  | statusCurrent => cases h; exact hok
  | iteration => cases h; exact hok

theorem hostNext_blockingOk {s u : State} (hwait : s.host.waiting = false) (hok : s.blockingOk)
    (h : hostNext s = .next u) : u.blockingOk := by
  unfold hostNext at h
  split at h
  · exact hostPart_blockingOk hwait hok h
  · split at h
    next w _ =>
      obtain ⟨t, ht, -⟩ := issueWord_quiet w s
      rw [ht] at h
      exact afterIssue_blockingOk (issueWord_blockingOk (.inr hwait) hok ht) h
    next => exact hostPart_blockingOk hwait hok h
    next => cases h; exact hok

/-- The finish step ends the wait with the conversion complete, so with none in flight (R122). -/
theorem finishRead_blockingOk {s : State} (hdone : s.adc.done = true) (hok : s.blockingOk) :
    (finishRead s).blockingOk := by
  intro hpol
  obtain ⟨hie, hcell, -, hexcl, hearly⟩ := hok hpol
  have hnot : s.adc.busy = false := Bool.eq_false_iff.2 fun hbusy =>
    nomatch hdone.symm.trans (hexcl hbusy)
  exact ⟨hie, hcell, fun _ => ⟨hnot, rfl⟩, fun _ => rfl, hearly⟩

theorem hostAgent_blockingOk {s u : State} (hok : s.blockingOk) (h : hostAgent s = .next u) :
    u.blockingOk := by
  unfold hostAgent at h
  split at h
  · cases h; exact hok
  · split at h
    · split at h
      next hdone =>
        have hend : (finishRead s).blockingOk := finishRead_blockingOk hdone hok
        cases h
        exact hend
      next => cases h; exact hok
    next hwait => exact hostNext_blockingOk (Bool.eq_false_iff.2 hwait) hok h

/-- A completion finds the host waiting, since the conversion was in flight (R130). -/
theorem convAgent_blockingOk (v : BitVec 10) {s : State} (hok : s.blockingOk) :
    (convAgent v s).blockingOk := by
  obtain ⟨-, h⟩ | ⟨hen, h⟩ := convAgent_cases v s <;> rw [h]
  · exact hok
  · intro hpol
    obtain ⟨hie, hcell, hidle, -, hearly⟩ := hok hpol
    have hbusy : s.adc.busy = true := (Bool.and_eq_true_iff.1 hen).1
    refine ⟨hie, hcell, fun hwait => ?_, nofun, hearly⟩
    cases hbusy.symm.trans (hidle hwait).1

/-- With the notification off the completion handler has no request, so nothing is published. -/
theorem adcHandlerAgent_blockingOk {s : State} (hok : s.blockingOk) :
    (adcHandlerAgent s).blockingOk := by
  obtain ⟨-, h⟩ | ⟨hreq, h⟩ := adcHandler_cases s <;> rw [h]
  · exact hok
  · intro hpol
    obtain ⟨hie, -⟩ := hok hpol
    simp [adcRequest, hie] at hreq

theorem seqAgent_converterKept (s : State) : ConverterKept s (seqAgent s) := by
  obtain ⟨l, o, es, h⟩ := seqAgent_frame s
  rw [h]
  exact ⟨rfl, rfl, rfl, id⟩

theorem tickAgent_converterKept (s : State) : ConverterKept s (tickAgent s) := by
  obtain ⟨-, h⟩ | ⟨-, h⟩ := tickAgent_cases s <;> rw [h]
  · exact .refl s
  · exact ⟨rfl, rfl, rfl, id⟩

theorem agentStep_blockingOk {turn : Turn} {s t : State} (hok : s.blockingOk)
    (h : agentStep turn s = .next t) : t.blockingOk := by
  cases turn with
  | host => exact hostAgent_blockingOk hok h
  | seq => cases h; exact (seqAgent_converterKept s).blockingOk hok
  | tick => cases h; exact (tickAgent_converterKept s).blockingOk hok
  | conv v => cases h; exact convAgent_blockingOk v hok
  | adcHandler => cases h; exact adcHandlerAgent_blockingOk hok
  | tmrDispatch => exact tmrDispatchAgent_blockingOk hok h

/-- Settles O14: every agent's turn keeps the invariant, and taking the turn does not touch it. -/
theorem blockingPolicyInvariant : Obligations.BlockingPolicyInvariant := by
  intro s t hok h
  obtain ⟨-, hturn⟩ := agentStep_of_step h
  exact agentStep_blockingOk (s := s.takeTurn) hok hturn

end Sys2Proof.Machine

/-! PROOF. The tick of the TMR unit (R151 to R156): what a tick makes of the timer in each waveform
mode, the tick's turn, and the counter running freely from 0 (R143, R157). -/

namespace Sys2Proof.Machine

/-! One tick of the timer -/

/-- The events of a tick, once it is known when it overflows (R151). -/
theorem tickEvents_of_ovf {t : TmrUnit} {p : Prop} [Decidable p] (h : tickOvf t = decide p) :
    tickEvents t
      = (if p then [.ovf] else []) ++ (if t.cnt = t.cmp then [.compareMatch] else []) := by
  simp [tickEvents, tickMatch, h]

theorem tickPend_of_ovf {t : TmrUnit} {p : Prop} [Decidable p] (h : tickOvf t = decide p) :
    tickPend t = (t.pend || (decide p && t.ovfIe) || (decide (t.cnt = t.cmp) && t.cmpIe)) := by
  rw [tickPend, h]
  rfl

theorem tickDown_of_not_phaseCorrect {t : TmrUnit} (h : t.mode ≠ .phaseCorrect) :
    tickDown t = t.down := by
  cases hm : t.mode with
  | phaseCorrect => exact absurd hm h
  | normal => simp only [tickDown, hm]
  | ctc => simp only [tickDown, hm]
  | fast => simp only [tickDown, hm]

theorem tickOvf_of_not_phaseCorrect {t : TmrUnit} (h : t.mode ≠ .phaseCorrect) :
    tickOvf t = decide (t.cnt = 255#8) := by
  cases hm : t.mode with
  | phaseCorrect => exact absurd hm h
  | normal => simp only [tickOvf, hm]; rfl
  | ctc => simp only [tickOvf, hm]; rfl
  | fast => simp only [tickOvf, hm]; rfl

theorem tickCount_of_countsUp {t : TmrUnit} (h : t.mode = .normal ∨ t.mode = .fast) :
    tickCount t = t.cnt + 1#8 := by
  rcases h with h | h <;> simp only [tickCount, h]

theorem tickCount_of_phaseCorrect {t : TmrUnit} (h : t.mode = .phaseCorrect) :
    tickCount t = if slopeDown t then t.cnt - 1#8 else t.cnt + 1#8 := by
  simp only [tickCount, h]

theorem tickDown_of_phaseCorrect {t : TmrUnit} (h : t.mode = .phaseCorrect) :
    tickDown t = slopeDown t := by
  simp only [tickDown, h]

theorem tickOvf_of_phaseCorrect {t : TmrUnit} (h : t.mode = .phaseCorrect) :
    tickOvf t = decide (tickCount t = 0#8) := by
  simp only [tickOvf, h]
  rfl

theorem tickCount_of_ctc {t : TmrUnit} (h : t.mode = .ctc) :
    tickCount t = if t.cnt = t.cmp ∨ t.cnt = 255#8 then 0#8 else t.cnt + 1#8 := by
  simp [tickCount, tickMatch, h]

/-! The tick's turn -/

theorem tickEnabled_iff (t : TmrUnit) : tickEnabled t = true ↔ t.clk ≠ 0#3 := by
  simp [tickEnabled]

theorem tickAgent_of_running {s : State} (h : s.tmr.clk ≠ 0#3) :
    tickAgent s = { s with tmr := tickUnit s.tmr, trace := s.trace ++ tickEvents s.tmr } := by
  obtain ⟨hoff, -⟩ | ⟨-, hrun⟩ := tickAgent_cases s
  · exact absurd (hoff.symm.trans ((tickEnabled_iff s.tmr).2 h)) Bool.false_ne_true
  · exact hrun

theorem tickAgent_of_stopped {s : State} (h : s.tmr.clk = 0#3) : tickAgent s = s := by
  obtain ⟨-, hstop⟩ | ⟨hon, -⟩ := tickAgent_cases s
  · exact hstop
  · exact absurd h ((tickEnabled_iff s.tmr).1 hon)

/-- The step of a tick's turn: the turn alone when the counter is stopped (R152), and otherwise the
timer after one tick and its events. -/
theorem step_of_tick {s : State} (hs : s.refused = none) (hturn : s.nextTurn = .tick) :
    step s = .next
      (if s.tmr.clk = 0#3 then s.takeTurn
        else { s.takeTurn with tmr := tickUnit s.tmr, trace := s.trace ++ tickEvents s.tmr }) := by
  have hstep : step s = .next (tickAgent s.takeTurn) := by rw [step_eq s hs, hturn]; rfl
  rw [hstep]
  split
  next hclk => rw [tickAgent_of_stopped (s := s.takeTurn) hclk]
  next hclk => rw [tickAgent_of_running (s := s.takeTurn) hclk]; rfl

/-- Settles O35: both modes count up through 255, where they overflow. -/
theorem tickCountsUp : Obligations.TickCountsUp := by
  intro s hs hturn hmode
  have hnot : s.tmr.mode ≠ .phaseCorrect := by rcases hmode with h | h <;> simp [h]
  have hcount : tickCount s.tmr = BitVec.ofNat 8 ((s.tmr.cnt.toNat + 1) % 256) := by
    rw [tickCount_of_countsUp hmode]
    bv_omega
  have hovf := tickOvf_of_not_phaseCorrect hnot
  rw [step_of_tick hs hturn, tickUnit, hcount, tickDown_of_not_phaseCorrect hnot,
    tickPend_of_ovf hovf, tickEvents_of_ovf hovf, List.append_assoc]
  rfl

/-- Settles O36: the direction is the one after the turn at an end, and the overflow is the
arrival at 0. -/
theorem tickDualSlope : Obligations.TickDualSlope := by
  rintro s d n hs hturn hmode rfl rfl
  have hovf := tickOvf_of_phaseCorrect hmode
  rw [step_of_tick hs hturn, tickUnit, tickDown_of_phaseCorrect hmode,
    tickPend_of_ovf hovf, tickEvents_of_ovf hovf, List.append_assoc,
    tickCount_of_phaseCorrect hmode]
  rfl

/-- Settles O37: the counter goes back to 0 from the compare value and from 255. -/
theorem tickCompareReset : Obligations.TickCompareReset := by
  intro s hs hturn hmode
  have hnot : s.tmr.mode ≠ .phaseCorrect := by simp [hmode]
  have hovf := tickOvf_of_not_phaseCorrect hnot
  rw [step_of_tick hs hturn, tickUnit, tickCount_of_ctc hmode, tickDown_of_not_phaseCorrect hnot,
    tickPend_of_ovf hovf, tickEvents_of_ovf hovf, List.append_assoc]
  rfl

/-! The counter running freely -/

theorem tickSteps_succ (n : Nat) (s : State) : tickSteps (n + 1) s = tickAgent (tickSteps n s) := by
  simp only [tickSteps_eq_iterate, Function.iterate_succ_apply']

/-- A tick writes the counter, its direction and the pending bit only. -/
theorem tickAgent_tmr (s : State) :
    (tickAgent s).tmr =
      { s.tmr with
        cnt := (tickAgent s).tmr.cnt, down := (tickAgent s).tmr.down
        pend := (tickAgent s).tmr.pend } := by
  obtain ⟨-, h⟩ | ⟨-, h⟩ := tickAgent_cases s <;> rw [h]
  rfl

/-- The rest of the timer is its setup, which ticks keep. -/
theorem tickSteps_tmr (n : Nat) (s : State) :
    (tickSteps n s).tmr =
      { s.tmr with
        cnt := (tickSteps n s).tmr.cnt, down := (tickSteps n s).tmr.down
        pend := (tickSteps n s).tmr.pend } := by
  induction n with
  | zero => rfl
  | succ n ih => rw [tickSteps_succ, tickAgent_tmr, ih]

@[simp] theorem tickSteps_mode (n : Nat) (s : State) : (tickSteps n s).tmr.mode = s.tmr.mode := by
  rw [tickSteps_tmr]

@[simp] theorem tickSteps_clk (n : Nat) (s : State) : (tickSteps n s).tmr.clk = s.tmr.clk := by
  rw [tickSteps_tmr]

@[simp] theorem tickSteps_cmp (n : Nat) (s : State) : (tickSteps n s).tmr.cmp = s.tmr.cmp := by
  rw [tickSteps_tmr]

@[simp] theorem tickSteps_pwmDriven (n : Nat) (s : State) :
    pwmDriven (tickSteps n s).tmr = pwmDriven s.tmr := by
  rw [tickSteps_tmr]
  rfl

/-- One more tick of a counter that is not stopped. -/
theorem tickSteps_succ_of_running {s : State} (hclk : s.tmr.clk ≠ 0#3) (n : Nat) :
    tickSteps (n + 1) s =
      { tickSteps n s with
        tmr := tickUnit (tickSteps n s).tmr
        trace := (tickSteps n s).trace ++ tickEvents (tickSteps n s).tmr } := by
  rw [tickSteps_succ, tickAgent_of_running (by rwa [tickSteps_clk])]

theorem count_ovf_tickEvents {t : TmrUnit} {p : Prop} [Decidable p] (h : tickOvf t = decide p) :
    (tickEvents t).count .ovf = if p then 1 else 0 := by
  rw [tickEvents_of_ovf h]
  split <;> split <;> rfl

theorem highStates_zero (s : State) : highStates 0 s = 0 := rfl

/-- With the comparator on the pin, one more state counts when the counter is below the compare
value (R37). -/
theorem highStates_succ {s : State} (h : pwmDriven s.tmr = true) (n : Nat) :
    highStates (n + 1) s
      = highStates n s + if (tickSteps n s).tmr.cnt.toNat < s.tmr.cmp.toNat then 1 else 0 := by
  have hout : pwmOut s.par.cfg (tickSteps n s).tmr
      = decide ((tickSteps n s).tmr.cnt.toNat < s.tmr.cmp.toNat) := by
    simp [pwmOut, h]
  simp only [highStates, List.range_succ, List.filter_append, List.length_append,
    List.filter_singleton, hout]
  by_cases hhigh : (tickSteps n s).tmr.cnt.toNat < s.tmr.cmp.toNat <;> simp [hhigh]

/-! Fast PWM -/

section Fast

variable {s : State} (hmode : s.tmr.mode = .fast) (hclk : s.tmr.clk ≠ 0#3)
  (hcnt : s.tmr.cnt = 0#8)
include hmode hclk hcnt

/-- From 0 the counter is the number of ticks by 256, with an overflow at each wrap (R156). -/
theorem tickSteps_fast (n : Nat) :
    (tickSteps n s).tmr.cnt.toNat = n % 256
      ∧ (tickSteps n s).trace.count .ovf = s.trace.count .ovf + n / 256 := by
  induction n with
  | zero => simp [tickSteps, hcnt]
  | succ n ih =>
    obtain ⟨hn, htrace⟩ := ih
    have hfast : (tickSteps n s).tmr.mode = .fast := (tickSteps_mode n s).trans hmode
    have hovf : tickOvf (tickSteps n s).tmr = decide (n % 256 = 255) := by
      rw [tickOvf_of_not_phaseCorrect (by simp [hmode]), decide_eq_decide, ← BitVec.toNat_inj, hn]
      rfl
    rw [tickSteps_succ_of_running hclk]
    constructor
    · rw [tickUnit, tickCount_of_countsUp (.inr hfast), BitVec.toNat_add, hn]
      simp
    · rw [List.count_append, count_ovf_tickEvents hovf, htrace]
      split <;> omega

/-- In the first period the output is high until the counter reaches the compare value. -/
theorem highStates_fast (hdriven : pwmDriven s.tmr = true) {n : Nat} (hn : n ≤ 256) :
    highStates n s = min n s.tmr.cmp.toNat := by
  induction n with
  | zero => simp [highStates_zero]
  | succ n ih =>
    rw [highStates_succ hdriven, ih (by omega), (tickSteps_fast hmode hclk hcnt n).1]
    split <;> omega

end Fast

/-- Settles O39: the closed forms of the run at 256 ticks. -/
theorem fastPwmDutyFraction : Obligations.FastPwmDutyFraction := by
  intro s hmode hcom hfoc hdir hclk hcnt
  have hdriven : pwmDriven s.tmr = true := (pwmDriven_iff _).2 ⟨.inr hmode, hcom, hfoc, hdir⟩
  obtain ⟨hend, hovf⟩ := tickSteps_fast hmode hclk hcnt 256
  refine ⟨?_, BitVec.eq_of_toNat_eq hend, hovf⟩
  rw [highStates_fast hmode hclk hcnt hdriven le_rfl]
  omega

/-! Phase-correct PWM -/

/-- The counter of the dual-slope mode `n` ticks after 0: up to 255 and down again, 510 ticks a
period (R154). -/
def triangle (n : Nat) : Nat := if n % 510 ≤ 255 then n % 510 else 510 - n % 510

theorem triangle_succ_of_lt {n : Nat} (h : n % 510 < 255) : triangle (n + 1) = triangle n + 1 := by
  unfold triangle
  split <;> split <;> omega

theorem triangle_succ_of_le {n : Nat} (h : 255 ≤ n % 510) : triangle n = triangle (n + 1) + 1 := by
  unfold triangle
  split <;> split <;> omega

theorem triangle_le (n : Nat) : triangle n ≤ 255 := by
  unfold triangle
  split <;> omega

/-- The direction of the next tick is the slope that it is on: the turns are at 255 and at 0, and
between them the last direction stays. -/
theorem slopeDown_of_triangle {t : TmrUnit} {n : Nat} (hcnt : t.cnt.toNat = triangle n)
    (hdown : n % 510 ≠ 0 → t.down = decide (255 < n % 510)) :
    slopeDown t = decide (255 ≤ n % 510) := by
  have htop : t.cnt = 255#8 ↔ n % 510 = 255 := by
    rw [← BitVec.toNat_inj, hcnt, BitVec.toNat_ofNat, triangle]
    split <;> omega
  have hbottom : t.cnt = 0#8 ↔ n % 510 = 0 := by
    rw [← BitVec.toNat_inj, hcnt, BitVec.toNat_ofNat, triangle]
    split <;> omega
  simp only [slopeDown, htop, hbottom]
  split
  next h => simp [h]
  next h =>
    split
    next h0 => simp [h0]
    next h0 =>
      rw [hdown h0, decide_eq_decide]
      omega

/-- The counter after a tick is one on along the two slopes. -/
theorem toNat_tickCount_of_triangle {t : TmrUnit} {n : Nat} (hmode : t.mode = .phaseCorrect)
    (hcnt : t.cnt.toNat = triangle n)
    (hdown : n % 510 ≠ 0 → t.down = decide (255 < n % 510)) :
    (tickCount t).toNat = triangle (n + 1) := by
  have hrange := triangle_le (n + 1)
  rw [tickCount_of_phaseCorrect hmode, slopeDown_of_triangle hcnt hdown]
  by_cases hside : 255 ≤ n % 510
  · have hstep := triangle_succ_of_le hside
    simp only [hside, decide_true, if_true]
    bv_omega
  · have hstep := triangle_succ_of_lt (Nat.lt_of_not_le hside)
    simp only [hside, decide_false, Bool.false_eq_true, if_false]
    bv_omega

section PhaseCorrect

variable {s : State} (hmode : s.tmr.mode = .phaseCorrect) (hclk : s.tmr.clk ≠ 0#3)
  (hcnt : s.tmr.cnt = 0#8)
include hmode hclk hcnt

/-- From 0 the counter runs up and down, with an overflow at each return to 0 (R154). -/
theorem tickSteps_phaseCorrect (n : Nat) :
    (tickSteps n s).tmr.cnt.toNat = triangle n
      ∧ (n % 510 ≠ 0 → (tickSteps n s).tmr.down = decide (255 < n % 510))
      ∧ (tickSteps n s).trace.count .ovf = s.trace.count .ovf + n / 510 := by
  induction n with
  | zero => simp [tickSteps, hcnt, triangle]
  | succ n ih =>
    obtain ⟨hn, hdown, htrace⟩ := ih
    have hphase : (tickSteps n s).tmr.mode = .phaseCorrect := (tickSteps_mode n s).trans hmode
    have hslope := slopeDown_of_triangle hn hdown
    have hcount := toNat_tickCount_of_triangle hphase hn hdown
    have hovf : tickOvf (tickSteps n s).tmr = decide (triangle (n + 1) = 0) := by
      rw [tickOvf_of_phaseCorrect hphase, decide_eq_decide, ← BitVec.toNat_inj, hcount]
      rfl
    rw [tickSteps_succ_of_running hclk]
    refine ⟨hcount, fun h => ?_, ?_⟩
    · rw [tickUnit, tickDown_of_phaseCorrect hphase, hslope, decide_eq_decide]
      omega
    · rw [List.count_append, count_ovf_tickEvents hovf, htrace, triangle]
      split <;> split <;> omega

/-- In the first period the output is high on the way up until the counter reaches the compare
value, and on the way down once it is below. -/
theorem highStates_phaseCorrect (hdriven : pwmDriven s.tmr = true) {n : Nat} (hn : n ≤ 510) :
    highStates n s = min n s.tmr.cmp.toNat + (n - (511 - s.tmr.cmp.toNat)) := by
  induction n with
  | zero => simp [highStates_zero]
  | succ n ih =>
    have hcmp := s.tmr.cmp.isLt
    rw [highStates_succ hdriven, ih (by omega), (tickSteps_phaseCorrect hmode hclk hcnt n).1,
      triangle]
    split <;> split <;> omega

end PhaseCorrect

/-- Settles O40: the closed forms of the run at 510 ticks. -/
theorem phaseCorrectDutyFraction : Obligations.PhaseCorrectDutyFraction := by
  intro s hmode hcom hfoc hdir hclk hcnt
  have hdriven : pwmDriven s.tmr = true := (pwmDriven_iff _).2 ⟨.inl hmode, hcom, hfoc, hdir⟩
  obtain ⟨hend, -, hovf⟩ := tickSteps_phaseCorrect hmode hclk hcnt 510
  refine ⟨?_, BitVec.eq_of_toNat_eq hend, hovf⟩
  rw [highStates_phaseCorrect hmode hclk hcnt hdriven le_rfl]
  have hzero : s.tmr.cmp = 0 ↔ s.tmr.cmp.toNat = 0 := BitVec.toNat_inj.symm
  have hcmp := s.tmr.cmp.isLt
  simp only [hzero]
  split <;> omega

/-! CTC mode -/

/-- Below the compare value a tick of CTC mode counts up and has no event (R155). -/
theorem tick_ctc_below {t : TmrUnit} (hmode : t.mode = .ctc) (h : t.cnt.toNat < t.cmp.toNat) :
    (tickCount t).toNat = t.cnt.toNat + 1 ∧ tickEvents t = [] := by
  have hmatch : t.cnt ≠ t.cmp := by bv_omega
  have htop : t.cnt ≠ 255#8 := by bv_omega
  rw [tickCount_of_ctc hmode,
    tickEvents_of_ovf (tickOvf_of_not_phaseCorrect (t := t) (by simp [hmode]))]
  simp only [hmatch, htop, or_self, if_false]
  refine ⟨?_, rfl⟩
  bv_omega

/-- From 0 up to the compare value the counter is the number of ticks, with no event (R155). -/
theorem tickSteps_ctc {s : State} (hmode : s.tmr.mode = .ctc) (hclk : s.tmr.clk ≠ 0#3)
    (hcnt : s.tmr.cnt = 0#8) {n : Nat} (hn : n ≤ s.tmr.cmp.toNat) :
    (tickSteps n s).tmr.cnt.toNat = n ∧ (tickSteps n s).trace = s.trace := by
  induction n with
  | zero => simp [tickSteps, hcnt]
  | succ n ih =>
    obtain ⟨hcount, htrace⟩ := ih (by omega)
    obtain ⟨hup, hquiet⟩ := tick_ctc_below (t := (tickSteps n s).tmr)
      ((tickSteps_mode n s).trans hmode) (by rw [hcount, tickSteps_cmp]; omega)
    rw [tickSteps_succ_of_running hclk]
    exact ⟨hup.trans (by rw [hcount]), by rw [hquiet, List.append_nil, htrace]⟩

/-- Settles O41: the climb to the compare value, and the tick of the match. -/
theorem ctcPeriod : Obligations.CtcPeriod := by
  intro s hmode hclk hcnt
  refine ⟨fun k hk => tickSteps_ctc hmode hclk hcnt hk, ?_⟩
  obtain ⟨hcount, htrace⟩ := tickSteps_ctc hmode hclk hcnt le_rfl
  have hctc := (tickSteps_mode s.tmr.cmp.toNat s).trans hmode
  have hmatch : (tickSteps s.tmr.cmp.toNat s).tmr.cnt = s.tmr.cmp := BitVec.eq_of_toNat_eq hcount
  have hovf := tickOvf_of_not_phaseCorrect (t := (tickSteps s.tmr.cmp.toNat s).tmr)
    (by simp [hmode])
  rw [tickSteps_succ_of_running hclk]
  constructor
  · simp [tickUnit, tickCount_of_ctc hctc, hmatch]
  · simp [tickEvents_of_ovf hovf, hmatch, htrace]

end Sys2Proof.Machine

/-! PROOF. The operations of the TMR unit (R141, R144, R145 to R148, R150): the mode that an operand
names, the threshold, and what each operation writes. -/

namespace Sys2Proof.Machine

/-! The mode of an operand -/

theorem pwmMode_eq (mode : BitVec 2) :
    pwmMode mode = if mode = 0#2 ∨ mode = 2#2 then none
      else some (if mode = 1#2 then .phaseCorrect else .fast) := by
  revert mode
  decide

theorem periodicMode_eq (mode : BitVec 2) :
    periodicMode mode = if mode = 1#2 ∨ mode = 3#2 then none
      else some (if mode = 0#2 then .normal else .ctc) := by
  revert mode
  decide

/-! The configurations -/

/-- Settles O28: an operand that names no PWM mode is refused, and the others are the two modes of
`exec_tmrCfgPwm_of_pwmMode`. -/
theorem tmrCfgPwmWrites : Obligations.TmrCfgPwmWrites := by
  intro init top mode clk s hs
  have hmode := pwmMode_eq mode
  split at hmode
  next hno =>
    have hexec : exec (.tmrCfgPwm init top mode clk) s = .next (s.refuse .modeNotPwm) := by
      simp only [exec, execTmrCfgPwm, hmode]
    rw [hexec, if_pos hno, State.refuse_of_safe hs]
  next hok => rw [exec_tmrCfgPwm_of_pwmMode hmode, if_neg hok]

/-- `TMR_CFG_PER` in a periodic mode (R144). -/
theorem exec_tmrCfgPer_of_periodicMode {init top : BitVec 8} {mode : BitVec 2} {clk : BitVec 3}
    {s : State} {m : WaveMode} (h : periodicMode mode = some m) :
    exec (.tmrCfgPer init top mode clk) s = .next
      { s with tmr :=
        { s.tmr with
          cnt := init, mode := m, clk := clk, down := false
          ovfIe := s.tmr.ovfIe || decide (m = .normal)
          cmpIe := s.tmr.cmpIe || decide (m = .ctc)
          cmp := if m = .ctc then top else s.tmr.cmp } } := by
  simp only [exec, execTmrCfgPer, h]

/-- Settles O29: an operand that names no periodic mode is refused; normal mode sets the overflow
enable, and CTC mode sets the match enable and programs the top. -/
theorem tmrCfgPerWrites : Obligations.TmrCfgPerWrites := by
  intro init top mode clk s hs
  have hmode := periodicMode_eq mode
  split at hmode
  next hno =>
    have hexec : exec (.tmrCfgPer init top mode clk) s = .next (s.refuse .modeNotPeriodic) := by
      simp only [exec, execTmrCfgPer, hmode]
    rw [hexec, if_pos hno, State.refuse_of_safe hs]
  next hok =>
    rw [exec_tmrCfgPer_of_periodicMode hmode, if_neg hok]
    by_cases hzero : mode = 0#2 <;> simp [hzero]

/-- Settles O33: the operation writes nine fields of the timer and copies the other three. -/
theorem tmrClearSwitchesOff : Obligations.TmrClearSwitchesOff := fun _ => rfl

/-! The threshold and the duty -/

/-- In the documented range the threshold fits the compare register (R145, R95). -/
theorem toNat_threshold {d : BitVec 8} (h : d.toNat ≤ 100) :
    (threshold d).toNat = (d.toNat * 255 + 50) / 100 := by
  rw [threshold, BitVec.toNat_ofNat, Nat.mod_eq_of_lt]
  omega

/-- Settles O31: on integers the laws are those of division by 100. -/
theorem thresholdLaws : Obligations.ThresholdLaws := by
  refine ⟨rfl, rfl, fun d e hde he => ?_, fun d hd => ?_⟩
  · rw [toNat_threshold he, toNat_threshold (hde.trans he)]
    exact Nat.div_le_div_right (by omega)
  · rw [toNat_threshold hd]
    omega

theorem exec_tmrDuty_of_le {duty : BitVec 8} (s : State) (h : duty.toNat ≤ 100) :
    exec (.tmrDuty duty) s = .next { s with tmr := { s.tmr with cmp := threshold duty } } := by
  simp [exec, execTmrDuty, dutyInRange, h]

theorem exec_tmrDuty_of_lt {duty : BitVec 8} (s : State) (h : 100 < duty.toNat) :
    exec (.tmrDuty duty) s = .next (s.refuse .dutyOutOfRange) := by
  simp [exec, execTmrDuty, dutyInRange, Nat.not_le_of_lt h]

/-- Settles O30: the two cases of the operation. -/
theorem tmrDutyWritesThreshold : Obligations.TmrDutyWritesThreshold := by
  intro duty s hs
  split
  next h => rw [exec_tmrDuty_of_lt s h, State.refuse_of_safe hs]
  next h => rw [exec_tmrDuty_of_le s (Nat.le_of_not_lt h)]; rfl

end Sys2Proof.Machine

/-! PROOF. The host step `MOTOR_SET` (R218): a host turn takes up the entry, and each of its three
parts has a turn of its own (log entry 15). -/

namespace Sys2Proof.Machine

/-- It is the host's turn and then come the turns `turns`; the host neither waits nor has an LCD
operation in progress, and `a` is what it does next, `rest` being the parts after it: the next part
of the host step in progress, or the entry that `HPC` names (R50). -/
structure State.Performs (s : State) (a : HostAct) (rest : List HostAct) (turns : List Turn) :
    Prop where
  safe : s.refused = none
  sched : s.sched = .host :: turns
  seq : s.lcd.seq = []
  notWaiting : s.host.waiting = false
  part : s.host.queue = a :: rest
    ∨ s.host.queue = [] ∧ rest = [] ∧ s.par.hprog[s.host.hpc]? = some (.act a)

section Performs

variable {s : State} {rest : List HostAct} {turns : List Turn}

theorem State.Performs.step {a : HostAct} (h : s.Performs a rest turns) :
    step s = hostPart a rest s.takeTurn := by
  have hnext : hostNext s.takeTurn = hostPart a rest s.takeTurn := by
    rcases h.part with hqueue | ⟨hqueue, rfl, hentry⟩
    · simp [hostNext, hqueue]
    · simp [hostNext, hqueue, hentry]
  rw [step_eq s h.safe, nextTurn_cons s _ _ h.sched]
  simpa [agentStep, hostAgent, h.seq, h.notWaiting] using hnext

/-- Taking up `MOTOR_SET` queues its parts, the first pin write next. -/
theorem State.Performs.motorSet {d : Direction} {duty : BitVec 8}
    (h : s.Performs (.motorSet d duty) [] (.host :: turns)) :
    Machine.step s = .next (s.takeTurn.finishPart (motorParts s.par.cfg d duty))
      ∧ (s.takeTurn.finishPart (motorParts s.par.cfg d duty)).Performs
          (.gpioPin s.par.cfg.pins.motorA (motorLevels s.par.cfg d).1)
          [.gpioPin s.par.cfg.pins.motorB (motorLevels s.par.cfg d).2, .op (.tmrDuty duty)] turns :=
  ⟨h.step, h.safe, by simp [h.sched], h.seq, h.notWaiting, .inl rfl⟩

/-- A pin write with a part after it, which is next. -/
theorem State.Performs.gpioPin {pin : Gpio} {l : Bool} {a : HostAct}
    (h : s.Performs (.gpioPin pin l) (a :: rest) (.host :: turns)) :
    Machine.step s = .next ((s.takeTurn.emit [.pin pin l]).finishPart (a :: rest))
      ∧ ((s.takeTurn.emit [.pin pin l]).finishPart (a :: rest)).Performs a rest turns :=
  ⟨h.step, h.safe, by simp [h.sched], h.seq, h.notWaiting, .inl rfl⟩

/-- A duty write in the documented range (R147). -/
theorem State.Performs.tmrDuty {duty : BitVec 8} (h : s.Performs (.op (.tmrDuty duty)) rest turns)
    (hduty : duty.toNat ≤ 100) :
    Machine.step s = .next
      (State.finishPart { s.takeTurn with tmr := { s.tmr with cmp := threshold duty } } rest) := by
  rw [h.step]
  simp [hostPart, exec_tmrDuty_of_le _ hduty, afterIssue_next, h.safe, h.notWaiting]

end Performs

/-- Settles O58: the turn that takes up the entry queues its parts, and the next three turns perform
them in order. -/
theorem motorSetPinsThenDuty : Obligations.MotorSetPinsThenDuty := by
  intro s d duty a b rest hfree hentry hduty hlevels hsched
  obtain ⟨hs, -, hseq, hwait, hqueue⟩ := hfree
  have hl : motorLevels s.par.cfg d = (a, b) := hlevels.symm
  have hentered : s.Performs (.motorSet d duty) [] (.host :: .host :: .host :: rest) :=
    ⟨hs, hsched, hseq, hwait, .inr ⟨hqueue, rfl, hentry⟩⟩
  obtain ⟨htake, hqueued⟩ := hentered.motorSet
  obtain ⟨hpinA, hafterA⟩ := hqueued.gpioPin
  obtain ⟨hpinB, hafterB⟩ := hafterA.gpioPin
  refine ⟨_, htake, _, hpinA, _, hpinB, _, hafterB.tmrDuty hduty, ?_⟩
  simp [reaches, State.takeTurn, State.emit, State.finishPart, motorParts, threshold, hl, hsched,
    hqueue]

end Sys2Proof.Machine

/-! PROOF. The LCD lines and the strobes (R178): what the host may load is a list that begins and
ends with the enable line low and sends eight bits a transfer, the sequencer uses it up micro-step
by micro-step, and no other agent touches the lines or transfers anything. -/

namespace Sys2Proof.Machine

/-! The lists that are loaded -/

@[simp] theorem fallsLeft_append (q r : List MicroStep) :
    fallsLeft (q ++ r) = fallsLeft q + fallsLeft r := List.countP_append

@[simp] theorem marksLeft_append (q r : List MicroStep) :
    marksLeft (q ++ r) = marksLeft q + marksLeft r := List.countP_append

theorem fallsLeft_strobes (vs : List Byte) : fallsLeft (vs.flatMap strobe) = vs.length := by
  induction vs with
  | nil => rfl
  | cons v vs ih =>
    have hone : fallsLeft (strobe v) = 1 := rfl
    rw [List.flatMap_cons, fallsLeft_append, hone, ih, List.length_cons, Nat.add_comm]

theorem marksLeft_strobes (vs : List Byte) : marksLeft (vs.flatMap strobe) = 0 := by
  induction vs with
  | nil => rfl
  | cons v vs ih =>
    have hnone : marksLeft (strobe v) = 0 := rfl
    rw [List.flatMap_cons, marksLeft_append, hnone, ih]

theorem fallsLeft_xfer (w : BusWidth) (rs : Bool) (b : Byte) :
    fallsLeft (xfer w rs b) = 8 / w.lines := by
  rw [xfer, fallsLeft_append, fallsLeft_append, fallsLeft_strobes, length_busValues]
  exact Nat.zero_add _

theorem marksLeft_xfer (w : BusWidth) (rs : Bool) (b : Byte) : marksLeft (xfer w rs b) = 1 := by
  rw [xfer, marksLeft_append, marksLeft_append, marksLeft_strobes]
  rfl

/-- The lines of the bus divide a byte (R9). -/
theorem lines_mul_eight_div (w : BusWidth) : w.lines * (8 / w.lines) = 8 := by
  cases w <;> rfl

theorem setB_mem_strobe {v u : Byte} (h : .setB v ∈ strobe u) : v = u := by
  simpa [strobe] using h

/-- A transfer puts on the bus the values of its byte (R176, R177). -/
theorem setB_mem_xfer {w : BusWidth} {rs : Bool} {b v : Byte} (h : .setB v ∈ xfer w rs b) :
    v ∈ busValues w b := by
  have hstrobes : .setB v ∈ (busValues w b).flatMap strobe := by
    simpa [xfer] using h
  obtain ⟨u, hu, hv⟩ := List.mem_flatMap.1 hstrobes
  rwa [setB_mem_strobe hv]

/-- A list that may be loaded while the enable line is low: it respects the line and ends with it
low (R178), its bus values fit the bus (R174), and it strobes eight bits to a transfer. -/
structure Loadable (w : BusWidth) (q : List MicroStep) : Prop where
  lines : lineOk false q = true
  fits : ∀ v, .setB v ∈ q → v.toNat < 2 ^ w.lines
  balance : w.lines * fallsLeft q = 8 * marksLeft q

theorem Loadable.nil (w : BusWidth) : Loadable w [] := ⟨rfl, fun _ h => by simp at h, rfl⟩

theorem Loadable.xfer_append {w : BusWidth} {q : List MicroStep} (h : Loadable w q) (rs : Bool)
    (b : Byte) : Loadable w (xfer w rs b ++ q) where
  lines := (lineOk_xfer w rs b q).trans h.lines
  fits v hv := by
    rcases List.mem_append.1 hv with hv | hv
    · exact busValues_fit w b v (setB_mem_xfer hv)
    · exact h.fits v hv
  balance := by
    rw [fallsLeft_append, marksLeft_append, fallsLeft_xfer, marksLeft_xfer, Nat.mul_add,
      lines_mul_eight_div, h.balance, Nat.mul_add]

theorem Loadable.xfers_append {w : BusWidth} {q : List MicroStep} (h : Loadable w q) (rs : Bool)
    (bs : List Byte) : Loadable w (bs.flatMap (xfer w rs) ++ q) := by
  induction bs with
  | nil => exact h
  | cons b bs ih =>
    rw [List.flatMap_cons, List.append_assoc]
    exact ih.xfer_append rs b

theorem loadable_xfers (w : BusWidth) (rs : Bool) (bs : List Byte) :
    Loadable w (bs.flatMap (xfer w rs)) := by
  simpa using (Loadable.nil w).xfers_append rs bs

theorem loadable_xfer (w : BusWidth) (rs : Bool) (b : Byte) : Loadable w (xfer w rs b) := by
  simpa using (Loadable.nil w).xfer_append rs b

theorem loadable_initSeq (c : Config) : Loadable c.busw (initSeq c) := by
  have hready : Loadable c.busw [.setSt .ready] := ⟨rfl, fun _ h => by simp at h, rfl⟩
  have hbytes := hready.xfers_append false (modeCommands c ++ [c.cmdClear, c.cmdCursorOff])
  refine ⟨lineOk_initSeq c, fun v hv => ?_, ?_⟩
  · refine hbytes.fits v ?_
    simpa [initSeq] using hv
  · rw [initSeq, List.append_assoc, fallsLeft_append, marksLeft_append, Nat.mul_add, Nat.mul_add,
      hbytes.balance]
    rfl

/-! What the host loads -/

/-- From `s` to `t` the list of the sequencer stands, or a list that may be loaded is. -/
def SeqLoaded (s t : State) : Prop :=
  t.lcd.seq = s.lcd.seq ∨ Loadable s.par.cfg.busw t.lcd.seq

theorem issueLcd_seqLoaded (s : State) {q : List MicroStep} (h : Loadable s.par.cfg.busw q) :
    SeqLoaded s (s.issueLcd q) := by
  rcases issueLcd_cases s q with ⟨-, hu⟩ | ⟨-, -, hu⟩ | ⟨-, -, hu⟩ <;> rw [hu]
  · exact .inl rfl
  · exact .inl rfl
  · exact .inr h

/-- Only the LCD operations load the list, and what they load is made of transfers (R173). -/
theorem exec_seqLoaded {i : Instr} {s t : State} (h : exec i s = .next t) : SeqLoaded s t := by
  cases i with
  | adcCfg ref clk trig =>
    simp only [exec, execAdcCfg] at h
    split at h <;> cases h <;> exact .inl rfl
  | adcRead chan =>
    simp only [exec, execAdcRead] at h
    split at h
    · cases h; exact .inl rfl
    · split at h <;> cases h <;> exact .inl rfl
  | adcTake => cases h; exact .inl rfl
  | tmrCfgPwm init top mode clk =>
    simp only [exec, execTmrCfgPwm] at h
    split at h <;> cases h <;> exact .inl rfl
  | tmrCfgPer init top mode clk =>
    simp only [exec, execTmrCfgPer] at h
    split at h <;> cases h <;> exact .inl rfl
  | tmrDuty duty =>
    simp only [exec, execTmrDuty] at h
    split at h <;> cases h <;> exact .inl rfl
  | tmrSetcb x => cases h; exact .inl rfl
  | tmrClear => cases h; exact .inl rfl
  | lcdInit =>
    simp only [exec, execLcdInit] at h
    split at h <;> cases h
    · exact .inl rfl
    · exact .inr (loadable_initSeq _)
  | lcdCmd code => cases h; exact issueLcd_seqLoaded s (loadable_xfer _ _ _)
  | lcdData byte => cases h; exact issueLcd_seqLoaded s (loadable_xfer _ _ _)
  | lcdGoto row col =>
    simp only [exec, execLcdGoto] at h
    split at h
    · cases h; exact .inl rfl
    · split at h
      · cases h; exact .inl rfl
      · split at h <;> cases h
        · exact .inl rfl
        · exact .inr (loadable_xfer _ _ _)
  | lcdInt val => cases h; exact issueLcd_seqLoaded s (loadable_xfers _ _ _)

theorem issueWord_seqLoaded {w : Word} {s t : State} (h : issueWord w s = .next t) :
    SeqLoaded s t := by
  unfold issueWord at h
  split at h
  · exact exec_seqLoaded h
  · cases h; exact .inl rfl

theorem afterIssue_seqLoaded {rest : List HostAct} {s t u : State} (hl : SeqLoaded s t)
    (h : afterIssue rest (.next t) = .next u) : SeqLoaded s u := by
  rw [afterIssue_next] at h
  cases h
  split <;> exact hl

@[simp] theorem convertPart_lcd (skip : Bool) (rest : List HostAct) (s : State) :
    (convertPart skip rest s).lcd = s.lcd := by
  unfold convertPart
  split
  · rfl
  · split <;> rfl

theorem hostPart_seqLoaded {a : HostAct} {rest : List HostAct} {s u : State}
    (h : hostPart a rest s = .next u) : SeqLoaded s u := by
  cases a with
  | op i =>
    obtain ⟨t, ht, -⟩ := exec_quiet i s
    simp only [hostPart, ht] at h
    exact afterIssue_seqLoaded (exec_seqLoaded ht) h
  | convert skip => cases h; exact .inl (by simp)
  | gpioDir p o => cases h; exact .inl rfl
  | gpioPin p l => cases h; exact .inl rfl
  | select => cases h; exact .inl rfl
  | motorSet d duty => cases h; exact .inl rfl
  | motorSelected => cases h; exact .inl rfl
  | sensorRead => cases h; exact .inl rfl
  | status temp d => cases h; exact .inl rfl
  | statusCurrent => cases h; exact .inl rfl
  | iteration => cases h; exact .inl rfl

theorem hostNext_seqLoaded {s u : State} (h : hostNext s = .next u) : SeqLoaded s u := by
  unfold hostNext at h
  split at h
  · exact hostPart_seqLoaded h
  · split at h
    next w _ =>
      obtain ⟨t, ht, -⟩ := issueWord_quiet w s
      rw [ht] at h
      exact afterIssue_seqLoaded (issueWord_seqLoaded ht) h
    next => exact hostPart_seqLoaded h
    next => cases h; exact .inl rfl

/-- The host loads a list only where the sequencer has none left (R80, R173). -/
theorem hostAgent_seq_cases {s t : State} (h : hostAgent s = .next t) :
    t.lcd.seq = s.lcd.seq ∨ s.lcd.seq = [] ∧ Loadable s.par.cfg.busw t.lcd.seq := by
  by_cases hseq : s.lcd.seq = []
  · have hloaded : SeqLoaded s t := by
      rw [hostAgent, if_neg (not_not_intro hseq)] at h
      split at h
      · split at h <;> cases h <;> exact .inl rfl
      · exact hostNext_seqLoaded h
    exact hloaded.imp_right fun hl => ⟨hseq, hl⟩
  · rw [hostAgent, if_pos hseq] at h
    cases h
    exact .inl rfl

/-! A turn of an agent other than the sequencer -/

/-- From `s` to `t` nothing is transferred: the levels of the lines stand, the trace has the same
transfers, and the list is as it was, or was empty and a list that may be loaded is. -/
structure NoTransfer (s t : State) : Prop where
  par : t.par = s.par
  lines : t.lcd = { s.lcd with seq := t.lcd.seq }
  seq : t.lcd.seq = s.lcd.seq ∨ s.lcd.seq = [] ∧ Loadable s.par.cfg.busw t.lcd.seq
  txs : txsOf t.trace = txsOf s.trace
  xfers : xfersOf t.trace = xfersOf s.trace

theorem Quiet.txs {s t : State} (h : Quiet s t) : txsOf t.trace = txsOf s.trace := by
  obtain ⟨es, he, htx, -⟩ := h.trace
  rw [he, txsOf_append, htx, List.append_nil]

theorem Quiet.xfers {s t : State} (h : Quiet s t) : xfersOf t.trace = xfersOf s.trace := by
  obtain ⟨es, he, -, hxfer⟩ := h.trace
  rw [he, xfersOf_append, hxfer, List.append_nil]

theorem txsOf_append_of_nil {tr es : List Event} (h : txsOf es = []) :
    txsOf (tr ++ es) = txsOf tr := by
  rw [txsOf_append, h, List.append_nil]

theorem xfersOf_append_of_nil {tr es : List Event} (h : xfersOf es = []) :
    xfersOf (tr ++ es) = xfersOf tr := by
  rw [xfersOf_append, h, List.append_nil]

/-- `Tx` and `Xfer` events are the sequencer's alone. -/
theorem agentStep_keeps_transfers {turn : Turn} {s t : State} (h : agentStep turn s = .next t)
    (hseq : turn ≠ .seq) :
    txsOf t.trace = txsOf s.trace ∧ xfersOf t.trace = xfersOf s.trace := by
  cases turn with
  | host =>
    obtain ⟨u, hu, hq⟩ := hostAgent_quiet s
    cases hu.symm.trans h
    exact ⟨hq.txs, hq.xfers⟩
  | seq => exact absurd rfl hseq
  | tick =>
    cases h
    obtain ⟨htx, hxfer⟩ := tickEvents_quiet s.tmr
    obtain ⟨-, hu⟩ | ⟨-, hu⟩ := tickAgent_cases s <;> rw [hu]
    · exact ⟨rfl, rfl⟩
    · exact ⟨txsOf_append_of_nil htx, xfersOf_append_of_nil hxfer⟩
  | conv v =>
    cases h
    obtain ⟨-, hu⟩ | ⟨-, hu⟩ := convAgent_cases v s <;> rw [hu]
    · exact ⟨rfl, rfl⟩
    · exact ⟨txsOf_append_of_nil rfl, xfersOf_append_of_nil rfl⟩
  | adcHandler =>
    cases h
    obtain ⟨-, hu⟩ | ⟨-, hu⟩ := adcHandler_cases s <;> rw [hu]
    · exact ⟨rfl, rfl⟩
    · exact ⟨txsOf_append_of_nil rfl, xfersOf_append_of_nil rfl⟩
  | tmrDispatch =>
    obtain ⟨-, hu⟩ | ⟨-, -, hu⟩ | ⟨-, -, u, -, hq, hu⟩ := tmrDispatch_cases s <;>
      cases hu.symm.trans h
    · exact ⟨rfl, rfl⟩
    · exact ⟨rfl, rfl⟩
    · exact ⟨hq.txs.trans (txsOf_append_of_nil rfl), hq.xfers.trans (xfersOf_append_of_nil rfl)⟩

theorem agentStep_noTransfer {turn : Turn} {s t : State} (h : agentStep turn s = .next t)
    (hseq : turn ≠ .seq) : NoTransfer s t := by
  obtain ⟨htxs, hxfers⟩ := agentStep_keeps_transfers h hseq
  refine ⟨agentStep_keeps_par h, agentStep_keeps_lines h hseq, ?_, htxs, hxfers⟩
  by_cases hhost : turn = .host
  · subst hhost
    exact hostAgent_seq_cases h
  · rw [agentStep_keeps_lcd h hseq hhost]
    exact .inl rfl

/-- A step transfers nothing, or it performs the head of the sequencer's list. -/
theorem step_transfer_cases {s t : State} (h : step s = .next t) :
    NoTransfer s t
      ∨ ∃ m rest, s.lcd.seq = m :: rest ∧ t = microStep m (s.takeTurn.loadSeq rest) := by
  obtain ⟨-, hturn⟩ := agentStep_of_step h
  by_cases hseq : s.nextTurn = .seq
  · rw [hseq] at hturn
    cases hturn
    obtain ⟨hnil, hu⟩ | ⟨m, rest, hcons, hu⟩ := seqAgent_cases s.takeTurn
    · rw [hu]
      exact .inl ⟨rfl, rfl, .inl rfl, rfl, rfl⟩
    · exact .inr ⟨m, rest, hcons, hu⟩
  · obtain ⟨hpar, hlines, hloaded, htxs, hxfers⟩ := agentStep_noTransfer hturn hseq
    exact .inl ⟨hpar, hlines, hloaded, htxs, hxfers⟩

theorem NoTransfer.e {s t : State} (h : NoTransfer s t) : t.lcd.e = s.lcd.e := by
  rw [h.lines]

/-- With nothing left on its list the sequencer has left the enable line low (R178 (a)). -/
theorem e_of_linesOk_nil {s : State} (h : s.linesOk) (hseq : s.lcd.seq = []) : s.lcd.e = false := by
  simpa [State.linesOk, hseq, lineOk] using h

theorem NoTransfer.linesOk {s t : State} (h : NoTransfer s t) (hs : s.linesOk) : t.linesOk := by
  unfold State.linesOk
  rw [h.e]
  rcases h.seq with hseq | ⟨hnil, hloaded⟩
  · rwa [hseq]
  · rw [e_of_linesOk_nil hs hnil]
    exact hloaded.lines

theorem NoTransfer.busFits {s t : State} (h : NoTransfer s t) (hs : s.busFits) : t.busFits := by
  obtain ⟨hb, hsetB⟩ := hs
  have hbus : t.lcd.b = s.lcd.b := by rw [h.lines]
  unfold State.busFits
  rw [h.par, hbus]
  refine ⟨hb, ?_⟩
  rcases h.seq with hseq | ⟨-, hloaded⟩
  · rwa [hseq]
  · rintro m hm v rfl
    exact hloaded.fits v hm

theorem NoTransfer.strobesBalance {s t : State} (h : NoTransfer s t) (hs : s.strobesBalance) :
    t.strobesBalance := by
  obtain ⟨hlines, hbalance⟩ := hs
  refine ⟨h.linesOk hlines, ?_⟩
  rw [h.par, h.txs, h.xfers]
  rcases h.seq with hseq | ⟨hnil, hloaded⟩
  · rwa [hseq]
  · rw [hnil] at hbalance
    rw [Nat.mul_add, Nat.mul_add, hloaded.balance]
    exact congrArg (· + _) hbalance

/-! A micro-step -/

@[simp] theorem microStep_seq (m : MicroStep) (s : State) :
    (microStep m s).lcd.seq = s.lcd.seq := by
  obtain ⟨l, o, es, h, hl⟩ := microStep_frame m s
  rw [h]
  exact hl

/-- Performing the head of a list that respects the enable line leaves a list that does (R178). -/
theorem microStep_linesOk {m : MicroStep} {s : State} (h : lineOk s.lcd.e (m :: s.lcd.seq) = true) :
    (microStep m s).linesOk := by
  cases m with
  | setE l =>
    have hrest : lineOk l s.lcd.seq = true := (Bool.and_eq_true_iff.1 h).2
    cases l <;> exact hrest
  | setRs l => exact (Bool.and_eq_true_iff.1 h).2
  | setB v => exact (Bool.and_eq_true_iff.1 h).2
  | setDirs => exact h
  | setSt st => exact h
  | wait l => exact h
  | mark rs b => exact h

/-- `SetB` is the only micro-step that writes the bus (R174). -/
theorem microStep_b_cases (m : MicroStep) (s : State) :
    (microStep m s).lcd.b = s.lcd.b ∨ m = .setB (microStep m s).lcd.b := by
  cases m with
  | setB v => exact .inr rfl
  | setE l => cases l <;> exact .inl rfl
  | setRs l => exact .inl rfl
  | setDirs => exact .inl rfl
  | setSt st => exact .inl rfl
  | wait l => exact .inl rfl
  | mark rs b => exact .inl rfl

/-- `SetRS` is the only micro-step that writes the register-select line (R174). -/
theorem microStep_rs_cases (m : MicroStep) (s : State) :
    (microStep m s).lcd.rs = s.lcd.rs ∨ m = .setRs (microStep m s).lcd.rs := by
  cases m with
  | setRs l => exact .inr rfl
  | setE l => cases l <;> exact .inl rfl
  | setB v => exact .inl rfl
  | setDirs => exact .inl rfl
  | setSt st => exact .inl rfl
  | wait l => exact .inl rfl
  | mark rs b => exact .inl rfl

theorem microStep_busFits {m : MicroStep} {s : State}
    (hb : s.lcd.b.toNat < 2 ^ s.par.cfg.busw.lines)
    (hsetB : ∀ m' ∈ m :: s.lcd.seq, ∀ v, m' = .setB v → v.toNat < 2 ^ s.par.cfg.busw.lines) :
    (microStep m s).busFits := by
  unfold State.busFits
  rw [microStep_par, microStep_seq]
  refine ⟨?_, fun m' hm' => hsetB m' (List.mem_cons_of_mem _ hm')⟩
  rcases microStep_b_cases m s with hkept | hwritten
  · rwa [hkept]
  · exact hsetB m List.mem_cons_self _ hwritten

theorem dirEvents_eq_dir {c : Config} {ev : Event} (h : ev ∈ dirEvents c) :
    ∃ p, ev = .dir p true := by
  simp only [dirEvents, List.mem_cons, List.mem_map] at h
  obtain rfl | rfl | ⟨p, -, rfl⟩ := h
  · exact ⟨_, rfl⟩
  · exact ⟨_, rfl⟩
  · exact ⟨p, rfl⟩

theorem txsOf_dirEvents (c : Config) : txsOf (dirEvents c) = [] := by
  refine List.filterMap_eq_nil_iff.2 fun ev hev => ?_
  obtain ⟨p, rfl⟩ := dirEvents_eq_dir hev
  rfl

theorem xfersOf_dirEvents (c : Config) : xfersOf (dirEvents c) = [] := by
  refine List.filterMap_eq_nil_iff.2 fun ev hev => ?_
  obtain ⟨p, rfl⟩ := dirEvents_eq_dir hev
  rfl

/-- A falling edge emits `Tx` if the line was high (R103, R174). -/
theorem length_txsOf_fallEvents (s : State) :
    (txsOf (fallEvents s)).length = if s.lcd.e then 1 else 0 := by
  cases h : s.lcd.e <;> simp [fallEvents, h, txsOf, Event.asTx]

theorem xfersOf_fallEvents (s : State) : xfersOf (fallEvents s) = [] := by
  cases h : s.lcd.e <;> simp [fallEvents, h, xfersOf, Event.asXfer]

/-- The falling edges of a list that respects the enable line find it high, so each emits `Tx`: the
strobes done and those still to come stay as many (R178). -/
theorem microStep_keeps_strobes {m : MicroStep} {s : State}
    (h : lineOk s.lcd.e (m :: s.lcd.seq) = true) :
    (txsOf (microStep m s).trace).length + fallsLeft s.lcd.seq
      = (txsOf s.trace).length + fallsLeft (m :: s.lcd.seq) := by
  have hquiet : ∀ es, txsOf es = [] → (txsOf (s.trace ++ es)).length = (txsOf s.trace).length :=
    fun es hes => by rw [txsOf_append_of_nil hes]
  cases m with
  | setE l =>
    cases l with
    | true => exact congrArg (· + _) (hquiet _ rfl)
    | false =>
      have he : s.lcd.e = true := by simpa using (Bool.and_eq_true_iff.1 h).1
      have hcount : fallsLeft (.setE false :: s.lcd.seq) = fallsLeft s.lcd.seq + 1 :=
        List.countP_cons_of_pos rfl
      have htrace : (microStep (.setE false) s).trace = s.trace ++ fallEvents s := rfl
      rw [hcount, htrace, length_txsOf_append, length_txsOf_fallEvents, he, if_pos rfl]
      omega
  | setRs l => exact congrArg (· + _) (hquiet _ rfl)
  | setB v => exact congrArg (· + _) (hquiet _ rfl)
  | setDirs => exact congrArg (· + _) (hquiet _ (txsOf_dirEvents _))
  | setSt st => rfl
  | wait l => rfl
  | mark rs b => exact congrArg (· + _) (hquiet _ rfl)

/-- Each `Mark` emits `Xfer`, and nothing else does (R174). -/
theorem microStep_keeps_marks (m : MicroStep) (s : State) :
    (xfersOf (microStep m s).trace).length + marksLeft s.lcd.seq
      = (xfersOf s.trace).length + marksLeft (m :: s.lcd.seq) := by
  have hquiet : ∀ es, xfersOf es = [] →
      (xfersOf (s.trace ++ es)).length = (xfersOf s.trace).length :=
    fun es hes => by rw [xfersOf_append_of_nil hes]
  cases m with
  | mark rs b =>
    have hcount : marksLeft (.mark rs b :: s.lcd.seq) = marksLeft s.lcd.seq + 1 :=
      List.countP_cons_of_pos rfl
    have htrace : xfersOf (microStep (.mark rs b) s).trace = xfersOf s.trace ++ [(rs, b)] :=
      xfersOf_append _ _
    rw [hcount, htrace, List.length_append, List.length_singleton]
    omega
  | setE l =>
    cases l with
    | true => exact congrArg (· + _) (hquiet _ rfl)
    | false => exact congrArg (· + _) (hquiet _ (xfersOf_fallEvents s))
  | setRs l => exact congrArg (· + _) (hquiet _ rfl)
  | setB v => exact congrArg (· + _) (hquiet _ rfl)
  | setDirs => exact congrArg (· + _) (hquiet _ (xfersOf_dirEvents _))
  | setSt st => rfl
  | wait l => rfl

theorem microStep_strobesBalance {m : MicroStep} {s : State}
    (h : lineOk s.lcd.e (m :: s.lcd.seq) = true)
    (hbalance : s.par.cfg.busw.lines * ((txsOf s.trace).length + fallsLeft (m :: s.lcd.seq))
      = 8 * ((xfersOf s.trace).length + marksLeft (m :: s.lcd.seq))) :
    (microStep m s).strobesBalance := by
  refine ⟨microStep_linesOk h, ?_⟩
  rwa [microStep_par, microStep_seq, microStep_keeps_strobes h, microStep_keeps_marks]

/-! The invariants -/

/-- Settles O11: a turn that transfers nothing keeps the levels and loads only a list that respects
them, and a micro-step performs the head of such a list. -/
theorem lcdLinesInvariant : Obligations.LcdLinesInvariant := by
  rintro s t ⟨hlines, hb, hsetB⟩ h
  rcases step_transfer_cases h with hn | ⟨m, rest, hseq, rfl⟩
  · exact ⟨hn.linesOk hlines, hn.busFits ⟨hb, hsetB⟩⟩
  · rw [State.linesOk, hseq] at hlines
    rw [hseq] at hsetB
    exact ⟨microStep_linesOk hlines, microStep_busFits hb hsetB⟩

/-- Settles O12: what is strobed and marked leaves the list and enters the trace, and a loaded list
balances by itself. -/
theorem strobesBalanceInvariant : Obligations.StrobesBalanceInvariant := by
  refine ⟨?_, ?_⟩
  · rintro s t hs h
    rcases step_transfer_cases h with hn | ⟨m, rest, hseq, rfl⟩
    · exact hn.strobesBalance hs
    · obtain ⟨hlines, hbalance⟩ := hs
      rw [State.linesOk, hseq] at hlines
      rw [hseq] at hbalance
      exact microStep_strobesBalance hlines hbalance
  · rintro s ⟨-, hbalance⟩ hseq
    rwa [hseq] at hbalance

/-- Settles O16: only `SetRS` and `SetB` change these lines, and a list that respects the enable
line has them in their phases. -/
theorem lineLevelsChangeInPhase : Obligations.LineLevelsChangeInPhase := by
  intro s t hs h
  rcases step_transfer_cases h with hn | ⟨m, rest, hseq, rfl⟩
  · have hlines := hn.lines
    exact ⟨fun hrs => absurd (by rw [hlines]) hrs, fun hb => absurd (by rw [hlines]) hb⟩
  · rw [State.linesOk, hseq] at hs
    refine ⟨fun hrs => ?_, fun hb => ?_⟩
    · obtain hkept | hwritten := microStep_rs_cases m (s.takeTurn.loadSeq rest)
      · exact absurd hkept hrs
      · rw [hwritten] at hs
        simpa using (Bool.and_eq_true_iff.1 hs).1
    · obtain hkept | hwritten := microStep_b_cases m (s.takeTurn.loadSeq rest)
      · exact absurd hkept hb
      · rw [hwritten] at hs
        exact (Bool.and_eq_true_iff.1 hs).1

end Sys2Proof.Machine

/-! PROOF. The issue of the LCD operations (R173, R182 to R186): what each loads in the foreground,
and its refusal before `Ready`. -/

namespace Sys2Proof.Machine

/-- Settles O45: a transfer is the list of its parts, with the bus values of the byte. -/
theorem transferMicroSteps : Obligations.TransferMicroSteps := by
  refine fun rs b => ⟨rfl, ?_⟩
  rw [xfer, busValues_four]
  rfl

/-- Nine micro-steps on a full bus and fifteen on a reduced one. -/
theorem length_xfer (w : BusWidth) (rs : Bool) (b : Byte) :
    (xfer w rs b).length = 3 + 6 * (8 / w.lines) := by
  cases w <;> rfl

/-- In the foreground `LCD_INIT` loads its list (R183). -/
theorem exec_lcdInit_of_foreground {s : State} (h : s.ctx = .foreground) :
    exec .lcdInit s = .next (s.loadSeq (initSeq s.par.cfg)) := by
  have hin : s.inHandler = false := by simp [inHandler_eq, h]
  simp [exec, execLcdInit, hin]

/-- Settles O48: the operation asks for no protocol state, and the list is counted. -/
theorem lcdInitLoadsSequence : Obligations.LcdInitLoadsSequence := by
  intro s hctx
  rw [exec_lcdInit_of_foreground hctx]
  cases hw : s.par.cfg.busw <;>
    exact ⟨by simp [State.loadSeq, initSeq, modeCommands, hw],
      by simp [initSeq, modeCommands, hw, length_xfer, BusWidth.lines]⟩

/-- Settles O49: in `Ready` the one transfer is loaded. -/
theorem lcdCmdAndDataLoadTransfer : Obligations.LcdCmdAndDataLoadTransfer := by
  intro s b hctx hst
  simp only [exec, execLcdCmd, execLcdData, issueLcd_of_ready hctx hst]
  exact ⟨rfl, rfl⟩

theorem issueLcd_of_not_ready {s : State} (hs : s.refused = none) (hctx : s.ctx = .foreground)
    (hst : s.lcd.st ≠ .ready) (q : List MicroStep) :
    s.issueLcd q = { s with refused := some .lcdNotReady } := by
  rw [← State.refuse_of_safe hs]
  rcases issueLcd_cases s q with ⟨hint, -⟩ | ⟨-, -, h⟩ | ⟨-, hready, -⟩
  · cases hctx.symm.trans hint
  · exact h
  · exact absurd hready hst

/-- The guard of R173 comes before the range check of R189. -/
theorem exec_lcdGoto_of_not_ready {s : State} (hs : s.refused = none) (hctx : s.ctx = .foreground)
    (hst : s.lcd.st ≠ .ready) (row col : BitVec 8) :
    exec (.lcdGoto row col) s = .next { s with refused := some .lcdNotReady } := by
  have hin : s.inHandler = false := by simp [inHandler_eq, hctx]
  rw [← State.refuse_of_safe hs]
  simp [exec, execLcdGoto, hin, hst]

/-- Settles O52: the guard of the issue, which `LCD_GOTO` asks before the range of its operands. -/
theorem lcdRefusedBeforeReady : Obligations.LcdRefusedBeforeReady := by
  intro s hs hctx hst
  have hissue := issueLcd_of_not_ready hs hctx hst
  exact ⟨fun _ => congrArg _ (hissue _), fun _ => congrArg _ (hissue _),
    exec_lcdGoto_of_not_ready hs hctx hst, fun _ => congrArg _ (hissue _)⟩

end Sys2Proof.Machine

/-! PROOF. The observer (R207 to R212): its rules, and what it makes of the commands of `LCD_INIT`
and of data bytes within one visible row. -/

namespace Sys2Proof.Machine

theorem observe_of_lost {o : Observer} (h : o.st = .lost) (c : Config) (rs : Bool) (b : Byte) :
    observe c rs b o = o := by
  simp [observe, h]

theorem observe_data_of_unset {o : Observer} (h : o.st = .unset) (c : Config) (b : Byte) :
    observe c true b o = o := by
  simp [observe, h]

/-- The start of the tracking, at the clear (R208). -/
theorem observe_command_of_unset {o : Observer} (h : o.st = .unset) (c : Config) (b : Byte) :
    observe c false b o =
      if b = c.cmdClear then { dd := Memory.filled c.glyphBlank, ac := 0, st := .tracking }
      else o := by
  simp [observe, h, Observer.clear]

theorem observe_data_of_tracking {o : Observer} (h : o.st = .tracking) (c : Config) (b : Byte) :
    observe c true b o = observeData c b o := by
  simp [observe, h]

theorem observe_command_of_tracking {o : Observer} (h : o.st = .tracking) (c : Config) (b : Byte) :
    observe c false b o = observeCommand c b o := by
  simp [observe, h]

/-- The four visible rows (R67). -/
theorem visible_iff (cols : Nat) (a : BitVec 7) :
    visible cols a = true ↔
      a.toNat < cols ∨ 0x40 ≤ a.toNat ∧ a.toNat < 0x40 + cols
        ∨ 0x10 ≤ a.toNat ∧ a.toNat < 0x10 + cols
        ∨ 0x50 ≤ a.toNat ∧ a.toNat < 0x50 + cols := by
  simp [visible]

/-- The advance of the address, a sum in 7 bits (log entry 19). -/
theorem ac_add_one (a : BitVec 7) : a + 1#7 = BitVec.ofNat 7 ((a.toNat + 1) % 128) := by
  apply BitVec.eq_of_toNat_eq
  simp [BitVec.toNat_add]

/-- Settles O57: one equation for each state of the observer and each level, and the two laws of the
memory. -/
theorem observerRules : Obligations.ObserverRules := by
  intro c o b
  refine ⟨fun h rs => observe_of_lost h c rs b,
    fun h => ⟨observe_data_of_unset h c b, observe_command_of_unset h c b⟩,
    fun h => ?_, fun h => ?_, Memory.read_filled c.glyphBlank, fun hwf => ?_⟩
  · rw [observe_data_of_tracking h, observeData, ← ac_add_one]
    simp only [visible_iff]
  · rw [observe_command_of_tracking h]
    rfl
  · exact ⟨Memory.read_write_same _ _ _ hwf.1, fun a ha => Memory.read_write_other _ _ _ _ ha⟩

end Sys2Proof.Machine

/-! PROOF. What a run of the sequencer leaves alone, and on the LCD lines. -/

namespace Sys2Proof.Machine

theorem seqSteps_frame (n : Nat) (s : State) :
    ∃ l o es, seqSteps n s = { s with lcd := l, obs := o, trace := s.trace ++ es } := by
  induction n generalizing s with
  | zero => exact ⟨s.lcd, s.obs, [], by simp [seqSteps]⟩
  | succ n ih =>
    obtain ⟨l, o, es, h⟩ := seqAgent_frame s
    obtain ⟨l', o', fs, h'⟩ := ih (seqAgent s)
    exact ⟨l', o', es ++ fs, by rw [seqSteps, h', h, List.append_assoc]⟩

/-- The sequencer touches no other unit, nor the host, and refuses nothing (R172). -/
theorem seqSteps_keeps_units (n : Nat) (s : State) :
    (seqSteps n s).adc = s.adc ∧ (seqSteps n s).tmr = s.tmr ∧ (seqSteps n s).host = s.host
      ∧ (seqSteps n s).refused = s.refused := by
  obtain ⟨l, o, es, h⟩ := seqSteps_frame n s
  rw [h]
  exact ⟨rfl, rfl, rfl, rfl⟩

/-- What a transfer leaves on the bus: the byte, or its low nibble (R176, R177). -/
def lastBusValue (w : BusWidth) (b : Byte) : Byte :=
  match w with
  | .four => b &&& 0x0F#8
  | .eight => b

theorem seqSteps_xfer_lcd {s : State} {rs : Bool} {b : Byte} {rest : List MicroStep}
    (he : s.lcd.e = false) (hseq : s.lcd.seq = xfer s.par.cfg.busw rs b ++ rest) :
    (seqSteps (xfer s.par.cfg.busw rs b).length s).lcd
      = { s.lcd with rs := rs, b := lastBusValue s.par.cfg.busw b, seq := rest } := by
  obtain ⟨height, hfour⟩ := transferEvents s rs b rest he hseq
  cases hw : s.par.cfg.busw with
  | eight => exact congrArg State.lcd (height hw)
  | four => exact congrArg State.lcd (hfour hw)

/-- After several transfers the lines hold what the last one has left. -/
theorem seqSteps_xfers_lcd {s : State} {rs : Bool} {bs : List Byte} {b : Byte}
    {rest : List MicroStep} (he : s.lcd.e = false)
    (hseq : s.lcd.seq = (bs ++ [b]).flatMap (xfer s.par.cfg.busw rs) ++ rest) :
    (seqSteps ((bs ++ [b]).flatMap (xfer s.par.cfg.busw rs)).length s).lcd
      = { s.lcd with rs := rs, b := lastBusValue s.par.cfg.busw b, seq := rest } := by
  rw [List.flatMap_append, List.flatMap_singleton] at hseq ⊢
  rw [List.append_assoc] at hseq
  have hfirst := transfers_xfers s.par.cfg.busw rs bs s _ he hseq
  have hlast := seqSteps_xfer_lcd hfirst.e (by rw [hfirst.par]; exact seqSteps_seq hseq)
  rw [hfirst.par] at hlast
  rw [List.length_append, seqSteps_add, hlast]
  simp only [hfirst.st, hfirst.dirs, hfirst.e, he]

end Sys2Proof.Machine

/-! PROOF. `LCD_INIT` run to its end (R183, R208): the steps before its transfers, the transfers,
the step to `Ready`; and the observer, to whom every byte but the clear says nothing. -/

namespace Sys2Proof.Machine

/-- The command bytes of `LCD_INIT`, in order (R183). -/
def initBytes (c : Config) : List Byte := modeCommands c ++ [c.cmdClear] ++ [c.cmdCursorOff]

/-- The micro-steps of `LCD_INIT` before its first transfer (R183). -/
def initPrelude : List MicroStep :=
  [.setSt .uninitialized, .setDirs, .setSt .powerSettling, .wait .power,
    .setSt .busWidthNegotiation]

theorem initSeq_eq (c : Config) :
    initSeq c = initPrelude ++ ((initBytes c).flatMap (xfer c.busw false) ++ [.setSt .ready]) := by
  simp [initSeq, initPrelude, initBytes]

theorem seqSteps_initPrelude {s : State} {rest : List MicroStep}
    (h : s.lcd.seq = initPrelude ++ rest) :
    seqSteps initPrelude.length s =
      { s with
        lcd := { s.lcd with st := .busWidthNegotiation, dirs := true, seq := rest }
        trace := s.trace ++ dirEvents s.par.cfg } := by
  rw [initPrelude] at h
  simp [initPrelude, seqSteps, seqAgent, h, microStep, State.emit, State.loadSeq]

theorem seqSteps_setSt {s : State} {st : LcdState} (h : s.lcd.seq = [.setSt st]) :
    seqSteps 1 s = { s with lcd := { s.lcd with st := st, seq := [] } } := by
  simp [seqSteps, seqAgent, h, microStep, State.loadSeq]

/-- From `s` to `u` the sequencer has brought the display up (R183). -/
structure BroughtUp (s u : State) : Prop where
  lcd : u.lcd =
    { st := .ready, rs := false, e := false, dirs := true, seq := []
      b := lastBusValue s.par.cfg.busw s.par.cfg.cmdCursorOff }
  xfers : xfersOf u.trace = xfersOf s.trace ++ (initBytes s.par.cfg).map (fun b => (false, b))
  obs : u.obs = (initBytes s.par.cfg).foldl (fun o b => observe s.par.cfg false b o) s.obs

theorem seqSteps_initSeq {s : State} (he : s.lcd.e = false) (hseq : s.lcd.seq = initSeq s.par.cfg) :
    BroughtUp s (seqSteps s.lcd.seq.length s) := by
  rw [initSeq_eq] at hseq
  have hprelude := seqSteps_initPrelude hseq
  have hlength : s.lcd.seq.length = initPrelude.length
      + (((initBytes s.par.cfg).flatMap (xfer s.par.cfg.busw false)).length + 1) := by
    rw [hseq, List.length_append, List.length_append, List.length_singleton]
  rw [hlength, seqSteps_add, seqSteps_add]
  generalize seqSteps initPrelude.length s = p at hprelude ⊢
  have hpar : p.par = s.par := by rw [hprelude]
  have hpe : p.lcd.e = false := by rw [hprelude]; exact he
  have hpseq : p.lcd.seq
      = (initBytes p.par.cfg).flatMap (xfer p.par.cfg.busw false) ++ [.setSt .ready] := by
    rw [hprelude]
  have hlcd : (seqSteps ((initBytes p.par.cfg).flatMap (xfer p.par.cfg.busw false)).length p).lcd
      = _ := seqSteps_xfers_lcd hpe hpseq
  have hsent := transfers_xfers _ _ _ p _ hpe hpseq
  rw [hpar] at hlcd hsent
  generalize seqSteps ((initBytes s.par.cfg).flatMap (xfer s.par.cfg.busw false)).length p = q
    at hlcd hsent ⊢
  rw [seqSteps_setSt (by rw [hlcd])]
  refine ⟨?_, ?_, ?_⟩
  · simp [hlcd, hprelude, he]
  · refine hsent.xfers.trans ?_
    rw [hprelude, xfersOf_append_of_nil (xfersOf_dirEvents _)]
  · refine hsent.obs.trans ?_
    rw [hprelude]

/-! The observer during `LCD_INIT` -/

/-- The commands of a legal configuration other than the clear and the set-cursor command are told
from these two (R9, R104). -/
theorem quietCommands_of_legal {c : Config} (h : c.legal = true) {b : Byte}
    (hb : b ∈ quietCommands c) : b ≠ c.cmdClear ∧ b &&& 0x80#8 ≠ c.cmdSetCursor := by
  simp only [Config.legal, Bool.and_eq_true, and_assoc, List.all_eq_true, bne_iff_ne] at h
  obtain ⟨-, hclear, -, -, hset, -⟩ := h
  exact ⟨hclear b hb, hset b (List.mem_cons_of_mem _ hb)⟩

/-- Whatever state the observer is in, it takes such a command without effect (R210). -/
theorem observe_quietCommand {c : Config} (hlegal : c.legal = true) {b : Byte}
    (hb : b ∈ quietCommands c) (o : Observer) : observe c false b o = o := by
  obtain ⟨hclear, hset⟩ := quietCommands_of_legal hlegal hb
  cases hst : o.st with
  | unset => rw [observe_command_of_unset hst, if_neg hclear]
  | tracking =>
    rw [observe_command_of_tracking hst, observeCommand, if_neg hclear, if_neg hset, if_pos hb]
  | lost => exact observe_of_lost hst c false b

theorem foldl_observe_quietCommands {c : Config} (hlegal : c.legal = true) {bs : List Byte}
    (hbs : bs ⊆ quietCommands c) (o : Observer) :
    bs.foldl (fun o b => observe c false b o) o = o := by
  induction bs with
  | nil => rfl
  | cons b bs ih =>
    obtain ⟨hb, hrest⟩ := List.cons_subset.1 hbs
    rw [List.foldl_cons, observe_quietCommand hlegal hb, ih hrest]

theorem observe_clear {o : Observer} (h : o.st ≠ .lost) (c : Config) :
    observe c false c.cmdClear o
      = { dd := Memory.filled c.glyphBlank, ac := 0, st := .tracking } := by
  cases hst : o.st with
  | unset => rw [observe_command_of_unset hst, if_pos rfl]
  | tracking =>
    rw [observe_command_of_tracking hst, observeCommand, if_pos rfl, Observer.clear, hst]
  | lost => exact absurd hst h

theorem modeCommands_subset_quietCommands (c : Config) : modeCommands c ⊆ quietCommands c := by
  cases hw : c.busw <;> simp [modeCommands, quietCommands, hw]

/-- Of the bytes of `LCD_INIT` the observer takes up the clear alone (R208, R210). -/
theorem foldl_observe_initBytes {c : Config} (hlegal : c.legal = true) {o : Observer}
    (h : o.st ≠ .lost) :
    (initBytes c).foldl (fun o b => observe c false b o) o
      = { dd := Memory.filled c.glyphBlank, ac := 0, st := .tracking } := by
  have hoff : c.cmdCursorOff ∈ quietCommands c := List.mem_cons_self
  have hmodes := foldl_observe_quietCommands hlegal (modeCommands_subset_quietCommands c) o
  simp only [initBytes, List.foldl_append, List.foldl_cons, List.foldl_nil]
  rw [hmodes, observe_clear h, observe_quietCommand hlegal hoff]

/-- Settles O53: the run of the list that is loaded, and the observer's reading of its bytes. -/
theorem lcdInitBringsUpDisplay : Obligations.LcdInitBringsUpDisplay := by
  intro s hctx he
  have hup := seqSteps_initSeq (s := s.loadSeq (initSeq s.par.cfg)) he rfl
  obtain ⟨hadc, htmr, hhost, hrefused⟩ := seqSteps_keeps_units
    (s.loadSeq (initSeq s.par.cfg)).lcd.seq.length (s.loadSeq (initSeq s.par.cfg))
  refine ⟨_, _, exec_lcdInit_of_foreground hctx, rfl, ?_, ?_, ?_⟩
  · refine hup.lcd.trans ?_
    cases hw : s.par.cfg.busw <;> simp [lastBusValue, hw]
  · refine hup.xfers.trans ?_
    cases hw : s.par.cfg.busw <;> simp [initBytes, modeCommands, hw]
  · refine ⟨hadc, htmr, hhost, hrefused, fun hlegal hst => ?_⟩
    have hobs := hup.obs.trans (foldl_observe_initBytes hlegal hst)
    rw [hobs]
    exact ⟨rfl, rfl, Memory.read_filled _⟩

end Sys2Proof.Machine

/-! PROOF. An integer on the display (R195, R196, R209): the observer writes the data bytes to one
address after the other, as long as they are visible. -/

namespace Sys2Proof.Machine

/-- From `o` to `o'` the text `tx` has come to stand at the address of `o`, the address after it,
and no other cell has changed. -/
structure ShowsText (tx : List Byte) (o o' : Observer) : Prop where
  st : o'.st = .tracking
  ac : o'.ac.toNat = o.ac.toNat + tx.length
  text : ∀ k g, tx[k]? = some g → Memory.read o'.dd (BitVec.ofNat 7 (o.ac.toNat + k)) = g
  others : ∀ a : BitVec 7, a.toNat < o.ac.toNat ∨ o.ac.toNat + tx.length ≤ a.toNat →
    Memory.read o'.dd a = Memory.read o.dd a

theorem visible_of_row {cols off : Nat} (hoff : off ∈ [0x00, 0x40, 0x10, 0x50]) {a : BitVec 7}
    (hlow : off ≤ a.toNat) (hhigh : a.toNat < off + cols) : visible cols a = true :=
  List.any_eq_true.2 ⟨off, hoff, decide_eq_true ⟨hlow, hhigh⟩⟩

/-- A visible row of a display of at most 16 columns ends below address 128 (R9, R65). -/
theorem row_end_lt {cols off : Nat} (hoff : off ∈ [0x00, 0x40, 0x10, 0x50]) (hcols : cols ≤ 16) :
    off + cols < 128 := by
  simp only [List.mem_cons, List.not_mem_nil, or_false] at hoff
  omega

theorem toNat_ac_add_one {a : BitVec 7} (h : a.toNat + 1 < 128) :
    (a + 1#7).toNat = a.toNat + 1 := by
  rw [BitVec.toNat_add]
  exact Nat.mod_eq_of_lt h

theorem ShowsText.nil {o : Observer} (h : o.st = .tracking) : ShowsText [] o o :=
  ⟨h, rfl, fun _ _ hk => by simp at hk, fun _ _ => rfl⟩

/-- A visible byte, and then a text at the next address. -/
theorem ShowsText.cons {b : Byte} {tx : List Byte} {o o' : Observer}
    (hwf : Memory.wf o.dd) (hac : o.ac.toNat + 1 < 128)
    (h : ShowsText tx { o with dd := o.dd.write o.ac b, ac := o.ac + 1#7 } o') :
    ShowsText (b :: tx) o o' := by
  have hnext := toNat_ac_add_one hac
  obtain ⟨hst, hend, htext, hothers⟩ := h
  simp only [hnext] at hend htext hothers
  refine ⟨hst, ?_, ?_, ?_⟩
  · rw [hend, List.length_cons]; omega
  · intro k g hk
    cases k with
    | zero =>
      obtain rfl : b = g := by simpa using hk
      rw [Nat.add_zero, BitVec.ofNat_toNat, BitVec.setWidth_eq, hothers _ (by omega)]
      exact Memory.read_write_same _ _ _ hwf.1
    | succ k =>
      rw [← Nat.add_assoc, Nat.add_right_comm]
      exact htext k g (by simpa using hk)
  · intro a ha
    rw [List.length_cons] at ha
    have hne : a ≠ o.ac := by rintro rfl; omega
    rw [hothers a (by omega)]
    exact Memory.read_write_other _ _ _ _ hne

theorem foldl_observe_row {c : Config} {off : Nat} (hoff : off ∈ [0x00, 0x40, 0x10, 0x50])
    (hcols : c.lcdCols ≤ 16) {tx : List Byte} {o : Observer} (hst : o.st = .tracking)
    (hwf : Memory.wf o.dd) (hlow : off ≤ o.ac.toNat)
    (hfit : o.ac.toNat + tx.length ≤ off + c.lcdCols) :
    ShowsText tx o (tx.foldl (fun o b => observe c true b o) o) := by
  induction tx generalizing o with
  | nil => exact ShowsText.nil hst
  | cons b tx ih =>
    rw [List.length_cons] at hfit
    have hend := row_end_lt hoff hcols
    have hvisible : visible c.lcdCols o.ac = true := visible_of_row hoff hlow (by omega)
    have hac : o.ac.toNat + 1 < 128 := by omega
    have hnext := toNat_ac_add_one hac
    rw [List.foldl_cons, observe_data_of_tracking hst, observeData, if_pos hvisible]
    exact ShowsText.cons hwf hac (ih hst (Memory.write_wf _ _ _ hwf)
      (by simp only [hnext]; omega) (by simp only [hnext]; omega))

/-- The transfers of a text that fits in the visible row show it at the address (R209). -/
theorem seqSteps_xferData_showsText {s : State} {tx : List Byte} {off : Nat}
    (he : s.lcd.e = false) (hseq : s.lcd.seq = xferData s.par.cfg.busw tx)
    (hoff : off ∈ [0x00, 0x40, 0x10, 0x50]) (hcols : s.par.cfg.lcdCols ≤ 16)
    (hst : s.obs.st = .tracking) (hwf : Memory.wf s.obs.dd) (hlow : off ≤ s.obs.ac.toNat)
    (hfit : s.obs.ac.toNat + tx.length ≤ off + s.par.cfg.lcdCols) :
    ShowsText tx s.obs (seqSteps s.lcd.seq.length s).obs := by
  rw [xferData] at hseq
  have hsent := transfers_xfers s.par.cfg.busw true tx s [] he (by rw [hseq, List.append_nil])
  rw [hseq, hsent.obs]
  exact foldl_observe_row hoff hcols hst hwf hlow hfit

theorem exec_lcdInt_of_ready {s : State} (hctx : s.ctx = .foreground) (hst : s.lcd.st = .ready)
    (val : BitVec 28) :
    exec (.lcdInt val) s = .next (s.loadSeq (xferData s.par.cfg.busw
      (decimalText s.par.cfg (signedOperand s.par.cfg val)))) :=
  congrArg _ (issueLcd_of_ready hctx hst _)

/-- Settles O54: the text is transferred as data, byte after byte, to an observer that finds every
address visible. -/
theorem integerReadsBack : Obligations.IntegerReadsBack := by
  rintro s val off tx hctx hready he hst hwf hcols hoff hlow rfl hfit
  have hshown := seqSteps_xferData_showsText (s := s.loadSeq (xferData s.par.cfg.busw
    (decimalText s.par.cfg (signedOperand s.par.cfg val)))) he rfl hoff hcols hst hwf hlow hfit
  exact ⟨_, _, exec_lcdInt_of_ready hctx hready val, rfl, seqSteps_seq (List.append_nil _).symm,
    hshown.st, hshown.ac, hshown.text, hshown.others⟩

end Sys2Proof.Machine

/-! PROOF. The decimal digits (R192) and the decimal text (R193, R194, R196): the digits follow the
recursion of the rule, so they denote the number, and the text says which integer it is. -/

namespace Sys2Proof.Machine

/-! The digits -/

/-- Any two numbers of steps that are enough give the same digits. -/
theorem digitsFrom_eq_digitsFrom {f g n : Nat} (hf : n < f) (hg : n < g) :
    digitsFrom f n = digitsFrom g n := by
  induction f generalizing g n with
  | zero => omega
  | succ f ih =>
    obtain ⟨g, rfl⟩ : ∃ k, g = k + 1 := ⟨g - 1, by omega⟩
    rw [digitsFrom, digitsFrom]
    split
    · rfl
    next h => rw [ih (n := n / 10) (g := g) (by omega) (by omega)]

theorem digits_of_lt {n : Nat} (h : n < 10) : digits n = [n] := by
  rw [digits, digitsFrom, if_pos h]

theorem digits_of_le {n : Nat} (h : 10 ≤ n) : digits n = digits (n / 10) ++ [n % 10] := by
  rw [digits, digitsFrom, if_neg (Nat.not_lt.2 h), digits,
    digitsFrom_eq_digitsFrom (n := n / 10) (f := n) (g := n / 10 + 1) (by omega) (by omega)]

/-- The induction that the recursion of R192 gives. -/
theorem digits_induction {P : Nat → Prop} (one : ∀ n, n < 10 → P n)
    (more : ∀ n, 10 ≤ n → P (n / 10) → P n) (n : Nat) : P n := by
  induction n using Nat.strong_induction_on with
  | _ n ih =>
    rcases Nat.lt_or_ge n 10 with h | h
    · exact one n h
    · exact more n h (ih (n / 10) (by omega))

theorem foldl_digits (n : Nat) : (digits n).foldl (fun acc d => acc * 10 + d) 0 = n := by
  induction n using digits_induction with
  | one n h => simp [digits_of_lt h]
  | more n h ih =>
    rw [digits_of_le h, List.foldl_append, ih]
    exact Nat.div_add_mod' n 10

theorem lt_ten_of_mem_digits {n d : Nat} (hd : d ∈ digits n) : d < 10 := by
  induction n using digits_induction with
  | one n h =>
    obtain rfl : d = n := by simpa [digits_of_lt h] using hd
    exact h
  | more n h ih =>
    rw [digits_of_le h] at hd
    rcases List.mem_append.1 hd with hd | hd
    · exact ih hd
    · rw [List.mem_singleton.1 hd]
      exact Nat.mod_lt n (by decide)

theorem digits_ne_nil (n : Nat) : digits n ≠ [] := by
  induction n using digits_induction with
  | one n h => simp [digits_of_lt h]
  | more n h ih => simp [digits_of_le h]

theorem eq_zero_of_head_digits {n : Nat} (hhead : (digits n).head? = some 0) : n = 0 := by
  induction n using digits_induction with
  | one n h => simpa [digits_of_lt h] using hhead
  | more n h ih =>
    rw [digits_of_le h, List.head?_append_of_ne_nil _ (digits_ne_nil _)] at hhead
    have hzero := ih hhead
    omega

/-- A number below `10 ^ k` has at most `k` digits, but 0 has one. -/
theorem length_digits_le {n k : Nat} (h : n < 10 ^ (k + 1)) : (digits n).length ≤ k + 1 := by
  induction n using digits_induction generalizing k with
  | one n hn => simp [digits_of_lt hn]
  | more n hn ih =>
    obtain ⟨j, rfl⟩ : ∃ j, k = j + 1 := by
      refine ⟨k - 1, ?_⟩
      rcases Nat.eq_zero_or_pos k with rfl | hk
      · omega
      · omega
    have hdiv : n / 10 < 10 ^ (j + 1) := Nat.div_lt_of_lt_mul (by rwa [← Nat.pow_succ'])
    rw [digits_of_le hn, List.length_append, List.length_singleton]
    exact Nat.succ_le_succ (ih hdiv)

/-- Settles O55, by induction along the recursion. -/
theorem digitsOfANumber : Obligations.DigitsOfANumber := by
  refine fun n => ⟨?_, foldl_digits n, fun d => lt_ten_of_mem_digits, eq_zero_of_head_digits⟩
  split
  next h => exact digits_of_lt h
  next h => exact digits_of_le (Nat.not_lt.1 h)

theorem digits_injective : Function.Injective digits :=
  Function.LeftInverse.injective (g := List.foldl (fun acc d => acc * 10 + d) 0) foldl_digits

/-! The text -/

/-- The digit that a code stands for: the inverse of `digitGlyph` on the digits. -/
def glyphDigit (c : Config) (g : Byte) : Nat := (g - c.glyphDigit0).toNat

theorem glyphDigit_digitGlyph (c : Config) {d : Nat} (h : d < 10) :
    glyphDigit c (digitGlyph c d) = d := by
  rw [glyphDigit, digitGlyph, add_sub_cancel_left, BitVec.toNat_ofNat]
  exact Nat.mod_eq_of_lt (by omega)

/-- The digits are read back from their codes, and the number from its digits. -/
theorem eq_of_map_digitGlyph_eq {c : Config} {n m : Nat}
    (h : (digits n).map (digitGlyph c) = (digits m).map (digitGlyph c)) : n = m := by
  have hread : ∀ k, ((digits k).map (digitGlyph c)).map (glyphDigit c) = digits k := fun k => by
    rw [List.map_map]
    have hglyph : ∀ d ∈ digits k, (glyphDigit c ∘ digitGlyph c) d = id d := fun d hd =>
      glyphDigit_digitGlyph c (lt_ten_of_mem_digits hd)
    rw [List.map_congr_left hglyph, List.map_id]
  refine digits_injective ?_
  rw [← hread n, h, hread m]

theorem minus_not_mem_digits {c : Config}
    (hminus : ∀ d, d < 10 → c.glyphMinus ≠ c.glyphDigit0 + BitVec.ofNat 8 d) (n : Nat) :
    c.glyphMinus ∉ (digits n).map (digitGlyph c) := by
  intro hmem
  obtain ⟨d, hd, hglyph⟩ := List.mem_map.1 hmem
  exact hminus d (lt_ten_of_mem_digits hd) hglyph.symm

theorem decimalText_of_neg {c : Config} {v : Int} (h : v < 0) :
    decimalText c v = c.glyphMinus :: (digits v.natAbs).map (digitGlyph c) := by
  rw [decimalText, if_pos h]

theorem decimalText_of_nonneg {c : Config} {v : Int} (h : 0 ≤ v) :
    decimalText c v = (digits v.natAbs).map (digitGlyph c) := by
  rw [decimalText, if_neg (Int.not_lt.2 h)]

/-- The text says the sign, by its first code, and the absolute value (R196). -/
theorem eq_of_decimalText_eq {c : Config} {v w : Int}
    (hminus : ∀ d, d < 10 → c.glyphMinus ≠ c.glyphDigit0 + BitVec.ofNat 8 d)
    (h : decimalText c v = decimalText c w) : v = w := by
  rcases lt_or_ge v 0 with hv | hv <;> rcases lt_or_ge w 0 with hw | hw
  · rw [decimalText_of_neg hv, decimalText_of_neg hw] at h
    have habs := eq_of_map_digitGlyph_eq (List.cons.inj h).2
    omega
  · rw [decimalText_of_neg hv, decimalText_of_nonneg hw] at h
    exact absurd (h ▸ List.mem_cons_self) (minus_not_mem_digits hminus w.natAbs)
  · rw [decimalText_of_nonneg hv, decimalText_of_neg hw] at h
    exact absurd (h ▸ List.mem_cons_self) (minus_not_mem_digits hminus v.natAbs)
  · rw [decimalText_of_nonneg hv, decimalText_of_nonneg hw] at h
    have habs := eq_of_map_digitGlyph_eq h
    omega

theorem length_decimalText (c : Config) (v : Int) :
    (decimalText c v).length = (if v < 0 then 1 else 0) + (digits v.natAbs).length := by
  rw [decimalText_eq, List.length_append, List.length_map]
  split <;> rfl

theorem length_decimalText_pos (c : Config) (v : Int) : 1 ≤ (decimalText c v).length := by
  have hpos := List.length_pos_of_ne_nil (digits_ne_nil v.natAbs)
  rw [length_decimalText]
  omega

theorem length_decimalText_le (c : Config) {v : Int} {k : Nat} (h : v.natAbs < 10 ^ k) :
    (decimalText c v).length ≤ 1 + k := by
  rw [length_decimalText]
  cases k with
  | zero =>
    obtain rfl : v = 0 := by omega
    exact Nat.le_refl 1
  | succ k =>
    have hdigits := length_digits_le h
    split <;> omega

theorem natAbs_toInt_lt {w : Nat} (x : BitVec w) : x.toInt.natAbs < 2 ^ w := by
  have hlt := x.isLt
  rw [BitVec.toInt_eq_toNat_cond]
  split <;> omega

/-- Settles O56: the integer is read back from its text, and an operand of `INT_W` bits is below
`2 ^ INT_W` in absolute value. -/
theorem decimalTextIsFaithful : Obligations.DecimalTextIsFaithful := by
  refine ⟨fun c v w => eq_of_decimalText_eq, ?_⟩
  rintro c val tx rfl
  have habs := natAbs_toInt_lt (val.setWidth c.intW)
  have hle : ∀ k, 2 ^ c.intW ≤ 10 ^ k →
      (decimalText c (val.setWidth c.intW).toInt).length ≤ 1 + k :=
    fun k hk => length_decimalText_le c (habs.trans_le hk)
  exact ⟨length_decimalText_pos c _, hle, fun hw => hle 5 (by rw [hw]; decide)⟩

end Sys2Proof.Machine

/-! PROOF. From a sample to the fan (R221, R223, R225, R227): the end of `SENSOR_READ` by the
policy, the temperature and the band of a sample in the default configuration, and the host's turns
from the conversion to the duty write. -/

namespace Sys2Proof.Machine

/-! The end of `SENSOR_READ` -/

/-- Under the blocking policy, or with the valid bit, the response is a sample (R223). -/
theorem convertPart_of_sample {s : State} (skip : Bool) (rest : List HostAct)
    (h : s.par.cfg.policy = .blocking ∨ (responseWord s.resp).getLsbD 15 = true) :
    convertPart skip rest s = s.takeSample.finishPart rest := by
  unfold convertPart
  split
  next => rfl
  next hlatched =>
    have hvalid : (responseWord s.resp).getLsbD 15 = true := by simpa [hlatched] using h
    rw [if_pos hvalid]

/-- Without the valid bit the latched policy has no sample (R223). -/
theorem convertPart_without_sample {s : State} (skip : Bool) (rest : List HostAct)
    (hpol : s.par.cfg.policy = .latched) (hword : (responseWord s.resp).getLsbD 15 = false) :
    convertPart skip rest s = s.finishPart (if skip then [] else rest) := by
  simp only [convertPart, hpol]
  exact if_neg (ne_true_of_eq_false hword)

/-- The host's turn with a part of a host step next (R80). -/
theorem step_of_queue {s : State} {a : HostAct} {rest : List HostAct} (hs : s.refused = none)
    (hturn : s.nextTurn = .host) (hseq : s.lcd.seq = []) (hwait : s.host.waiting = false)
    (hqueue : s.host.queue = a :: rest) : step s = hostPart a rest s.takeTurn := by
  rw [step_eq s hs, hturn]
  simp [agentStep, hostAgent, hostNext, hseq, hwait, hqueue]

/-! The response of each policy -/

/-- The word that the policy gives for a sample: `ADC_READ`'s, or `ADC_TAKE`'s (R93). -/
def policyWord (p : ReadPolicy) (sample : BitVec 10) : BitVec 16 :=
  match p with
  | .blocking => resultWord sample
  | .latched => takenWord sample

theorem setWidth_policyWord (p : ReadPolicy) (sample : BitVec 10) :
    (policyWord p sample).setWidth 10 = sample := by
  have hresult : (sample.setWidth 16).setWidth 10 = sample :=
    (BitVec.setWidth_setWidth_of_le sample (by decide)).trans (BitVec.setWidth_eq sample)
  cases p with
  | blocking => exact hresult
  | latched =>
    simp only [policyWord, takenWord, BitVec.setWidth_or, hresult]
    exact BitVec.zero_or

/-- A sample's word counts as one under its policy (R223). -/
theorem policyWord_valid (p : ReadPolicy) (sample : BitVec 10) :
    p = .blocking ∨ (policyWord p sample).getLsbD 15 = true := by
  cases p with
  | blocking => exact .inl rfl
  | latched => exact .inr (by simp [policyWord, takenWord])

/-! The temperature and its band -/

/-- With the default constants the quotient of R221 is a multiple of 256/1023. -/
theorem temperature_defaults (w : BusWidth) (p : ReadPolicy) (sample : BitVec 10) :
    temperature (Config.defaults w p) sample = sample.toNat * 256 / 1023 := by
  simp only [temperature, Config.defaults]
  omega

/-- The bands of R225 as intervals of the sample (R227). -/
theorem band_of_sample (n : Nat) :
    band (n * 256 / 1023) =
      (if n < 120 then .stopped else .forward,
        if n < 120 then 0 else if n < 240 then 25 else if n < 360 then 50
          else if n < 480 then 75 else 100) := by
  have h30 : n * 256 / 1023 < 30 ↔ n < 120 := by omega
  have h60 : n * 256 / 1023 < 60 ↔ n < 240 := by omega
  have h90 : n * 256 / 1023 < 90 ↔ n < 360 := by omega
  have h120 : n * 256 / 1023 < 120 ↔ n < 480 := by omega
  simp only [band, h30, h60, h90, h120]
  split_ifs <;> rfl

/-- Every band selects a duty in the documented range (R147, R225). -/
theorem toNat_band_duty_le (temp : Nat) : (band temp).2.toNat ≤ 100 := by
  unfold band
  split_ifs <;> decide

/-- The compare values of R227 are the thresholds of its duties (R145). -/
theorem threshold_of_sample (n : Nat) :
    threshold (if n < 120 then 0 else if n < 240 then 25 else if n < 360 then 50
        else if n < 480 then 75 else 100) =
      if n < 120 then 0 else if n < 240 then 64 else if n < 360 then 128
        else if n < 480 then 191 else 255 := by
  split_ifs <;> rfl

/-! The turns of the control loop -/

/-- The host's variables after the selection of a command from `temp` (R225). -/
def State.selectBand (s : State) : State :=
  { s with host :=
    { s.host with dir := (band s.host.temp).1, duty := (band s.host.temp).2 } }

/-- The host has performed `MOTOR_SET` of the selected command in four turns, `rest` being the parts
after it and `turns` the turns (R218). -/
def State.motorDone (s : State) (rest : List HostAct) (turns : List Turn) : State :=
  State.finishPart
    { s with
      tmr := { s.tmr with cmp := threshold s.host.duty }
      trace := s.trace
        ++ [.pin s.par.cfg.pins.motorA (motorLevels s.par.cfg s.host.dir).1,
          .pin s.par.cfg.pins.motorB (motorLevels s.par.cfg s.host.dir).2]
      sched := turns
      turnNo := s.turnNo + 4 } rest

section Fields

variable (s : State) (rest : List HostAct) (turns : List Turn)

@[simp] theorem State.selectBand_host : s.selectBand.host =
    { s.host with dir := (band s.host.temp).1, duty := (band s.host.temp).2 } := rfl
@[simp] theorem State.selectBand_tmr : s.selectBand.tmr = s.tmr := rfl
@[simp] theorem State.selectBand_adc : s.selectBand.adc = s.adc := rfl
@[simp] theorem State.selectBand_lcd : s.selectBand.lcd = s.lcd := rfl
@[simp] theorem State.selectBand_refused : s.selectBand.refused = s.refused := rfl
@[simp] theorem State.selectBand_sched : s.selectBand.sched = s.sched := rfl

@[simp] theorem State.motorDone_tmr :
    (s.motorDone rest turns).tmr = { s.tmr with cmp := threshold s.host.duty } := rfl
@[simp] theorem State.motorDone_host : (s.motorDone rest turns).host =
    { s.host with queue := rest, hpc := if rest = [] then s.host.hpc + 1 else s.host.hpc } := rfl
@[simp] theorem State.motorDone_adc : (s.motorDone rest turns).adc = s.adc := rfl
@[simp] theorem State.motorDone_lcd : (s.motorDone rest turns).lcd = s.lcd := rfl
@[simp] theorem State.motorDone_refused : (s.motorDone rest turns).refused = s.refused := rfl

end Fields

section Performs

variable {s : State} {a : HostAct} {rest : List HostAct} {turns : List Turn}

/-- The conversion of a sample, with a part after it, which is next. -/
theorem State.Performs.convert {skip : Bool}
    (h : s.Performs (.convert skip) (a :: rest) (.host :: turns))
    (hsample : s.par.cfg.policy = .blocking ∨ (responseWord s.resp).getLsbD 15 = true) :
    Machine.step s = .next (s.takeTurn.takeSample.finishPart (a :: rest))
      ∧ (s.takeTurn.takeSample.finishPart (a :: rest)).Performs a rest turns :=
  ⟨h.step.trans (congrArg Host.Outcome.next (convertPart_of_sample skip _ hsample)),
    h.safe, by simp [h.sched], h.seq, h.notWaiting, .inl rfl⟩

/-- The selection, with a part after it, which is next. -/
theorem State.Performs.select (h : s.Performs .select (a :: rest) (.host :: turns)) :
    Machine.step s = .next (s.takeTurn.selectBand.finishPart (a :: rest))
      ∧ (s.takeTurn.selectBand.finishPart (a :: rest)).Performs a rest turns :=
  ⟨h.step, h.safe, by simp [h.sched], h.seq, h.notWaiting, .inl rfl⟩

/-- `MOTOR_SET` of the selected command is replaced by its parts, the first pin write next. -/
theorem State.Performs.motorSelected (h : s.Performs .motorSelected rest (.host :: turns)) :
    Machine.step s = .next
        (s.takeTurn.finishPart (motorParts s.par.cfg s.host.dir s.host.duty ++ rest))
      ∧ (s.takeTurn.finishPart (motorParts s.par.cfg s.host.dir s.host.duty ++ rest)).Performs
          (.gpioPin s.par.cfg.pins.motorA (motorLevels s.par.cfg s.host.dir).1)
          (.gpioPin s.par.cfg.pins.motorB (motorLevels s.par.cfg s.host.dir).2
            :: .op (.tmrDuty s.host.duty) :: rest) turns :=
  ⟨h.step, h.safe, by simp [h.sched], h.seq, h.notWaiting, .inl rfl⟩

/-- `MOTOR_SET` of the selected command, from its taking up to the duty write (R218). -/
theorem State.Performs.reaches_motorSelected
    (h : s.Performs .motorSelected rest (.host :: .host :: .host :: turns))
    (hduty : s.host.duty.toNat ≤ 100) :
    reaches 4 s (s.motorDone rest turns) := by
  obtain ⟨hmotor, hparts⟩ := h.motorSelected
  obtain ⟨hpinA, hafterA⟩ := hparts.gpioPin
  obtain ⟨hpinB, hafterB⟩ := hafterA.gpioPin
  refine ⟨_, hmotor, _, hpinA, _, hpinB, _, hafterB.tmrDuty hduty, ?_⟩
  simp [reaches, State.motorDone, State.takeTurn, State.emit, State.finishPart, motorParts, h.sched]

end Performs

/-- Settles O59: the six turns are the conversion, the selection, the taking up of `MOTOR_SET` and
its three parts, and R227's table is that of the bands; the conversion's turn is by the policy. -/
theorem sampleSetsFanSpeed : Obligations.SampleSetsFanSpeed := by
  refine ⟨?_, ?_⟩
  · intro s w p sample q rest hs hseq hwait hcfg hresp hqueue hsched
    have hword : responseWord s.resp = policyWord p sample := by
      rw [hresp]
      cases p <;> rfl
    have htemp : temperature s.par.cfg ((responseWord s.resp).setWidth 10)
        = sample.toNat * 256 / 1023 := by
      rw [hword, hcfg, setWidth_policyWord, temperature_defaults]
    have hsample : s.par.cfg.policy = .blocking ∨ (responseWord s.resp).getLsbD 15 = true := by
      rw [hword, hcfg]
      exact policyWord_valid p sample
    have hnext : s.Performs (.convert true) (.select :: .motorSelected :: q)
        (.host :: .host :: .host :: .host :: .host :: rest) :=
      ⟨hs, hsched, hseq, hwait, .inl hqueue⟩
    obtain ⟨hconvert, hconverted⟩ := hnext.convert hsample
    obtain ⟨hselect, hselected⟩ := hconverted.select
    have hmotor := hselected.reaches_motorSelected (toNat_band_duty_le _)
    refine ⟨_, ⟨_, hconvert, _, hselect, hmotor⟩, ?_⟩
    simpa [htemp, band_of_sample, hs] using threshold_of_sample sample.toNat
  · intro s word skip q hs hturn hseq hwait hqueue hword
    have hresp : responseWord s.resp = word := by
      rw [hword]
      cases s.resp <;> rfl
    have hstep : step s = .next (convertPart skip q s.takeTurn) :=
      step_of_queue hs hturn hseq hwait hqueue
    rw [hstep, ← hresp]
    refine ⟨fun hsample => ?_, fun hpol hvalid => ?_⟩
    · rw [convertPart_of_sample (s := s.takeTurn) skip q hsample]
      rfl
    · rw [convertPart_without_sample (s := s.takeTurn) skip q hpol hvalid]
      cases skip <;> simp [State.finishPart]

end Sys2Proof.Machine

/-! PROOF. Every turn answers (R233, R234, R296), the turns of the two handlers (R236, R240, R241), the
body of a callback act by act (R242), and what is refused in interrupt context (R249). -/

namespace Sys2Proof.Machine

/-! Every turn answers -/

/-- The dispatch answers whatever the callback's body is, for every body does. -/
theorem tmrDispatchAgent_answers (s : State) : ∃ t, tmrDispatchAgent s = .next t := by
  obtain ⟨-, h⟩ | ⟨-, -, h⟩ | ⟨-, -, t, -, -, h⟩ := tmrDispatch_cases s <;> exact ⟨_, h⟩

/-- No agent's turn faults or is refused (R233). -/
theorem agentStep_answers (turn : Turn) (s : State) : ∃ t, agentStep turn s = .next t := by
  cases turn with
  | host =>
    obtain ⟨t, h, -⟩ := hostAgent_quiet s
    exact ⟨t, h⟩
  | seq => exact ⟨seqAgent s, rfl⟩
  | tick => exact ⟨tickAgent s, rfl⟩
  | conv v => exact ⟨convAgent v s, rfl⟩
  | adcHandler => exact ⟨adcHandlerAgent s, rfl⟩
  | tmrDispatch => exact tmrDispatchAgent_answers s

/-- Settles O7: a safe state's step is one agent's turn, and `step` asks `REFUSED` before any turn. -/
theorem stepAnswersUnlessRefused : Obligations.StepAnswersUnlessRefused := by
  refine ⟨fun s hs => ?_, fun s r hr => ?_⟩
  · rw [step_eq s hs]
    exact agentStep_answers _ _
  · simp [step, hr]

/-! The turns of the handlers -/

/-- The completion handler's turn with its request down, an idle turn (log entry 7). -/
theorem step_of_no_adcRequest {s : State} (hs : s.refused = none) (hturn : s.nextTurn = .adcHandler)
    (hdown : ¬(s.adc.done = true ∧ s.adc.ie = true)) : step s = .next s.takeTurn := by
  have hstep : step s = .next (adcHandlerAgent s.takeTurn) := by rw [step_eq s hs, hturn]; rfl
  obtain ⟨-, hidle⟩ | ⟨hup, -⟩ := adcHandler_cases s.takeTurn
  · rw [hstep, hidle]
  · exact absurd (by simpa [adcRequest] using hup) hdown

/-- Settles O26: the turn by whether the request is up. -/
theorem completionHandlerPublishes : Obligations.CompletionHandlerPublishes := by
  intro s hs hturn
  split
  case isTrue hup =>
    obtain ⟨hdone, hie⟩ := hup
    exact step_of_adcRequest hs hturn hdone hie
  case isFalse hdown => exact step_of_no_adcRequest hs hturn hdown

/-- The handler in the slot has the body that the run's table gives it (R242). -/
theorem handlerBody_of_lookup {s : State} {body : List HandlerAct}
    (h : s.par.handlers.lookup s.tmr.cb = some body) : handlerBody s = body := by
  simp [handlerBody, h]

/-- Settles O42: the three cases of the dispatch, of which the state's pending bit and slot leave one. -/
theorem tmrDispatchRunsCallback : Obligations.TmrDispatchRunsCallback := by
  intro s hs hturn
  have hstep : step s = tmrDispatchAgent s.takeTurn := by rw [step_eq s hs, hturn]; rfl
  rw [hstep]
  obtain ⟨hpend, h⟩ | ⟨hpend, hcb, h⟩ | ⟨hpend, hcb, u, hbody, -, h⟩ :=
    tmrDispatch_cases s.takeTurn <;> rw [h] <;> simp only [State.takeTurn_tmr] at hpend
  · simp [hpend]
  · exact ⟨by simp [hpend], fun _ _ => rfl, fun _ _ _ hne => absurd hcb hne⟩
  · refine ⟨by simp [hpend], fun _ h0 => absurd h0 hcb, fun body t _ _ hlookup hrun => ?_⟩
    rw [handlerBody_of_lookup (s := s.takeTurn) hlookup] at hbody
    cases hbody.symm.trans hrun
    rfl

/-! The body of a callback -/

section Body

variable {a b : HandlerAct} {s t : State}

/-- A body goes on from what its first act answers, unless that is a refusal (R242). -/
theorem runBody_cons_of_next (rest : List HandlerAct) (h : handlerAct a s = .next t) :
    runBody (a :: rest) s = if t.refused.isSome then .next t else runBody rest t := by
  simp only [runBody, h]

theorem runBody_cons_of_safe (rest : List HandlerAct) (h : handlerAct a s = .next t)
    (ht : t.refused = none) : runBody (a :: rest) s = runBody rest t := by
  simp [runBody_cons_of_next rest h, ht]

theorem runBody_cons_of_refused {r : RefuseReason} (rest : List HandlerAct)
    (h : handlerAct a s = .next t) (ht : t.refused = some r) : runBody (a :: rest) s = .next t := by
  simp [runBody_cons_of_next rest h, ht]

/-- Only what its first act answers matters to a body. -/
theorem runBody_cons_congr (rest : List HandlerAct) (h : handlerAct a s = handlerAct b s) :
    runBody (a :: rest) s = runBody (b :: rest) s := by
  simp only [runBody, h]

end Body

/-- A word that does not decode is refused, in a safe run with the reason of R108 or R109. -/
theorem issueWord_of_decodeError {w : Word} {d : DecodeError} {s : State} (hs : s.refused = none)
    (h : decode s.par.cfg w = .error d) :
    issueWord w s = .next { s with refused := some (decodeReason d) } := by
  simp [issueWord, h, State.refuse_of_safe hs]

/-- A variable reads as what was assigned to it last, beyond the list as 0. -/
theorem value_var_assign (s : State) (k j : Nat) (v : Int) :
    (s.assign k v).value (.var j) = if j = k then v else s.value (.var j) :=
  getD_placeAt 0 v s.host.vars k j

theorem value_resp (s : State) : s.value .resp = (responseWord s.resp).toNat := rfl

/-- Settles O43: each act answers by its rule, and the body goes on from there; a computed operand
makes the act the one with that operand fixed. -/
theorem callbackBodyInOrder : Obligations.CallbackBodyInOrder := by
  refine ⟨fun s => rfl, fun i rest s t h => ?op, fun p l rest s hs => ?pin, fun p o rest s hs => ?dir,
    fun e i rest s h => ?issue, fun e d rest s hs h => ?refusedIssue, fun p e rest s => ?pinOf,
    fun k e rest s hs => ⟨?assign, fun j => value_var_assign s k j _⟩, fun s => ?resp⟩
  case op => exact runBody_cons_of_next rest h
  case pin => exact runBody_cons_of_safe rest rfl hs
  case dir => exact runBody_cons_of_safe rest rfl hs
  case issue => exact runBody_cons_congr rest (issueWord_of_decode h)
  case refusedIssue => exact runBody_cons_of_refused rest (issueWord_of_decodeError hs h) rfl
  case pinOf => exact runBody_cons_congr rest rfl
  case assign => exact runBody_cons_of_safe rest rfl hs
  case resp =>
    rw [value_resp]
    cases s.resp <;> rfl

/-! What is refused in interrupt context -/

section Interrupt

variable {s : State} (hctx : s.ctx = .interrupt)

include hctx

theorem inHandler_of_interrupt : s.inHandler = true := by
  simp [inHandler_eq, hctx]

/-- The guard of R249 comes before that of R182. -/
theorem issueLcd_of_interrupt (q : List MicroStep) : s.issueLcd q = s.refuse .handlerBlocking := by
  simp [State.issueLcd, inHandler_of_interrupt hctx]

theorem exec_lcdInit_of_interrupt : exec .lcdInit s = .next (s.refuse .handlerBlocking) := by
  simp [exec, execLcdInit, inHandler_of_interrupt hctx]

/-- The guard of R249 comes before those of R182 and R189. -/
theorem exec_lcdGoto_of_interrupt (row col : BitVec 8) :
    exec (.lcdGoto row col) s = .next (s.refuse .handlerBlocking) := by
  simp [exec, execLcdGoto, inHandler_of_interrupt hctx]

/-- The guard of R249 comes before that of R125. -/
theorem exec_adcRead_of_interrupt (hpol : s.par.cfg.policy = .blocking) (chan : BitVec 8) :
    exec (.adcRead chan) s = .next (s.refuse .handlerBlocking) := by
  obtain ⟨-, h⟩ | ⟨hno, -⟩ | ⟨hno, -⟩ := exec_adcRead_cases chan s
  · exact h
  · exact absurd ⟨hctx, hpol⟩ hno
  · exact absurd ⟨hctx, hpol⟩ hno

end Interrupt

/-- Settles O44: each of these operations asks first whether a handler issues it, and the refusal of
a safe run records its reason. -/
theorem blockingRefusedInHandler : Obligations.BlockingRefusedInHandler := by
  intro s hs hctx
  rw [← State.refuse_of_safe hs]
  have hissue := issueLcd_of_interrupt hctx
  exact ⟨exec_adcRead_of_interrupt hctx, exec_lcdInit_of_interrupt hctx,
    fun _ => congrArg _ (hissue _), fun _ => congrArg _ (hissue _),
    exec_lcdGoto_of_interrupt hctx, fun _ => congrArg _ (hissue _)⟩

end Sys2Proof.Machine

/-! PROOF. A run that is over (R296): each condition of its end leaves one agent idle, the tick agent
having none. -/

namespace Sys2Proof.Machine

/-- The conditions of R296, in a run that has not gone wrong. -/
theorem runOver_iff {s : State} (hs : s.refused = none) :
    s.runOver = true ↔ s.par.hprog.length ≤ s.host.hpc ∧ s.lcd.seq = [] ∧ s.adc.busy = false
      ∧ adcRequest s.adc = false ∧ s.tmr.pend = false := by
  simp [State.runOver, hs, and_assoc]

/-- The host's turn past the last entry of `HPROG`, with nothing of its own left to do (R50). -/
theorem hostAgent_of_programEnd {s : State} (hend : s.par.hprog.length ≤ s.host.hpc)
    (hqueue : s.host.queue = []) (hwait : s.host.waiting = false) : hostAgent s = .next s := by
  have hentry : s.par.hprog[s.host.hpc]? = none := List.getElem?_eq_none hend
  simp [hostAgent, hostNext, hwait, hqueue, hentry]

/-- The converter's turn with no conversion in flight (R130). -/
theorem convAgent_of_not_busy {s : State} (v : BitVec 10) (hbusy : s.adc.busy = false) :
    convAgent v s = s := by
  obtain ⟨-, hidle⟩ | ⟨hen, -⟩ := convAgent_cases v s
  · exact hidle
  · simp [conversionEnabled, hbusy] at hen

/-- The completion handler's turn with its request down (R236). -/
theorem adcHandlerAgent_of_no_request {s : State} (hdown : adcRequest s.adc = false) :
    adcHandlerAgent s = s := by
  obtain ⟨-, hidle⟩ | ⟨hup, -⟩ := adcHandler_cases s
  · exact hidle
  · simp [hdown] at hup

/-- The dispatch's turn with nothing pending (R241). -/
theorem tmrDispatchAgent_of_not_pend {s : State} (hpend : s.tmr.pend = false) :
    tmrDispatchAgent s = .next s := by
  simp [tmrDispatchAgent, hpend]

/-- After the end of the run, with no host step in progress, no agent but the tick does anything. -/
theorem agentStep_of_runOver {s : State} (hs : s.refused = none) (hover : s.runOver = true)
    (hqueue : s.host.queue = []) (hwait : s.host.waiting = false) {turn : Turn}
    (hturn : turn ≠ .tick) : agentStep turn s = .next s := by
  obtain ⟨hend, hseq, hbusy, hdown, hpend⟩ := (runOver_iff hs).mp hover
  cases turn with
  | host => exact hostAgent_of_programEnd hend hqueue hwait
  | seq => exact congrArg _ (seqAgent_nil hseq)
  | tick => exact absurd rfl hturn
  | conv v => exact congrArg _ (convAgent_of_not_busy v hbusy)
  | adcHandler => exact congrArg _ (adcHandlerAgent_of_no_request hdown)
  | tmrDispatch => exact tmrDispatchAgent_of_not_pend hpend

/-- Settles O19: taking the turn leaves the run over, and then the agent is idle. -/
theorem finishedRunOnlyTicks : Obligations.FinishedRunOnlyTicks := by
  intro s hs hover hqueue hwait hturn
  rw [step_eq s hs]
  exact agentStep_of_runOver (s := s.takeTurn) hs hover hqueue hwait hturn

end Sys2Proof.Machine
